-- ==== Sys2Proof/Word.lean ====
section
/-! DEFINITION. The word and byte types of the block codec core, and the two small records every stage shares. -/

namespace Sys2Proof

/-- A register of the window: 32 bits (rule R15). -/
abbrev Word := BitVec 32

/-- One byte of the pixel or block buffer, or one 8-bit channel of a texel (rules R22, R23). -/
abbrev Byte := BitVec 8

/-- A triple over the channels r, g, b: a color, a point, an axis (rule R10). -/
structure Vec3 (α : Type) where
  r : α
  g : α
  b : α
deriving DecidableEq, Repr

/-- One RGBA8 texel: the four byte lanes of a pixel word (rules R22, R46). -/
structure Texel where
  r : Byte
  g : Byte
  b : Byte
  a : Byte
deriving DecidableEq, Repr

end Sys2Proof
end

