-- ==== Sys2Proof/Config.lean ====
section
/-! DEFINITION. What this hardware fixes (the parameters of rule R7) and what the spec leaves open
(the free values, which have no body). -/

namespace Sys2Proof

/-- The named parameters of rule R7 that the encoder takes as arguments. -/
structure Params where
  /-- `P_ALPHA_THRESHOLD`: alpha below it is transparent (rule R82). -/
  alphaThreshold : Nat
  /-- `P_POWER_ITERATIONS`: steps of the power iteration (rule R95). -/
  powerIterations : Nat
  /-- `P_CLUSTER_PASSES`: passes of the color cluster fit (rule R108). -/
  clusterPasses : Nat
deriving DecidableEq, Repr

/-- The "this hardware" column of rule R7. -/
def Config.thisHardware : Params :=
  { alphaThreshold := 128, powerIterations := 8, clusterPasses := 1 }

/-- FREE VALUE. What a host read of `PIX`, `BLKW` or `ERRMETRIC` returns while `BUSY = 1`: any 32-bit value
(rule R50, U1), a fresh draw for each such read. DESIGN CHOICE of the form, log entry 4. -/
opaque Config.busyRead : Nat → Word

/-- FREE VALUE. `P_WINDOW_BASE`: where a platform places the window of each core instance in its host's address space (rules R51,
R183, D4, U5). Each instance has its own window, and the spec does not say how the places of two of them are related: one base
for each instance number, nothing said of any. DESIGN CHOICE of the form, log entry 9. -/
opaque Config.windowBase : Nat → Nat

/-- FREE VALUE. One less than `P_CORES`, the number of core instances of the system (rules R7, R183, U6). DESIGN CHOICE
of the form, log entry 9. -/
opaque Config.moreCores : Nat

/-- `P_CORES ≥ 1` (rules R7, R13). -/
def Config.cores : Nat := Config.moreCores + 1

end Sys2Proof
end

