-- ==== Sys2Proof/Syntax.lean ====
section
/-! DEFINITION. The command set `TXC1` as syntax: formats, options, the ten commands of the opcode table, the fields of a
command word, the error codes, and what the host can put on its bus. -/

namespace Sys2Proof

/-- The five formats of rule R2. -/
inductive Format where
  | bc1
  | bc2
  | bc3
  | bc4
  | bc5
deriving DecidableEq, Repr

/-- The alpha modes of the format descriptor (rule R61). -/
inductive AlphaMode where
  | none
  | explicit4
  | interpolated8
deriving DecidableEq, Repr

/-- The option `FIT` of an encode command (rule R60): range fit or cluster fit. -/
inductive Fit where
  | range
  | cluster
deriving DecidableEq, Repr

/-- The commands of the opcode table (rule R63), one constructor a row. The options are the fields the row leaves free:
`fit` is `.cluster` (bit `FIT`), `wba` is `.wba` (bit `WBA`). -/
inductive Instr where
  | encBc1 (fit : Fit) (wba : Bool)
  | encBc2 (fit : Fit) (wba : Bool)
  | encBc3 (fit : Fit) (wba : Bool)
  | encBc4 (fit : Fit)
  | encBc5 (fit : Fit)
  | decBc1
  | decBc2
  | decBc3
  | decBc4
  | decBc5
deriving DecidableEq, Repr

/-- The fields of a command word (rule R60), legal or not. -/
structure CmdFields where
  /-- bit 0, `DIR`: 0 encode, 1 decode. -/
  dir : Bool
  /-- bits 3:1, `FMT`. -/
  fmt : BitVec 3
  /-- bit 4, `FIT`. -/
  fit : Bool
  /-- bit 5, `WBA`. -/
  wba : Bool
  /-- bits 31:6, reserved. -/
  rsvd : BitVec 26
deriving DecidableEq, Repr

/-- The error names of rule R170; codes 5 to 7 name nothing. -/
inductive ErrCode where
  | none
  | invalidDimensions
  | unsupportedFormat
  | truncatedInput
  | invalidCommand
deriving DecidableEq, Repr

/-- One access the host issues to the window (rules R41, R42), or a poll loop (rule R75). -/
inductive HostOp where
  /-- `<name> <- MemRead(addr, n)`. -/
  | read (addr n : Nat) (name : String)
  /-- `MemWrite(addr, n, v)`. -/
  | write (addr n : Nat) (v : Word)
  /-- `POLL`: repeat `s <- MemRead(0x04, 4)` until `s[0] = 0`. -/
  | poll
deriving DecidableEq, Repr

/-- One line of a host program (rule R75). -/
inductive HostLine where
  /-- `W <off>, <value>` -/
  | w (off : Nat) (v : Word)
  /-- `R <off> -> <name>` -/
  | r (off : Nat) (name : String)
  /-- `POLL` -/
  | poll
  /-- `CMD <mnemonic>` -/
  | cmd (i : Instr)
  /-- `cmd 0x<hex>`: a raw command word (rule R74) as a line of its own, which writes the word to `CMD`. Rule R75's table has no
  such line: DESIGN CHOICE, log entry 15. -/
  | cmdWord (v : Word)
  /-- `PIX <i>, <R>, <G>, <B>, <A>` -/
  | pix (i : Nat) (t : Texel)
  /-- `BLK <b0> … <b15>` -/
  | blk (bytes : Vector Byte 16)
  /-- `MASK <m>` -/
  | mask (m : Word)
deriving DecidableEq, Repr

end Sys2Proof
end

