-- ==== Sys2Proof/WellFormed.lean ====
section
/-! DEFINITION. Which command words are legal (rule R62), as named checks over the word's fields. Every term of `Instr` stands
for a legal word (`Instr.wf`, in Decode.lean, says so through these checks). -/

namespace Sys2Proof

/-- `FMT` is one of 1 to 5 (rule R62). -/
def CmdFields.formatSupported (f : CmdFields) : Bool :=
  decide (1 ≤ f.fmt.toNat) && decide (f.fmt.toNat ≤ 5)

/-- Bits 31:6 are 0 (rule R62). -/
def CmdFields.reservedZero (f : CmdFields) : Bool :=
  f.rsvd == 0

/-- A decode has neither option (rule R62). -/
def CmdFields.decodeHasNoOption (f : CmdFields) : Bool :=
  !f.dir || (!f.fit && !f.wba)

/-- An encode of BC4 or BC5 has no `WBA` (rule R62). -/
def CmdFields.wbaOnlyWithColor (f : CmdFields) : Bool :=
  f.dir || !f.wba || decide (f.fmt.toNat ≤ 3)

/-- The legal commands of rule R62. -/
def CmdFields.wf (f : CmdFields) : Bool :=
  f.formatSupported && f.reservedZero && f.decodeHasNoOption && f.wbaOnlyWithColor

end Sys2Proof
end

