-- ==== Sys2Proof/Decode.lean ====
section
/-! DEFINITION. The command word: decoding, total and rejecting by name (rules R60 to R65, R171, R172), then encoding from the
same tables, the format descriptor (rule R61) and the spelling of commands (rule R74). -/

namespace Sys2Proof

/-- `FMT` of a format (rule R61). -/
def Format.code : Format → BitVec 3
  | .bc1 => 1
  | .bc2 => 2
  | .bc3 => 3
  | .bc4 => 4
  | .bc5 => 5

/-- The format a `FMT` code names; 0, 6 and 7 name none (rules R60, R64). -/
def Format.ofCode (c : BitVec 3) : Option Format :=
  if c = 1 then some .bc1
  else if c = 2 then some .bc2
  else if c = 3 then some .bc3
  else if c = 4 then some .bc4
  else if c = 5 then some .bc5
  else none

/-- Has this format a color sub-block (BC1, BC2, BC3), so that `WBA` is allowed (rules R62, R70)? -/
def Format.hasColor : Format → Bool
  | .bc1 => true
  | .bc2 => true
  | .bc3 => true
  | .bc4 => false
  | .bc5 => false

/-- The number a result code has in `STATUS.ERR` and as a driver result (rule R170). -/
def ErrCode.code : ErrCode → BitVec 3
  | .none => 0
  | .invalidDimensions => 1
  | .unsupportedFormat => 2
  | .truncatedInput => 3
  | .invalidCommand => 4

/-- The fields of a command word (rule R60). -/
def fieldsOf (w : Word) : CmdFields :=
  { dir := w.getLsbD 0
    fmt := w.extractLsb' 1 3
    fit := w.getLsbD 4
    wba := w.getLsbD 5
    rsvd := w.extractLsb' 6 26 }

/-- The command word with the given fields: `{rsvd, WBA, FIT, FMT, DIR}` (rule R60). -/
def CmdFields.word (f : CmdFields) : Word :=
  f.rsvd ++ (BitVec.ofBool f.wba ++ (BitVec.ofBool f.fit ++ (f.fmt ++ BitVec.ofBool f.dir)))

/-- The value of the option `FIT` (rule R60). -/
def Fit.ofBit (b : Bool) : Fit :=
  if b then .cluster else .range

/-- The bit of the option `FIT` (rule R60). -/
def Fit.bit : Fit → Bool
  | .range => false
  | .cluster => true

/-- The encode command of a format; a format without a color sub-block has no `WBA` (rule R63). -/
def encodeCommand (fmt : Format) (fit : Fit) (wba : Bool) : Instr :=
  match fmt with
  | .bc1 => .encBc1 fit wba
  | .bc2 => .encBc2 fit wba
  | .bc3 => .encBc3 fit wba
  | .bc4 => .encBc4 fit
  | .bc5 => .encBc5 fit

/-- The decode command of a format (rule R63). -/
def decodeCommand (fmt : Format) : Instr :=
  match fmt with
  | .bc1 => .decBc1
  | .bc2 => .decBc2
  | .bc3 => .decBc3
  | .bc4 => .decBc4
  | .bc5 => .decBc5

/-- The decoder: the command a word stands for, or the code it is rejected with, the checks in the order of rule R171. -/
def decode (w : Word) : Except ErrCode Instr :=
  match Format.ofCode (fieldsOf w).fmt with
  | none => .error .unsupportedFormat
  | some fmt =>
    if (fieldsOf w).rsvd ≠ 0 then .error .invalidCommand
    else if (fieldsOf w).dir && ((fieldsOf w).fit || (fieldsOf w).wba) then .error .invalidCommand
    else if !(fieldsOf w).dir && !fmt.hasColor && (fieldsOf w).wba then .error .invalidCommand
    else if (fieldsOf w).dir then .ok (decodeCommand fmt)
    else .ok (encodeCommand fmt (Fit.ofBit (fieldsOf w).fit) (fieldsOf w).wba)

/-- `check(v)` of rule R171: the code the performing of a command word completes with, `NONE` for a legal one. -/
def commandCheck (w : Word) : ErrCode :=
  match decode w with
  | .ok _ => .none
  | .error e => e

/-- The format of a command (rule R63). -/
def Instr.format : Instr → Format
  | .encBc1 _ _ => .bc1
  | .encBc2 _ _ => .bc2
  | .encBc3 _ _ => .bc3
  | .encBc4 _ => .bc4
  | .encBc5 _ => .bc5
  | .decBc1 => .bc1
  | .decBc2 => .bc2
  | .decBc3 => .bc3
  | .decBc4 => .bc4
  | .decBc5 => .bc5

/-- Is this a decode command (`DIR = 1`, rule R60)? -/
def Instr.isDecode : Instr → Bool
  | .encBc1 _ _ => false
  | .encBc2 _ _ => false
  | .encBc3 _ _ => false
  | .encBc4 _ => false
  | .encBc5 _ => false
  | .decBc1 => true
  | .decBc2 => true
  | .decBc3 => true
  | .decBc4 => true
  | .decBc5 => true

/-- The fields of an encode word (rule R60). -/
def encodeFields (fmt : Format) (fit : Fit) (wba : Bool) : CmdFields :=
  { dir := false, fmt := fmt.code, fit := fit.bit, wba := wba, rsvd := 0 }

/-- The fields of a decode word (rule R60). -/
def decodeFields (fmt : Format) : CmdFields :=
  { dir := true, fmt := fmt.code, fit := false, wba := false, rsvd := 0 }

/-- The fields of each command's word (rule R63). -/
def Instr.fields : Instr → CmdFields
  | .encBc1 fit wba => encodeFields .bc1 fit wba
  | .encBc2 fit wba => encodeFields .bc2 fit wba
  | .encBc3 fit wba => encodeFields .bc3 fit wba
  | .encBc4 fit => encodeFields .bc4 fit false
  | .encBc5 fit => encodeFields .bc5 fit false
  | .decBc1 => decodeFields .bc1
  | .decBc2 => decodeFields .bc2
  | .decBc3 => decodeFields .bc3
  | .decBc4 => decodeFields .bc4
  | .decBc5 => decodeFields .bc5

/-- The command's fields pass the checks of rule R62. -/
def Instr.wf (i : Instr) : Bool :=
  i.fields.wf

/-- The word of a command (rule R63). -/
def encode (i : Instr) : Word :=
  i.fields.word

/-- The instruction the decoder reads from a table word: `w` cut to its `nbits` bits; a command is exactly one 32-bit word
(rule R65), so a wider row would be none of this hardware's. -/
def decodeTableWord (nbits w : Nat) : Option Instr :=
  if 32 < nbits then none
  else
    match decode (BitVec.ofNat 32 (w % 2 ^ nbits)) with
    | .ok i => some i
    | .error _ => none

/-- The block size `s` in bytes (rule R61). -/
def Format.blockBytes : Format → Nat
  | .bc1 => 8
  | .bc2 => 16
  | .bc3 => 16
  | .bc4 => 8
  | .bc5 => 16

/-- The alpha mode of a format (rule R61). -/
def Format.alphaMode : Format → AlphaMode
  | .bc1 => .none
  | .bc2 => .explicit4
  | .bc3 => .interpolated8
  | .bc4 => .none
  | .bc5 => .none

/-- The number of channels a format encodes (rule R61): R, G, B; R, G, B, A; R; R, G. -/
def Format.channelCount : Format → Nat
  | .bc1 => 3
  | .bc2 => 4
  | .bc3 => 4
  | .bc4 => 1
  | .bc5 => 2

/-- The other name of a format (rule R61). -/
def Format.otherName : Format → String
  | .bc1 => "DXT1"
  | .bc2 => "DXT3"
  | .bc3 => "DXT5"
  | .bc4 => "RGTC1"
  | .bc5 => "RGTC2"

/-- The suffix of the option `FIT` in a command's spelling (rule R74). -/
def Fit.suffix : Fit → String
  | .range => ""
  | .cluster => ".cluster"

/-- The suffix of the option `WBA` in a command's spelling (rule R74). -/
def wbaSuffix (wba : Bool) : String :=
  if wba then ".wba" else ""

/-- The spelling of a command (rule R74). -/
def Instr.spelling : Instr → String
  | .encBc1 fit wba => "enc.bc1" ++ fit.suffix ++ wbaSuffix wba
  | .encBc2 fit wba => "enc.bc2" ++ fit.suffix ++ wbaSuffix wba
  | .encBc3 fit wba => "enc.bc3" ++ fit.suffix ++ wbaSuffix wba
  | .encBc4 fit => "enc.bc4" ++ fit.suffix
  | .encBc5 fit => "enc.bc5" ++ fit.suffix
  | .decBc1 => "dec.bc1"
  | .decBc2 => "dec.bc2"
  | .decBc3 => "dec.bc3"
  | .decBc4 => "dec.bc4"
  | .decBc5 => "dec.bc5"

/-- Every command with every option setting: the 21 legal words of rule R62. -/
def Instr.all : List Instr :=
  [.encBc1 .range false, .encBc1 .cluster false, .encBc1 .range true, .encBc1 .cluster true,
   .encBc2 .range false, .encBc2 .cluster false, .encBc2 .range true, .encBc2 .cluster true,
   .encBc3 .range false, .encBc3 .cluster false, .encBc3 .range true, .encBc3 .cluster true,
   .encBc4 .range, .encBc4 .cluster, .encBc5 .range, .encBc5 .cluster,
   .decBc1, .decBc2, .decBc3, .decBc4, .decBc5]

/-- Reading a command's spelling; a text outside the grammar is no command (rule R74). -/
def parseCommand (text : String) : Option Instr :=
  Instr.all.find? fun i => i.spelling == text

/-- The value of a hexadecimal digit. -/
def hexDigit (c : Char) : Option Nat :=
  if '0' ≤ c ∧ c ≤ '9' then some (c.toNat - '0'.toNat)
  else if 'a' ≤ c ∧ c ≤ 'f' then some (c.toNat - 'a'.toNat + 10)
  else if 'A' ≤ c ∧ c ≤ 'F' then some (c.toNat - 'A'.toNat + 10)
  else none

/-- The number a list of hexadecimal digits writes, most significant first; no digit at all writes none. -/
def hexNumber : List Char → Option Nat
  | [] => none
  | c :: cs =>
    (c :: cs).foldl (fun acc d => match acc, hexDigit d with | some n, some k => some (16 * n + k) | _, _ => none) (some 0)

/-- Reading a raw word `cmd 0x<hex>` (rule R74); a number wider than 32 bits is no word. -/
def parseRawCommand (text : String) : Option Word :=
  match text.toList with
  | 'c' :: 'm' :: 'd' :: ' ' :: '0' :: 'x' :: digits =>
    match hexNumber digits with
    | some n => if n < 2 ^ 32 then some (BitVec.ofNat 32 n) else none
    | none => none
  | _ => none

end Sys2Proof
end

