-- ==== Sys2Proof/Machine/State.lean ====
section
/-! DEFINITION. The state of one core instance and of the host that drives it, as plain data; the faults and refusals; the
state after reset (rules R13 to R29, R190). -/

namespace Sys2Proof.Machine

/-- `STATUS` (rule R17): its four fields. The reserved bits 3:2, 7 and 31:9 are not stored: they read 0 (`Status.word`).
DEDUCED, log entry 2. -/
structure Status where
  /-- bit 0 -/
  busy : Bool
  /-- bit 1 -/
  done : Bool
  /-- bits 6:4 -/
  err : ErrCode
  /-- bit 8, sticky -/
  werr : Bool
deriving DecidableEq, Repr

/-- The bytes of the buffers `PIX` and `BLK`, keyed by their offset in the window (rules R22, R23, R40): a list of cells with
strictly rising offsets. An offset that is not listed holds *no value* (rule R27). DESIGN CHOICE of the form, log entry 1. -/
abbrev Memory := List Host.Cell

/-- What the host saw on its bus: a read of `addr` that returned `value`, which the host's program called `name` (rule R75). -/
structure Observation where
  name : String
  addr : Nat
  value : Word
deriving DecidableEq, Repr

/-- Who moves next: the core performs its command, the host issues its next access, or a reset arrives (rules R13, R190,
R196). -/
inductive Turn where
  | core
  | host
  | reset
deriving DecidableEq, Repr

/-- Everything the spec gives one core, and the host agent that drives it. The last four fields are the model's own
(DESIGN CHOICE, log entries 3, 4 and 7). -/
structure State where
  /-- `CMD` (rule R16). -/
  cmd : Word
  /-- `LCMD`, the latched command; `none` when no command was latched since reset (rules R26, R29). -/
  lcmd : Option Word
  /-- `STATUS` (rule R17). -/
  status : Status
  /-- `TEXEL_MASK`, bits 15:0 of `MASK`; bits 31:16 read 0 and ignore writes (rule R24). -/
  texelMask : BitVec 16
  /-- `ERRMETRIC` (rule R25). -/
  errMetric : Word
  /-- `PIX[0..15]` at offsets 0x40 to 0x7F and `BLK[0..15]` at 0x80 to 0x8F (rules R22, R23). -/
  mem : Memory
  /-- The model's own: the accesses the host has still to issue, next first (rules R53, R75). -/
  pending : List HostOp
  /-- The model's own: what the host's reads returned, oldest first. It holds the values of the host program's variables as well
  (rule R75, `hostVar`). -/
  observed : List Observation
  /-- The model's own: the scheduler's choices still to be used (rules R190, R196). -/
  sched : List Turn
  /-- The model's own: how many free values were drawn (rule R50). -/
  draws : Nat
deriving DecidableEq, Repr

/-- Why a step stops the machine. Both are faults the spec defines for a model (rules R178, R179; DEDUCED, log entry 6). -/
inductive Fault where
  /-- `BUS_ERROR(addr, n)`: raised by a host access that is not one aligned 32-bit word at a mapped offset (rules R43, R44,
  R178). No core state changed. Safe: the spec names this fault and gives the access no other effect. -/
  | busError (addr n : Nat)
  /-- `UNINIT`: raised by a host read of a `PIX` or `BLKW` word, or by a command, that reads a byte that has no value (rules
  R27, R179). Safe: the spec says that real storage returns some value, and the model stops instead. -/
  | uninit
deriving DecidableEq, Repr

/-- Why an instruction has no outcome. -/
inductive Refusal where
  /-- Raised by the dispatcher alone, for an instruction that has no meaning yet; no arm does so. Safe: it only stops. -/
  | notModelled (mnemonic : String)
deriving DecidableEq, Repr

/-- `STATUS` after reset: 0 (rule R29). -/
def Status.reset : Status :=
  { busy := false, done := false, err := .none, werr := false }

/-- The machine right after reset (rules R29, R190), with a host that has nothing to do (DESIGN CHOICE, log entry
3). -/
def State.reset : State :=
  { cmd := 0
    lcmd := none
    status := Status.reset
    texelMask := 0xFFFF
    errMetric := 0
    mem := []
    pending := []
    observed := []
    sched := []
    draws := 0 }

end Sys2Proof.Machine
end

