-- ==== Sys2Proof/Machine/Flags.lean ====
section
/-! DEFINITION. `STATUS`: its fields, the word the host reads, and every way a field changes (rules R17 to R21, R28). The core
has no condition codes; these fields are its only flags. -/

namespace Sys2Proof.Machine

/-- The 32 bits a host read of `STATUS` returns: `BUSY` in bit 0, `DONE` in bit 1, `ERR` in bits 6:4, `WERR` in bit 8, every
reserved bit 0 (rule R17). -/
def Status.word (st : Status) : Word :=
  BitVec.ofNat 32
    (st.busy.toNat + 2 * st.done.toNat + 16 * st.err.code.toNat + 256 * st.werr.toNat)

/-- Acceptance of a command: `BUSY` is set, `DONE`, `ERR` and `WERR` are cleared (rule R16). -/
def Status.accepted : Status :=
  { busy := true, done := false, err := .none, werr := false }

/-- Completion with a result code: `BUSY` cleared, `DONE` set, `ERR` written, `WERR` kept (rules R135, R170). -/
def Status.completed (e : ErrCode) (st : Status) : Status :=
  { busy := false, done := true, err := e, werr := st.werr }

/-- A dropped host write: `WERR` is set, nothing else changes (rule R21). -/
def Status.writeDropped (st : Status) : Status :=
  { st with werr := true }

end Sys2Proof.Machine
end

