-- ==== Sys2Proof/Machine/Ops.lean ====
section
/-! DEFINITION. The named operations over the buffers and registers: bytes and little-endian numbers, reading and writing the
buffers, accepting a command, raising an error, completing a command, reset. -/

namespace Sys2Proof.Machine

/-! ### Numbers and bytes (rules R9, R45, R71) -/

/-- `v[hi:lo]` of rule R9 by its low bit and its width: `(v div 2^lo) mod 2^width`. -/
def bitField (v lo width : Nat) : Nat :=
  v / 2 ^ lo % 2 ^ width

/-- The little-endian number of a list of bytes, `Σ_j b_j·256^j` (rules R67 to R69). -/
def leNat : List Byte → Nat
  | [] => 0
  | b :: bs => b.toNat + 256 * leNat bs

/-- The `n` little-endian bytes of a number. -/
def leBytes : Nat → Nat → List Byte
  | 0, _ => []
  | n + 1, v => BitVec.ofNat 8 v :: leBytes n (v / 256)

/-- `Σ_i d_i·base^i` (rule R71): packing one index per texel, texel 0 lowest. -/
def packDigits (base : Nat) : List Nat → Nat
  | [] => 0
  | d :: ds => d + base * packDigits base ds

/-- All the values of a list of options, or none if one is missing. -/
def allSome {α : Type} : List (Option α) → Option (List α)
  | [] => some []
  | none :: _ => none
  | some x :: xs =>
    match allSome xs with
    | some ys => some (x :: ys)
    | none => none

/-! ### The buffers (rules R22, R23, R27) -/

/-- The byte at an offset, or no value (rule R27). -/
def Memory.read : Memory → Nat → Option Byte
  | [], _ => none
  | c :: cs, a => if c.1 = a then some c.2 else Memory.read cs a

/-- Write one byte, keeping the offsets strictly rising. -/
def Memory.write : Memory → Nat → Byte → Memory
  | [], a, b => [(a, b)]
  | c :: cs, a, b =>
    if a < c.1 then (a, b) :: c :: cs
    else if a = c.1 then (a, b) :: cs
    else c :: Memory.write cs a b

/-- Write bytes at rising offsets. -/
def Memory.writeBytes : Memory → Nat → List Byte → Memory
  | m, _, [] => m
  | m, a, b :: bs => Memory.writeBytes (m.write a b) (a + 1) bs

/-- Read `n` bytes at rising offsets; none if one of them has no value. -/
def Memory.readBytes (m : Memory) (a n : Nat) : Option (List Byte) :=
  allSome ((List.range n).map fun j => m.read (a + j))

/-- Read a little-endian 32-bit word (rule R45). -/
def Memory.readWord (m : Memory) (a : Nat) : Option Word :=
  match m.readBytes a 4 with
  | some bs => some (BitVec.ofNat 32 (leNat bs))
  | none => none

/-- Write a little-endian 32-bit word (rule R45). -/
def Memory.writeWord (m : Memory) (a : Nat) (v : Word) : Memory :=
  m.writeBytes a (leBytes 4 v.toNat)

/-- Is this offset a byte of `PIX` or `BLK` (rule R51)? -/
def inBuffers (a : Nat) : Bool :=
  decide (0x40 ≤ a) && decide (a < 0x90)

/-- The canonical form: strictly rising offsets. (No entry can equal what an unlisted offset reads as, which is no value.) -/
def Memory.rising : Memory → Bool
  | [] => true
  | [_] => true
  | c :: d :: cs => decide (c.1 < d.1) && Memory.rising (d :: cs)

/-- The form of a memory: canonical, and only the buffers' bytes are listed (rules R15, R51). -/
def Memory.wf (m : Memory) : Bool :=
  m.rising && m.all fun c => inBuffers c.1

/-- Offset of `PIX[0]` (rule R15). -/
def pixBase : Nat := 0x40

/-- Offset of `BLK[0]` (rule R15). -/
def blkBase : Nat := 0x80

/-! ### The life of a command (rules R16, R135, R170, R190) -/

/-- Accept a command word (rule R16): `CMD` and `LCMD` take it, `STATUS` becomes busy, all in one step. Also what "return from
an error" is on this core: the next acceptance clears `DONE`, `ERR` and `WERR`, and there is no other return (rule R174). -/
def accept (v : Word) (s : State) : State :=
  { s with cmd := v, lcmd := some v, status := Status.accepted }

/-- `raise E(info)` (rules R11, R170, R173), the core's only exception: the command completes with code `E`, and nothing but
`BUSY`, `DONE` and `ERR` changes. Nothing is saved and no vector is taken: there is no pc, mode or stack. -/
def raise (e : ErrCode) (s : State) : State :=
  { s with status := s.status.completed e }

/-- Successful completion of an encode (rules R52, R135, R136): the block's bytes at `BLK[0]`, the error in `ERRMETRIC` (it
fits, rule R25; DEDUCED, log entry 11), `STATUS` done with code 0, in one step. -/
def completeEncode (bytes : List Byte) (err : Nat) (s : State) : State :=
  { s with
    mem := s.mem.writeBytes blkBase bytes
    errMetric := BitVec.ofNat 32 err
    status := s.status.completed .none }

/-- Successful completion of a decode (rules R52, R135, R136): the bytes of the texels at `PIX[0]`, `STATUS` done with code 0, in
one step; `ERRMETRIC` is unchanged (rule R25). -/
def completeDecode (bytes : List Byte) (s : State) : State :=
  { s with
    mem := s.mem.writeBytes pixBase bytes
    status := s.status.completed .none }

/-- The reset event (rules R190 to R192): every piece of the core's state takes its reset value; the host agent and the
scheduler are not the core's (DESIGN CHOICE, log entry 3). -/
def resetCore (s : State) : State :=
  { State.reset with pending := s.pending, observed := s.observed, sched := s.sched, draws := s.draws }

end Sys2Proof.Machine
end

