-- ==== Sys2Proof/Machine/Operands.lean ====
section
/-! DEFINITION. The operands of the commands: texels and their channels, the texel mask, block bytes, index fields; and how a
command reads the buffers (rules R12, R22 to R24, R27, R71, R136). -/

namespace Sys2Proof.Machine

/-- The four bytes of a pixel word, lowest offset first: R, G, B, A (rules R22, R46). -/
def texelBytes (t : Texel) : List Byte :=
  [t.r, t.g, t.b, t.a]

/-- The pixel word `R + 256·G + 65536·B + 16777216·A` (rules R22, R46). -/
def texelWord (t : Texel) : Word :=
  BitVec.ofNat 32 (t.r.toNat + 256 * t.g.toNat + 65536 * t.b.toNat + 16777216 * t.a.toNat)

/-- The texel a pixel word holds (rule R22). -/
def texelOfWord (w : Word) : Texel :=
  { r := w.extractLsb' 0 8, g := w.extractLsb' 8 8, b := w.extractLsb' 16 8, a := w.extractLsb' 24 8 }

/-- A texel from four numbers, each cut to a byte. -/
def texelOfNats (r g b a : Nat) : Texel :=
  { r := BitVec.ofNat 8 r, g := BitVec.ofNat 8 g, b := BitVec.ofNat 8 b, a := BitVec.ofNat 8 a }

/-- The R, G and B of a texel as the integers the encoder works on (rule R81). -/
def texelRgb (t : Texel) : Vec3 Nat :=
  { r := t.r.toNat, g := t.g.toNat, b := t.b.toNat }

/-- Bit `i` of `TEXEL_MASK`: is texel `i` included (rule R24)? -/
def maskBit (mask : BitVec 16) (i : Nat) : Bool :=
  mask.getLsbD i

/-- `PIX[i]`, if all four of its bytes have a value (rules R22, R27). -/
def readTexel (m : Memory) (i : Nat) : Option Texel :=
  match m.read (pixBase + 4 * i), m.read (pixBase + 4 * i + 1), m.read (pixBase + 4 * i + 2),
    m.read (pixBase + 4 * i + 3) with
  | some r, some g, some b, some a => some { r := r, g := g, b := b, a := a }
  | _, _, _, _ => none

/-- `PIX[0..15]`, what every encode reads (rule R136). -/
def readPix (m : Memory) : Option (List Texel) :=
  allSome ((List.range 16).map (readTexel m))

/-- `BLK[0..n-1]`, what a decode of block size `n` reads (rule R136). -/
def readBlk (m : Memory) (n : Nat) : Option (List Byte) :=
  m.readBytes blkBase n

/-- An encode's operands: the sixteen texels; a byte with no value is the fault `UNINIT` (rules R27, R136, R179). -/
def withPix (s : State) (k : List Texel → Host.Outcome State Fault Refusal) : Host.Outcome State Fault Refusal :=
  match readPix s.mem with
  | some tx => k tx
  | none => .fault .uninit

/-- A decode's operands: the first `n` block bytes; a byte with no value is the fault `UNINIT` (rules R27, R136, R179). -/
def withBlk (n : Nat) (s : State) (k : List Byte → Host.Outcome State Fault Refusal) : Host.Outcome State Fault Refusal :=
  match readBlk s.mem n with
  | some bs => k bs
  | none => .fault .uninit

/-- The 2-bit index of texel `i` in the index word `I` of a color sub-block: `I[2i+1:2i]` (rules R67, R71). -/
def colorIndex (w i : Nat) : Nat :=
  bitField w (2 * i) 2

/-- The 3-bit index of texel `i` in the index field `J` of a channel sub-block: `J[3i+2:3i]` (rules R69, R71). -/
def channelIndex (w i : Nat) : Nat :=
  bitField w (3 * i) 3

/-- The 4-bit alpha of texel `i` in the field `Q` of an explicit alpha sub-block: `Q[4i+3:4i]` (rules R68, R71). -/
def alphaNibble (w i : Nat) : Nat :=
  bitField w (4 * i) 4

/-- A color sub-block's eight bytes: `c0`, `c1` and the indices (rules R67, R71). -/
def colorBytes (c0 c1 : Nat) (idx : List Nat) : List Byte :=
  leBytes 2 c0 ++ leBytes 2 c1 ++ leBytes 4 (packDigits 4 idx)

/-- A channel sub-block's eight bytes: `e0`, `e1` and the indices (rules R69, R71). -/
def channelBytes (e0 e1 : Nat) (idx : List Nat) : List Byte :=
  leBytes 1 e0 ++ leBytes 1 e1 ++ leBytes 6 (packDigits 8 idx)

/-- An explicit alpha sub-block's eight bytes (rules R68, R71). -/
def alphaBytes (a4 : List Nat) : List Byte :=
  leBytes 8 (packDigits 16 a4)

end Sys2Proof.Machine
end

