-- ==== Sys2Proof/Machine/Bus.lean ====
section
/-! DEFINITION. The register window as the host sees it: the address map, reads and writes, bus errors, the busy rule (rules R15
to R25, R40 to R54, R178 to R180), and the lines of a host program as accesses (rule R75). -/

namespace Sys2Proof.Machine

/-- The registers of the window (rules R15, R51). -/
inductive Slot where
  | cmd
  | status
  | mask
  | errMetric
  | pix (i : Nat)
  | blkw (w : Nat)
deriving DecidableEq, Repr

/-- The address map (rules R15, R51): the register at an offset, none where the window is unmapped or the offset is no multiple
of 4. -/
def slotAt (a : Nat) : Option Slot :=
  if a % 4 ≠ 0 then none
  else if a = 0x00 then some .cmd
  else if a = 0x04 then some .status
  else if a = 0x08 then some .mask
  else if a = 0x0C then some .errMetric
  else if 0x40 ≤ a ∧ a < 0x80 then some (.pix ((a - 0x40) / 4))
  else if 0x80 ≤ a ∧ a < 0x90 then some (.blkw ((a - 0x80) / 4))
  else none

/-- The register an access of `n` bytes reaches; only `n = 4` reaches one (rules R43, R44). -/
def slotFor (a n : Nat) : Option Slot :=
  if n = 4 then slotAt a else none

/-- The word a host reads of `MASK`: bits 31:16 read 0 (rule R24). -/
def maskWord (s : State) : Word :=
  s.texelMask.setWidth 32

/-- A read while `BUSY = 1` of a register whose value is then unspecified: a free value, fresh for each read (rule R50). -/
def drawRead (s : State) : Except Fault (Word × State) :=
  .ok (Config.busyRead s.draws, { s with draws := s.draws + 1 })

/-- A read of a buffer word: unspecified while busy (rule R50; DESIGN CHOICE, log entry 5), else its four bytes, or `UNINIT` (rule
R27). -/
def bufferRead (a : Nat) (s : State) : Except Fault (Word × State) :=
  if s.status.busy then drawRead s
  else
    match s.mem.readWord a with
    | some v => .ok (v, s)
    | none => .error .uninit

/-- A read of one register (rules R16, R17, R22 to R25, R41, R49, R50). -/
def slotRead (sl : Slot) (a : Nat) (s : State) : Except Fault (Word × State) :=
  match sl with
  | .cmd => .ok (s.cmd, s)
  | .status => .ok (s.status.word, s)
  | .mask => .ok (maskWord s, s)
  | .errMetric => if s.status.busy then drawRead s else .ok (s.errMetric, s)
  | .pix _ => bufferRead a s
  | .blkw _ => bufferRead a s

/-- `MemRead(addr, n)` (rules R41, R43, R44): the value and the state after, which differs only in the count of free values
drawn. -/
def memRead (a n : Nat) (s : State) : Except Fault (Word × State) :=
  match slotFor a n with
  | some sl => slotRead sl a s
  | none => .error (.busError a n)

/-- A write to a register that is dropped while `BUSY = 1` (rules R21, R180, R195). -/
def unlessBusy (s : State) (k : State → State) : State :=
  if s.status.busy then { s with status := s.status.writeDropped } else k s

/-- A write of one register (rules R16, R17, R21 to R25, R42, R49). -/
def slotWrite (sl : Slot) (a : Nat) (v : Word) (s : State) : State :=
  match sl with
  | .cmd => unlessBusy s (accept v)
  | .status => s
  | .mask => unlessBusy s fun s => { s with texelMask := v.setWidth 16 }
  | .errMetric => s
  | .pix _ => unlessBusy s fun s => { s with mem := s.mem.writeWord a v }
  | .blkw _ => unlessBusy s fun s => { s with mem := s.mem.writeWord a v }

/-- `MemWrite(addr, n, v)` (rules R42 to R44). -/
def memWrite (a n : Nat) (v : Word) (s : State) : Except Fault State :=
  match slotFor a n with
  | some sl => .ok (slotWrite sl a v s)
  | none => .error (.busError a n)

/-- The window offset of a host address, for a window that sits at `P_WINDOW_BASE` (rules R51, R182); none outside it. -/
def windowOffset (base addr : Nat) : Option Nat :=
  if base ≤ addr ∧ addr < base + 256 then some (addr - base) else none

/-- A host read of core instance `core` at an address of the host's own space: none where that instance's window does not answer
(rules R51, R182, R183). The place of each window is open: DESIGN CHOICE of the form, log entry 9. -/
def windowRead (core addr n : Nat) (s : State) : Option (Except Fault (Word × State)) :=
  (windowOffset (Config.windowBase core) addr).map fun off => memRead off n s

/-- A host write to core instance `core` at an address of the host's own space: none where that instance's window does not answer
(rules R51, R182, R183; log entry 9). -/
def windowWrite (core addr n : Nat) (v : Word) (s : State) : Option (Except Fault State) :=
  (windowOffset (Config.windowBase core) addr).map fun off => memWrite off n v s

/-! ### Host programs (rule R75) -/

/-- A four-byte little-endian word of a block. -/
def blkWord (bytes : Vector Byte 16) (w : Nat) : Word :=
  BitVec.ofNat 32 (leNat ((bytes.toList.drop (4 * w)).take 4))

/-- The accesses one line of a host program stands for (rule R75; the line `cmd 0x<hex>` is the model's: DESIGN CHOICE, log entry
15). -/
def HostLine.ops : HostLine → List HostOp
  | .w off v => [.write off 4 v]
  | .r off name => [.read off 4 name]
  | .poll => [.poll]
  | .cmd i => [.write 0x00 4 (encode i)]
  | .cmdWord v => [.write 0x00 4 v]
  | .pix i t => [.write (0x40 + 4 * i) 4 (texelWord t)]
  | .blk bytes => (List.range 4).map fun w => .write (0x80 + 4 * w) 4 (blkWord bytes w)
  | .mask m => [.write 0x08 4 m]

/-- A host program as the accesses the host issues, in order (rules R53, R75). -/
def programOps (lines : List HostLine) : List HostOp :=
  lines.flatMap HostLine.ops

end Sys2Proof.Machine
end

