-- ==== Sys2Proof/Machine/ColorSet.lean ====
section
/-! DEFINITION. ColorSet extraction (rules R80 to R88): which texels count, with what weight, and the deduplicated weighted
points. `addPoint` serves the ValueSet of one channel as well (rule R125). -/

namespace Sys2Proof.Machine

/-- One texel as the color encoder sees it: its color, its weight `ω`, and the flags `excl` and `punch` (rules R82, R83). -/
structure Sample where
  rgb : Vec3 Nat
  weight : Nat
  excl : Bool
  punch : Bool
deriving DecidableEq, Repr

/-- A point with its accumulated weight (rule R84). -/
structure Point (α : Type) where
  val : α
  wt : Nat
deriving DecidableEq, Repr

/-- `PIX[i].A < P_ALPHA_THRESHOLD` (rule R82). -/
def belowThreshold (p : Params) (t : Texel) : Bool :=
  decide (t.a.toNat < p.alphaThreshold)

/-- `punch[i]` of rule R82. -/
def punched (p : Params) (fmt : Format) (mask : BitVec 16) (i : Nat) (t : Texel) : Bool :=
  decide (fmt = .bc1) && maskBit mask i && belowThreshold p t

/-- `excl[i]` of rule R82. -/
def excluded (p : Params) (fmt : Format) (wba : Bool) (mask : BitVec 16) (i : Nat) (t : Texel) : Bool :=
  !maskBit mask i || punched p fmt mask i t || (wba && belowThreshold p t)

/-- `ω_i` of rule R83. -/
def texelWeight (wba : Bool) (t : Texel) : Nat :=
  if wba then t.a.toNat + 1 else 1

/-- Texel `i` as a sample (rules R82, R83). -/
def sampleOf (p : Params) (fmt : Format) (wba : Bool) (mask : BitVec 16) (i : Nat) (t : Texel) : Sample :=
  { rgb := texelRgb t
    weight := texelWeight wba t
    excl := excluded p fmt wba mask i t
    punch := punched p fmt mask i t }

/-- The samples of a block, in texel order. -/
def samplesOf (p : Params) (fmt : Format) (wba : Bool) (mask : BitVec 16) (tx : List Texel) : List Sample :=
  tx.mapIdx fun i t => sampleOf p fmt wba mask i t

/-- One step of rule R84's pass: add weight to the point that equals `c`, or append a new point. -/
def addPoint {α : Type} [DecidableEq α] : List (Point α) → α → Nat → List (Point α)
  | [], c, w => [{ val := c, wt := w }]
  | q :: qs, c, w => if q.val = c then { val := q.val, wt := q.wt + w } :: qs else q :: addPoint qs c w

/-- `pts` and `wt` of rule R84: one pass over the texels that are not excluded, in texel order. -/
def colorPoints (sm : List Sample) : List (Point (Vec3 Nat)) :=
  sm.foldl (fun ps t => if t.excl then ps else addPoint ps t.rgb t.weight) []

/-- `W` of rule R85. -/
def totalWeight {α : Type} (ps : List (Point α)) : Nat :=
  (ps.map (·.wt)).sum

/-- `three` of rule R87: some texel is punch-through (which only BC1 has, rule R82). -/
def threeColor (sm : List Sample) : Bool :=
  sm.any (·.punch)

end Sys2Proof.Machine
end

