-- ==== Sys2Proof/Machine/Axis.lean ====
section
/-! DEFINITION. The principal-axis estimator (rules R90 to R97), in exact integers. -/

namespace Sys2Proof.Machine

/-- A 3×3 matrix by its columns (the covariance matrix is symmetric, so by its rows as well). -/
abbrev Mat3 := Vec3 (Vec3 Int)

/-- `x·y` (rule R10). -/
def dot (x y : Vec3 Int) : Int :=
  x.r * y.r + x.g * y.g + x.b * y.b

/-- A color as an integer vector. -/
def toInts (c : Vec3 Nat) : Vec3 Int :=
  { r := (c.r : Int), g := (c.g : Int), b := (c.b : Int) }

/-- The matrix-vector product. -/
def matVec (m : Mat3) (v : Vec3 Int) : Vec3 Int :=
  { r := m.r.r * v.r + m.g.r * v.g + m.b.r * v.b
    g := m.r.g * v.r + m.g.g * v.g + m.b.g * v.b
    b := m.r.b * v.r + m.g.b * v.g + m.b.b * v.b }

/-- `m_c` of rule R92. -/
def weightedSum (ps : List (Point (Vec3 Nat))) (f : Vec3 Nat → Nat) : Nat :=
  (ps.map fun p => p.wt * f p.val).sum

/-- `C_cd` of rule R92, for the channels `f` and `g`. -/
def covEntry (ps : List (Point (Vec3 Nat))) (f g : Vec3 Nat → Nat) : Int :=
  (totalWeight ps : Int) * (weightedSum ps fun c => f c * g c : Nat)
    - (weightedSum ps f : Int) * (weightedSum ps g : Int)

/-- Column `g` of the covariance matrix. -/
def covColumn (ps : List (Point (Vec3 Nat))) (g : Vec3 Nat → Nat) : Vec3 Int :=
  { r := covEntry ps (·.r) g, g := covEntry ps (·.g) g, b := covEntry ps (·.b) g }

/-- `C` of rule R92. -/
def covariance (ps : List (Point (Vec3 Nat))) : Mat3 :=
  { r := covColumn ps (·.r), g := covColumn ps (·.g), b := covColumn ps (·.b) }

/-- The start vector `v_0`: the column of the largest diagonal entry, the lowest channel among equals (rules R93, R94). -/
def startVector (c : Mat3) : Vec3 Int :=
  if c.g.g ≤ c.r.r ∧ c.b.b ≤ c.r.r then c.r
  else if c.b.b ≤ c.g.g then c.g
  else c.b

/-- `k` steps of the power iteration, with no normalisation (rule R95). -/
def powerIterate (c : Mat3) : Nat → Vec3 Int → Vec3 Int
  | 0, v => v
  | k + 1, v => powerIterate c k (matVec c v)

/-- The axis `v` of a ColorSet: the diagonal for at most one point, else the power iteration (rules R91, R95). -/
def principalAxis (p : Params) (ps : List (Point (Vec3 Nat))) : Vec3 Int :=
  if ps.length ≤ 1 then { r := 1, g := 1, b := 1 }
  else powerIterate (covariance ps) p.powerIterations (startVector (covariance ps))

end Sys2Proof.Machine
end

