-- ==== Sys2Proof/Machine/Palette.lean ====
section
/-! DEFINITION. The quantizer and expander, the palettes, nearest-index assignment and the error (rules R113 to R118, R122): the
part the encoder and the decoder share. -/

namespace Sys2Proof.Machine

/-! ### Quantizer and expander (rules R9, R113 to R115) -/

/-- `round(q) = floor(q + 1/2)`, ties upward (rule R9). -/
def roundHalfUp (q : Rat) : Int :=
  (q + 1 / 2).floor

/-- `clamp(v, 0, hi)` of an integer (rule R9), as the natural number it then is. -/
def clampNat (v : Int) (hi : Nat) : Nat :=
  if v < 0 then 0 else if (hi : Int) < v then hi else v.toNat

/-- `clamp(t, 0, 255)` of a rational (rules R102, R107). -/
def clampChannel (t : Rat) : Rat :=
  if t < 0 then 0 else if 255 < t then 255 else t

/-- `Q5` (rule R113). -/
def quant5 (t : Rat) : Nat :=
  clampNat (roundHalfUp (t * 31 / 255)) 31

/-- `Q6` (rule R113). -/
def quant6 (t : Rat) : Nat :=
  clampNat (roundHalfUp (t * 63 / 255)) 63

/-- `Q8` (rule R114). -/
def quant8 (t : Rat) : Nat :=
  clampNat (roundHalfUp t) 255

/-- `Q565` (rules R66, R113). -/
def quant565 (a : Vec3 Rat) : Nat :=
  quant5 a.r * 2048 + quant6 a.g * 32 + quant5 a.b

/-- `E5` (rule R115). -/
def expand5 (q : Nat) : Nat :=
  q * 8 + q / 4

/-- `E6` (rule R115). -/
def expand6 (q : Nat) : Nat :=
  q * 4 + q / 16

/-- `expand565` (rules R66, R115). -/
def expand565 (c : Nat) : Vec3 Nat :=
  { r := expand5 (bitField c 11 5), g := expand6 (bitField c 5 6), b := expand5 (bitField c 0 5) }

/-! ### Palettes (rules R116, R117) -/

/-- One entry of a color palette: its color and the decoded alpha (rule R116). -/
structure Entry where
  rgb : Vec3 Nat
  alpha : Nat
deriving DecidableEq, Repr

/-- The entry `(p0·wa + p1·wb) div d` per channel, opaque. -/
def blend (wa wb d : Nat) (p0 p1 : Vec3 Nat) : Entry :=
  { rgb :=
      { r := (wa * p0.r + wb * p1.r) / d
        g := (wa * p0.g + wb * p1.g) / d
        b := (wa * p0.b + wb * p1.b) / d }
    alpha := 255 }

/-- Transparent black (rule R116). -/
def transparentBlack : Entry :=
  { rgb := { r := 0, g := 0, b := 0 }, alpha := 0 }

/-- Does a color sub-block of this format with these endpoints use four-color mode (rule R116)? -/
def fourColorMode (fmt : Format) (c0 c1 : Nat) : Bool :=
  decide (fmt ≠ .bc1) || decide (c1 < c0)

/-- The four entries of a color palette in the given mode (rule R116). -/
def colorPalette (four : Bool) (c0 c1 : Nat) : List Entry :=
  if four then
    [{ rgb := expand565 c0, alpha := 255 }, { rgb := expand565 c1, alpha := 255 },
     blend 2 1 3 (expand565 c0) (expand565 c1), blend 1 2 3 (expand565 c0) (expand565 c1)]
  else
    [{ rgb := expand565 c0, alpha := 255 }, { rgb := expand565 c1, alpha := 255 },
     blend 1 1 2 (expand565 c0) (expand565 c1), transparentBlack]

/-- Entry `k` of a color palette. -/
def colorAt (P : List Entry) (k : Nat) : Entry :=
  P.getD k transparentBlack

/-- The eight entries of a channel palette: eight-value mode when `e0 > e1`, else six-value mode (rule R117). -/
def channelPalette (e0 e1 : Nat) : List Nat :=
  if e1 < e0 then
    [e0, e1, (6 * e0 + 1 * e1) / 7, (5 * e0 + 2 * e1) / 7, (4 * e0 + 3 * e1) / 7, (3 * e0 + 4 * e1) / 7,
     (2 * e0 + 5 * e1) / 7, (1 * e0 + 6 * e1) / 7]
  else
    [e0, e1, (4 * e0 + 1 * e1) / 5, (3 * e0 + 2 * e1) / 5, (2 * e0 + 3 * e1) / 5, (1 * e0 + 4 * e1) / 5, 0, 255]

/-- Entry `k` of a channel palette. -/
def channelAt (V : List Nat) (k : Nat) : Nat :=
  V.getD k 0

/-! ### Nearest entry (rules R10, R118) -/

/-- `(x - y)^2` of two integers that are not negative. -/
def sqDiff (x y : Nat) : Nat :=
  ((x - y) + (y - x)) * ((x - y) + (y - x))

/-- `|x - y|^2` over r, g and b (rule R10). -/
def sqDist (x y : Vec3 Nat) : Nat :=
  sqDiff x.r y.r + sqDiff x.g y.g + sqDiff x.b y.b

/-- The first of `best :: l` with the least key: the one choice rule of the core (rules R101, R109, R118, R131). -/
def firstMin {α β : Type} [LT β] [DecidableLT β] (key : α → β) (best : α) : List α → α
  | [] => best
  | x :: xs => firstMin key (if key x < key best then x else best) xs

/-- `nearest(x, S)` for `S = {0, …, n-1}`, `n ≥ 1` (rule R118). -/
def nearestIndex (dist : Nat → Nat) (n : Nat) : Nat :=
  firstMin dist 0 (List.range' 1 (n - 1))

end Sys2Proof.Machine
end

