-- ==== Sys2Proof/Machine/Fit.lean ====
section
/-! DEFINITION. The endpoint fitters for color (rules R100 to R112) and the evaluator they call (rules R119, R120). The
partitions and the least squares serve the single channel as well (rule R128). -/

namespace Sys2Proof.Machine

/-- A candidate `(a, b)` (rule R100). -/
structure Candidate where
  a : Vec3 Rat
  b : Vec3 Rat
deriving DecidableEq, Repr

/-- The result of an evaluation: `(E, c0, c1, idx)` (rule R120). -/
structure ColorBlock where
  err : Nat
  c0 : Nat
  c1 : Nat
  idx : List Nat
deriving DecidableEq, Repr

/-- A candidate with its evaluation. -/
structure Scored where
  cand : Candidate
  block : ColorBlock
deriving DecidableEq, Repr

/-- One point inside a partition: its cluster, weight and value in one channel (rule R106). -/
structure Member where
  k : Nat
  wt : Nat
  x : Nat
deriving DecidableEq, Repr

/-! ### The evaluator (rules R119, R120) -/

/-- `(c0, c1)` of rule R119. -/
def storageOrder (three : Bool) (qa qb : Nat) : Nat × Nat :=
  if three then (min qa qb, max qa qb) else (max qa qb, min qa qb)

/-- The index of one texel (rule R120). -/
def sampleIndex (P : List Entry) (four : Bool) (t : Sample) : Nat :=
  if t.punch then 3 else nearestIndex (fun k => sqDist t.rgb (colorAt P k).rgb) (if four then 4 else 3)

/-- The error one texel adds when it is stored with index `k` (rules R118, R120). -/
def sampleError (P : List Entry) (t : Sample) (k : Nat) : Nat :=
  if t.excl then 0 else t.weight * sqDist t.rgb (colorAt P k).rgb

/-- The block that the endpoints `c0`, `c1` give: the indices and the error (rule R120). -/
def colorBlockOf (fmt : Format) (sm : List Sample) (c0 c1 : Nat) : ColorBlock :=
  let four := fourColorMode fmt c0 c1
  let P := colorPalette four c0 c1
  { err := (sm.map fun t => sampleError P t (sampleIndex P four t)).sum
    c0 := c0
    c1 := c1
    idx := sm.map (sampleIndex P four) }

/-- `E(a, b)` and the block it stands for (rule R120). -/
def evaluate (fmt : Format) (sm : List Sample) (c : Candidate) : Scored :=
  let o := storageOrder (threeColor sm) (quant565 c.a) (quant565 c.b)
  { cand := c, block := colorBlockOf fmt sm o.1 o.2 }

/-! ### RangeFit (rules R101, R102) -/

/-- A color as a candidate endpoint. -/
def toRats (c : Vec3 Nat) : Vec3 Rat :=
  { r := (c.r : Rat), g := (c.g : Rat), b := (c.b : Rat) }

/-- The clamp of rules R102 and R107. -/
def clampColor (c : Vec3 Rat) : Vec3 Rat :=
  { r := clampChannel c.r, g := clampChannel c.g, b := clampChannel c.b }

/-- The range candidate: the first point of least and the first of greatest projection, clamped; black twice for an empty set
(rules R86, R101, R102). -/
def rangeCandidate (v : Vec3 Int) (ps : List (Point (Vec3 Nat))) : Candidate :=
  match ps with
  | [] => { a := { r := 0, g := 0, b := 0 }, b := { r := 0, g := 0, b := 0 } }
  | q :: qs =>
    { a := clampColor (toRats (firstMin (fun p => dot (toInts p.val) v) q qs).val)
      b := clampColor (toRats (firstMin (fun p => -dot (toInts p.val) v) q qs).val) }

/-! ### ClusterFit (rules R103 to R109) -/

/-- Point `j` of the set. -/
def pointAt (ps : List (Point (Vec3 Nat))) (j : Nat) : Point (Vec3 Nat) :=
  ps.getD j { val := { r := 0, g := 0, b := 0 }, wt := 0 }

/-- The projection of point `j` on `u`. -/
def projection (ps : List (Point (Vec3 Nat))) (u : Vec3 Int) (j : Nat) : Int :=
  dot (toInts (pointAt ps j).val) u

/-- `σ(u)`: the point numbers ordered by `(pts[j]·u, j)` (rule R103). -/
def clusterOrder (ps : List (Point (Vec3 Nat))) (u : Vec3 Int) : List Nat :=
  (List.range ps.length).insertionSort fun i j =>
    projection ps u i < projection ps u j ∨ (projection ps u i = projection ps u j ∧ i ≤ j)

/-- All tuples of `m` cuts that rise (not strictly) from at least `lo` to at most `n`, in lexicographic order. -/
def cutTuples : Nat → Nat → Nat → List (List Nat)
  | 0, _, _ => [[]]
  | m + 1, lo, n => (List.range' lo (n + 1 - lo)).flatMap fun b => (cutTuples m b n).map (b :: ·)

/-- The partitions of `n` sorted points into `K` contiguous clusters, `β_1 ≤ … ≤ β_(K-1)`, in the order of rule R105. -/
def partitions (n K : Nat) : List (List Nat) :=
  cutTuples (K - 1) 0 n

/-- The cluster that holds the sorted position `p`: as many as there are cuts at or below `p` (rule R105). -/
def clusterOf (β : List Nat) (p : Nat) : Nat :=
  (β.filter (· ≤ p)).length

/-- `SAA` of rule R106, with `A_k = D - k`. -/
def sumAA (D : Nat) (ms : List Member) : Int :=
  (ms.map fun m => (m.wt : Int) * ((D : Int) - m.k) * ((D : Int) - m.k)).sum

/-- `SAB` of rule R106, with `B_k = k`. -/
def sumAB (D : Nat) (ms : List Member) : Int :=
  (ms.map fun m => (m.wt : Int) * ((D : Int) - m.k) * m.k).sum

/-- `SBB` of rule R106. -/
def sumBB (ms : List Member) : Int :=
  (ms.map fun m => (m.wt : Int) * m.k * m.k).sum

/-- `SAx` of rule R106, for one channel. -/
def sumAx (D : Nat) (ms : List Member) : Int :=
  (ms.map fun m => (m.wt : Int) * ((D : Int) - m.k) * m.x).sum

/-- `SBx` of rule R106, for one channel. -/
def sumBx (ms : List Member) : Int :=
  (ms.map fun m => (m.wt : Int) * m.k * m.x).sum

/-- `det` of rule R106. -/
def lsDet (D : Nat) (ms : List Member) : Int :=
  sumAA D ms * sumBB ms - sumAB D ms * sumAB D ms

/-- `a_c` of rule R106, before its clamp. -/
def lsStart (D : Nat) (ms : List Member) : Rat :=
  (((D : Int) * (sumBB ms * sumAx D ms - sumAB D ms * sumBx ms) : Int) : Rat) / (lsDet D ms : Rat)

/-- `b_c` of rule R106, before its clamp. -/
def lsEnd (D : Nat) (ms : List Member) : Rat :=
  (((D : Int) * (sumAA D ms * sumBx ms - sumAB D ms * sumAx D ms) : Int) : Rat) / (lsDet D ms : Rat)

/-- The points of a set in a given order, as members of the clusters of `β`, by one channel. -/
def membersOf {α : Type} (β : List Nat) (f : α → Nat) (sorted : List (Point α)) : List Member :=
  sorted.mapIdx fun pos p => { k := clusterOf β pos, wt := p.wt, x := f p.val }

/-- The candidate of one partition, none when `det = 0` (rules R106, R107). -/
def lsCandidate (D : Nat) (sorted : List (Point (Vec3 Nat))) (β : List Nat) : Option Candidate :=
  let mr := membersOf β (·.r) sorted
  let mg := membersOf β (·.g) sorted
  let mb := membersOf β (·.b) sorted
  if lsDet D mr = 0 then none
  else
    some
      { a := clampColor { r := lsStart D mr, g := lsStart D mg, b := lsStart D mb }
        b := clampColor { r := lsEnd D mr, g := lsEnd D mg, b := lsEnd D mb } }

/-- The number of clusters `K` (rule R104). -/
def clusterCount (sm : List Sample) : Nat :=
  if threeColor sm then 3 else 4

/-- The candidates of one pass over the order `ord`, in the order of rule R105. -/
def passCandidates (K : Nat) (ps : List (Point (Vec3 Nat))) (ord : List Nat) : List Candidate :=
  (partitions ps.length K).filterMap (lsCandidate (K - 1) (ord.map (pointAt ps)))

/-- The inner loop of rule R108: one pass, from the best candidate so far. -/
def clusterPass (fmt : Format) (sm : List Sample) (ps : List (Point (Vec3 Nat))) (ord : List Nat) (best : Scored) : Scored :=
  firstMin (fun sc => sc.block.err) best ((passCandidates (clusterCount sm) ps ord).map (evaluate fmt sm))

/-- The re-sorting axis `u` of rule R108. -/
def resortAxis (best : Scored) : Vec3 Int :=
  let e := toInts (expand565 (quant565 best.cand.b))
  let st := toInts (expand565 (quant565 best.cand.a))
  { r := e.r - st.r, g := e.g - st.g, b := e.b - st.b }

/-- The passes of rule R108: `left` passes are still allowed, `pass` is the number of the next one. -/
def clusterPasses (fmt : Format) (sm : List Sample) (ps : List (Point (Vec3 Nat))) :
    Nat → Nat → List Nat → Scored → Scored
  | 0, _, _, best => best
  | left + 1, pass, ord, best =>
    let best' := clusterPass fmt sm ps ord best
    if left = 0 then best'
    else if 2 ≤ pass ∧ ¬ best'.block.err < best.block.err then best'
    else if resortAxis best' = { r := 0, g := 0, b := 0 } then best'
    else if clusterOrder ps (resortAxis best') = ord then best'
    else clusterPasses fmt sm ps left (pass + 1) (clusterOrder ps (resortAxis best')) best'

/-- `Fit(FIT)` of rules R109, R137: the chosen candidate and its block. -/
def fitColor (p : Params) (fmt : Format) (fit : Fit) (sm : List Sample) : Scored :=
  let ps := colorPoints sm
  let v := principalAxis p ps
  let start := evaluate fmt sm (rangeCandidate v ps)
  match fit with
  | .range => start
  | .cluster => clusterPasses fmt sm ps p.clusterPasses 1 (clusterOrder ps v) start

/-- The color sub-block encoder (rules R137 to R139): ColorSet, axis, fit, evaluation. -/
def encodeColor (p : Params) (fmt : Format) (fit : Fit) (wba : Bool) (mask : BitVec 16) (tx : List Texel) : ColorBlock :=
  (fitColor p fmt fit (samplesOf p fmt wba mask tx)).block

end Sys2Proof.Machine
end

