-- ==== Sys2Proof/Machine/Channel.lean ====
section
/-! DEFINITION. The single-channel encoder of BC3 alpha, BC4 and BC5 (rules R123 to R131, R133, R134) and the explicit alpha of
BC2 (rule R132). -/

namespace Sys2Proof.Machine

/-- The two interpretations of a channel sub-block (rules R117, R126). -/
inductive ChannelMode where
  | eight
  | six
deriving DecidableEq, Repr

/-- One texel as the channel encoder sees it (rules R123, R124). -/
structure ChannelSample where
  x : Nat
  excl : Bool
deriving DecidableEq, Repr

/-- The result of a channel evaluation: `(E, e0, e1, idx)` (rule R130). -/
structure ChannelBlock where
  err : Nat
  e0 : Nat
  e1 : Nat
  idx : List Nat
deriving DecidableEq, Repr

/-- The samples of one channel: inclusion by the mask alone (rules R123, R124). -/
def channelSamples (ch : Texel → Byte) (mask : BitVec 16) (tx : List Texel) : List ChannelSample :=
  tx.mapIdx fun i t => { x := (ch t).toNat, excl := !maskBit mask i }

/-- The ValueSet: distinct included values in order of first appearance, with their counts (rule R125). -/
def valueSet (sm : List ChannelSample) : List (Point Nat) :=
  sm.foldl (fun ps t => if t.excl then ps else addPoint ps t.x 1) []

/-- `K` of rule R126. -/
def ChannelMode.clusters : ChannelMode → Nat
  | .eight => 8
  | .six => 6

/-- The mode's fitted values: all, or all but 0 and 255 (rule R126). -/
def fittedValues (mode : ChannelMode) (vs : List (Point Nat)) : List (Point Nat) :=
  match mode with
  | .eight => vs
  | .six => vs.filter fun q => decide (q.val ≠ 0 ∧ q.val ≠ 255)

/-- RangeFit of a mode: the least and greatest fitted value, or 0 and 0 (rule R127). -/
def channelRange (fv : List (Point Nat)) : Rat × Rat :=
  match fv with
  | [] => (0, 0)
  | q :: qs =>
    (((qs.foldl (fun acc p => min acc p.val) q.val : Nat) : Rat),
     ((qs.foldl (fun acc p => max acc p.val) q.val : Nat) : Rat))

/-- The fitted values in ascending order (rule R128). -/
def sortedValues (fv : List (Point Nat)) : List (Point Nat) :=
  fv.insertionSort fun p q => p.val ≤ q.val

/-- The candidate of one partition, none when `det = 0` (rules R106, R107, R128). -/
def channelLs (D : Nat) (sorted : List (Point Nat)) (β : List Nat) : Option (Rat × Rat) :=
  let ms := membersOf β (fun x => x) sorted
  if lsDet D ms = 0 then none else some (clampChannel (lsStart D ms), clampChannel (lsEnd D ms))

/-- The candidates of one mode, in the order of rule R131: range first, then the partitions when `FIT = 1`. -/
def channelCandidates (mode : ChannelMode) (fit : Fit) (fv : List (Point Nat)) : List (Rat × Rat) :=
  channelRange fv ::
    match fit with
    | .range => []
    | .cluster => (partitions fv.length mode.clusters).filterMap (channelLs (mode.clusters - 1) (sortedValues fv))

/-- `(e0, e1)` of rule R129. -/
def channelOrder (mode : ChannelMode) (qa qb : Nat) : Nat × Nat :=
  match mode with
  | .eight => if qa = qb then (qa, qa) else (max qa qb, min qa qb)
  | .six => (min qa qb, max qa qb)

/-- The index of one texel (rule R130). -/
def channelSampleIndex (V : List Nat) (t : ChannelSample) : Nat :=
  nearestIndex (fun k => sqDiff t.x (channelAt V k)) 8

/-- The error one texel adds when it is stored with index `k` (rule R130). -/
def channelSampleError (V : List Nat) (t : ChannelSample) (k : Nat) : Nat :=
  if t.excl then 0 else sqDiff t.x (channelAt V k)

/-- The block that the endpoints `e0`, `e1` give (rule R130). -/
def channelBlockOf (sm : List ChannelSample) (e0 e1 : Nat) : ChannelBlock :=
  let V := channelPalette e0 e1
  { err := (sm.map fun t => channelSampleError V t (channelSampleIndex V t)).sum
    e0 := e0
    e1 := e1
    idx := sm.map (channelSampleIndex V) }

/-- The evaluation of a candidate of a mode (rules R129, R130). -/
def evaluateChannel (mode : ChannelMode) (sm : List ChannelSample) (c : Rat × Rat) : ChannelBlock :=
  let o := channelOrder mode (quant8 c.1) (quant8 c.2)
  channelBlockOf sm o.1 o.2

/-- The evaluated candidates of one mode, in order. -/
def channelBlocks (mode : ChannelMode) (fit : Fit) (sm : List ChannelSample) : List ChannelBlock :=
  (channelCandidates mode fit (fittedValues mode (valueSet sm))).map (evaluateChannel mode sm)

/-- The first candidate of least error, eight-value mode first (rule R131). -/
def fitChannel (fit : Fit) (sm : List ChannelSample) : ChannelBlock :=
  firstMin (fun b => b.err)
    (evaluateChannel .eight sm (channelRange (fittedValues .eight (valueSet sm))))
    (channelBlocks .eight fit sm ++ channelBlocks .six fit sm)

/-- `ChannelEncode(ch, FIT)` (rules R123, R139 to R141): the selection of rule R131 for every channel. For BC3 rule R164 derives
that a fully transparent block decodes to alphas below 128; with `FIT = 1` the choice of rule R131 does not always give that, and
the model follows rule R131: DESIGN CHOICE, log entry 16. -/
def encodeChannel (ch : Texel → Byte) (fit : Fit) (mask : BitVec 16) (tx : List Texel) : ChannelBlock :=
  fitChannel fit (channelSamples ch mask tx)

/-- `a4(i) = PIX[i].A div 16` for every texel (rule R132). -/
def explicitAlpha (tx : List Texel) : List Nat :=
  tx.map fun t => t.a.toNat / 16

end Sys2Proof.Machine
end

