-- ==== Sys2Proof/Machine/Encode.lean ====
section
/-! DEFINITION. The encode commands (rules R137 to R141): one meaning each, over the shared encoders. -/

namespace Sys2Proof.Machine

/-- The bytes of a color sub-block (rule R67). -/
def ColorBlock.bytes (b : ColorBlock) : List Byte :=
  colorBytes b.c0 b.c1 b.idx

/-- The bytes of a channel sub-block (rule R69). -/
def ChannelBlock.bytes (b : ChannelBlock) : List Byte :=
  channelBytes b.e0 b.e1 b.idx

/-- `enc.bc1[.cluster][.wba]` (rule R137). -/
def execEncBc1 (fit : Fit) (wba : Bool) (s : State) : Host.Outcome State Fault Refusal :=
  withPix s fun tx =>
    let e := encodeColor Config.thisHardware .bc1 fit wba s.texelMask tx
    .next (completeEncode e.bytes e.err s)

/-- `enc.bc2[.cluster][.wba]` (rule R138): the explicit alpha, then the color; the error is the color's alone. -/
def execEncBc2 (fit : Fit) (wba : Bool) (s : State) : Host.Outcome State Fault Refusal :=
  withPix s fun tx =>
    let e := encodeColor Config.thisHardware .bc2 fit wba s.texelMask tx
    .next (completeEncode (alphaBytes (explicitAlpha tx) ++ e.bytes) e.err s)

/-- `enc.bc3[.cluster][.wba]` (rule R139): the alpha channel, then the color; the error is the sum. -/
def execEncBc3 (fit : Fit) (wba : Bool) (s : State) : Host.Outcome State Fault Refusal :=
  withPix s fun tx =>
    let al := encodeChannel (·.a) fit s.texelMask tx
    let e := encodeColor Config.thisHardware .bc3 fit wba s.texelMask tx
    .next (completeEncode (al.bytes ++ e.bytes) (al.err + e.err) s)

/-- `enc.bc4[.cluster]` (rule R140). -/
def execEncBc4 (fit : Fit) (s : State) : Host.Outcome State Fault Refusal :=
  withPix s fun tx =>
    let e := encodeChannel (·.r) fit s.texelMask tx
    .next (completeEncode e.bytes e.err s)

/-- `enc.bc5[.cluster]` (rules R133, R141): two independent runs, R then G; the error is the sum. -/
def execEncBc5 (fit : Fit) (s : State) : Host.Outcome State Fault Refusal :=
  withPix s fun tx =>
    let r := encodeChannel (·.r) fit s.texelMask tx
    let g := encodeChannel (·.g) fit s.texelMask tx
    .next (completeEncode (r.bytes ++ g.bytes) (r.err + g.err) s)

end Sys2Proof.Machine
end

