-- ==== Sys2Proof/Machine/Expand.lean ====
section
/-! DEFINITION. The decode commands (rules R142 to R146) and the decoder functions they share (rules R147, R148): the block
deserializer, the palette reconstructor and the index-to-pixel expander. -/

namespace Sys2Proof.Machine

/-- The little-endian number of the bytes `o .. o+n-1` of a block (rules R67 to R69). -/
def blockField (bs : List Byte) (o n : Nat) : Nat :=
  leNat ((bs.drop o).take n)

/-- `DecodeColor(o, four_always)` of rule R147; `four_always` is what a format other than BC1 says (rule R116). -/
def decodeColor (fmt : Format) (o : Nat) (bs : List Byte) : List Entry :=
  let c0 := blockField bs o 2
  let c1 := blockField bs (o + 2) 2
  let w := blockField bs (o + 4) 4
  let P := colorPalette (fourColorMode fmt c0 c1) c0 c1
  (List.range 16).map fun i => colorAt P (colorIndex w i)

/-- `DecodeChannel(o)` of rule R148. -/
def decodeChannel (o : Nat) (bs : List Byte) : List Nat :=
  let V := channelPalette (blockField bs o 1) (blockField bs (o + 1) 1)
  let w := blockField bs (o + 2) 6
  (List.range 16).map fun i => channelAt V (channelIndex w i)

/-- The explicit alpha of BC2, expanded by 17 (rules R132, R143). -/
def decodeAlpha (bs : List Byte) : List Nat :=
  let q := blockField bs 0 8
  (List.range 16).map fun i => 17 * alphaNibble q i

/-- A color entry as a texel with its own alpha (rule R142). -/
def entryTexel (e : Entry) : Texel :=
  texelOfNats e.rgb.r e.rgb.g e.rgb.b e.alpha

/-- A color entry with the alpha of the alpha sub-block (rules R143, R144). -/
def entryWithAlpha (e : Entry) (a : Nat) : Texel :=
  texelOfNats e.rgb.r e.rgb.g e.rgb.b a

/-- The texels of a BC1 block (rule R142). -/
def expandBc1 (bs : List Byte) : List Texel :=
  (decodeColor .bc1 0 bs).map entryTexel

/-- The texels of a BC2 block (rule R143). -/
def expandBc2 (bs : List Byte) : List Texel :=
  List.zipWith entryWithAlpha (decodeColor .bc2 8 bs) (decodeAlpha bs)

/-- The texels of a BC3 block (rule R144). -/
def expandBc3 (bs : List Byte) : List Texel :=
  List.zipWith entryWithAlpha (decodeColor .bc3 8 bs) (decodeChannel 0 bs)

/-- The texels of a BC4 block (rule R145): G and B are 0 and A is 255. -/
def expandBc4 (bs : List Byte) : List Texel :=
  (decodeChannel 0 bs).map fun r => texelOfNats r 0 0 255

/-- The texels of a BC5 block (rule R146): B is 0 and A is 255. -/
def expandBc5 (bs : List Byte) : List Texel :=
  List.zipWith (fun r g => texelOfNats r g 0 255) (decodeChannel 0 bs) (decodeChannel 8 bs)

/-- The bytes of sixteen texels, in the order of `PIX` (rules R22, R46). -/
def pixBytes (tx : List Texel) : List Byte :=
  tx.flatMap texelBytes

/-- `dec.bc1` (rule R142). -/
def execDecBc1 (s : State) : Host.Outcome State Fault Refusal :=
  withBlk 8 s fun bs => .next (completeDecode (pixBytes (expandBc1 bs)) s)

/-- `dec.bc2` (rule R143). -/
def execDecBc2 (s : State) : Host.Outcome State Fault Refusal :=
  withBlk 16 s fun bs => .next (completeDecode (pixBytes (expandBc2 bs)) s)

/-- `dec.bc3` (rule R144). -/
def execDecBc3 (s : State) : Host.Outcome State Fault Refusal :=
  withBlk 16 s fun bs => .next (completeDecode (pixBytes (expandBc3 bs)) s)

/-- `dec.bc4` (rule R145). -/
def execDecBc4 (s : State) : Host.Outcome State Fault Refusal :=
  withBlk 8 s fun bs => .next (completeDecode (pixBytes (expandBc4 bs)) s)

/-- `dec.bc5` (rule R146). -/
def execDecBc5 (s : State) : Host.Outcome State Fault Refusal :=
  withBlk 16 s fun bs => .next (completeDecode (pixBytes (expandBc5 bs)) s)

end Sys2Proof.Machine
end

