-- ==== Sys2Proof/Machine/Dispatch.lean ====
section
/-! DEFINITION. The dispatch from a command to its meaning (rules R135, R137 to R146). -/

namespace Sys2Proof.Machine

def exec (i : Instr) (s : State) : Host.Outcome State Fault Refusal :=
  match i with
  | .encBc1 fit wba => Sys2Proof.Machine.execEncBc1 fit wba s
  | .encBc2 fit wba => Sys2Proof.Machine.execEncBc2 fit wba s
  | .encBc3 fit wba => Sys2Proof.Machine.execEncBc3 fit wba s
  | .encBc4 fit => Sys2Proof.Machine.execEncBc4 fit s
  | .encBc5 fit => Sys2Proof.Machine.execEncBc5 fit s
  | .decBc1 => Sys2Proof.Machine.execDecBc1 s
  | .decBc2 => Sys2Proof.Machine.execDecBc2 s
  | .decBc3 => Sys2Proof.Machine.execDecBc3 s
  | .decBc4 => Sys2Proof.Machine.execDecBc4 s
  | .decBc5 => Sys2Proof.Machine.execDecBc5 s

end Sys2Proof.Machine
end

