-- ==== Sys2Proof/Machine/Agents.lean ====
section
/-! DEFINITION. The two agents of rule R13 and the scheduler between them: what one move of the core does (rule R135), what one
move of the host does (rules R41, R42, R75), and who moves (rules R190, R196). -/

namespace Sys2Proof.Machine

/-- Perform a command word (rules R135, R171, R172): an illegal word raises its code and reads nothing else; a legal one runs its
command. -/
def perform (w : Word) (s : State) : Host.Outcome State Fault Refusal :=
  match decode w with
  | .ok i => exec i s
  | .error e => .next (raise e s)

/-- The core's move: while `BUSY = 1` it performs the command in `LCMD`; otherwise it has no move, and an idle core keeps all its
state (rules R26, R135, R185). Busy with nothing latched is unreachable: no move (DESIGN CHOICE, log entry 8). -/
def coreMove (s : State) : Host.Outcome State Fault Refusal :=
  if s.status.busy then
    match s.lcmd with
    | some w => perform w s
    | none => .next s
  else .next s

/-- `<name> <- v` (rules R11, R75): record what a read returned, under the name the host's program gives it. -/
def observe (x : String) (a : Nat) (v : Word) (s : State) : State :=
  { s with observed := s.observed ++ [{ name := x, addr := a, value := v }] }

/-- The value of a variable of the host's program: what was last read into it; none before its first read (rule R75). -/
def hostVar (x : String) (s : State) : Option Word :=
  (s.observed.reverse.find? fun o => decide (o.name = x)).map (·.value)

/-- The name that `POLL` reads `STATUS` into (rule R75). -/
def pollName : String := "s"

/-- The host's move: its next access. A read gives its variable the value read; a poll reads `STATUS` into `s` and stays the host's
next access while bit 0 of what it read is 1 (rule R75). A host with nothing left to do has no move. -/
def hostMove (s : State) : Host.Outcome State Fault Refusal :=
  match s.pending with
  | [] => .next s
  | .write a n v :: rest =>
    match memWrite a n v { s with pending := rest } with
    | .ok s' => .next s'
    | .error f => .fault f
  | .read a n x :: rest =>
    match memRead a n { s with pending := rest } with
    | .ok (v, s') => .next (observe x a v s')
    | .error f => .fault f
  | .poll :: rest =>
    if s.status.word.getLsbD 0 then .next (observe pollName 0x04 s.status.word s)
    else .next (observe pollName 0x04 s.status.word { s with pending := rest })

/-- Who moves: the scheduler's next choice; when it has none left, the core while a command is in progress, so that every accepted
command completes (rule R196), else the host. DESIGN CHOICE, log entry 7. -/
def nextTurn (s : State) : Turn :=
  match s.sched with
  | t :: _ => t
  | [] => if s.status.busy then .core else .host

/-- The state with the scheduler's choice used up. -/
def useTurn (s : State) : State :=
  { s with sched := s.sched.drop 1 }

/-- One move of the given agent. -/
def move (t : Turn) (s : State) : Host.Outcome State Fault Refusal :=
  match t with
  | .core => coreMove s
  | .host => hostMove s
  | .reset => .next (resetCore s)

/-- The state in which the very next move performs the command word: it is accepted as a `CMD` write would accept it (rule R16),
and the core moves next. -/
def placeCommand (w : Word) (s : State) : State :=
  { accept w s with sched := .core :: s.sched }

end Sys2Proof.Machine
end

