-- ==== Sys2Proof/Machine/Step.lean ====
section
/-! DEFINITION. One step of the machine, and how a command is placed so that the next step runs it. -/

namespace Sys2Proof.Machine

/-- One step: the agent whose turn it is makes one move (rules R13, R135, R190, R196). -/
def step (s : State) : Host.Outcome State Fault Refusal :=
  move (nextTurn s) (useTurn s)

/-- `s` with the command whose bits are `w` (cut to `nbits`, the bits above zero) accepted and next to be performed (DESIGN
CHOICE, log entry 10). -/
def State.withFetchWord (s : State) (nbits w : Nat) : State :=
  placeCommand (BitVec.ofNat 32 (w % 2 ^ nbits)) s

end Sys2Proof.Machine
end

