-- ==== Sys2Proof/Machine/Driver.lean ====
section
/-! DEFINITION. The image driver (rules R151 to R165): the host program of each block, run on real core instances through `step`,
the block grid, edge replication, the compressed stream and the host-level errors. -/

namespace Sys2Proof.Machine

/-! ### Running one block's program on one core (rules R159, R160) -/

/-- `n` steps, none if one of them stops. -/
def runSteps : Nat → State → Option State
  | 0, s => some s
  | n + 1, s =>
    match step s with
    | .next s' => runSteps n s'
    | .fault _ => none
    | .refused _ => none

/-- A core with a host program to run: the accesses `writes`, which end with the `CMD` write, the poll, then `reads`. The
scheduler lets the host poll `delay` times before the core completes (rule R196). Its choices are host turns only, so no reset
arrives during a run of the driver: rule R190 lets one arrive at any time, and rules R158 to R160 give the driver no reaction to
one. DESIGN CHOICE, log entry 17. -/
def loadProgram (c : State) (writes reads : List HostOp) (delay : Nat) : State :=
  { c with
    pending := writes ++ .poll :: reads
    observed := []
    sched := List.replicate (writes.length + delay) .host }

/-- Run the program to its end: the core afterwards and the words of `reads`; none if the run stopped. -/
def runProgram (c : State) (writes reads : List HostOp) (delay : Nat) : Option (State × List Word) :=
  match runSteps (writes.length + delay + 2 + reads.length) (loadProgram c writes reads delay) with
  | some c' =>
    if c'.pending = [] then some (c', (c'.observed.drop (c'.observed.length - reads.length)).map (·.value)) else none
  | none => none

/-- One block's assignment: which block, on which core instance, after how many unsuccessful polls (rules R158, R196).
DEDUCED, log entry 12. -/
structure Job where
  block : Nat
  core : Nat
  delay : Nat
deriving DecidableEq, Repr

/-- What the driver returns (rules R151, R153): a result, or one of the error codes; `stopped` when a core did not finish a block,
or a plan left a block out. -/
inductive Answer (α : Type) where
  | ok (result : α)
  | error (e : ErrCode)
  | stopped
deriving DecidableEq, Repr

/-- The cores of the system, each in its reset state (rules R13, R183). -/
def systemReset : List State :=
  List.replicate Config.cores State.reset

/-- Run the programs of a plan, each on its core; the words each block's program read (rule R158). -/
def runPlan (writes reads : Nat → List HostOp) : List State → List Job → Option (List (Nat × List Word))
  | _, [] => some []
  | cores, j :: js =>
    match cores[j.core]? with
    | none => none
    | some c =>
      match runProgram c (writes j.block) (reads j.block) j.delay with
      | none => none
      | some (c', ws) =>
        match runPlan writes reads (cores.set j.core c') js with
        | none => none
        | some rs => some ((j.block, ws) :: rs)

/-- "Parallel dispatch off": every block in order on core 0, with no wait (rule R158). -/
def oneCorePlan (n : Nat) : List Job :=
  (List.range n).map fun k => { block := k, core := 0, delay := 0 }

/-! ### The grid (rules R152, R155 to R157) -/

/-- `bw` and `bh`: `ceil(d/4)` (rule R155). -/
def blocksAcross (d : Nat) : Nat :=
  (d + 3) / 4

/-- `block_count(W, H)` (rule R155). -/
def blockCount (W H : Nat) : Nat :=
  blocksAcross W * blocksAcross H

/-- Column `X` of texel `i` of block `k` (rules R12, R155, R156). -/
def pixelX (W k i : Nat) : Nat :=
  4 * (k % blocksAcross W) + i % 4

/-- Row `Y` of texel `i` of block `k` (rules R12, R155, R156). -/
def pixelY (W k i : Nat) : Nat :=
  4 * (k / blocksAcross W) + i / 4

/-- The pixel at a column and row of a row-major image (rule R152). -/
def pixelAt (pixels : List Texel) (W X Y : Nat) : Texel :=
  pixels.getD (Y * W + X) { r := 0, g := 0, b := 0, a := 0 }

/-- Texel `i` of block `k` as the driver sends it: edges replicate the last valid column and row (rule R157). -/
def blockTexel (pixels : List Texel) (W H k i : Nat) : Texel :=
  pixelAt pixels W (min (pixelX W k i) (W - 1)) (min (pixelY W k i) (H - 1))

/-- The sixteen texels of block `k` (rule R157). -/
def blockTexels (pixels : List Texel) (W H k : Nat) : List Texel :=
  (List.range 16).map (blockTexel pixels W H k)

/-- The texels of block `k` that lie inside the image, in texel order (rule R160). -/
def insideTexels (W H k : Nat) : List Nat :=
  (List.range 16).filter fun i => decide (pixelX W k i < W) && decide (pixelY W k i < H)

/-! ### compress (rule R159) -/

/-- The format a tag names: `BCn` is `n` (rules R151, R159). -/
def formatOfTag (tag : Nat) : Option Format :=
  if tag < 8 then Format.ofCode (BitVec.ofNat 3 tag) else none

/-- The command of a `compress`: the alpha-weighting option is dropped for BC4 and BC5 (rule R159). -/
def compressCommand (fmt : Format) (high weighted : Bool) : Instr :=
  encodeCommand fmt (Fit.ofBit high) weighted

/-- The writes of one block of `compress`, ending with the `CMD` write (rule R159). -/
def compressWrites (i : Instr) (tx : List Texel) : List HostOp :=
  .write 0x08 4 0x0000FFFF :: (tx.mapIdx fun j t => .write (0x40 + 4 * j) 4 (texelWord t)) ++ [.write 0x00 4 (encode i)]

/-- The reads of one block of `compress` (rule R159). -/
def compressReads (fmt : Format) : List HostOp :=
  (List.range (fmt.blockBytes / 4)).map fun w => .read (0x80 + 4 * w) 4 "word"

/-- The words of a block, block by block in stream order, as bytes (rule R156); none if a block is missing. -/
def assembleStream (n : Nat) (results : List (Nat × List Word)) : Option (List Byte) :=
  match allSome ((List.range n).map fun k => results.lookup k) with
  | some blocks => some (blocks.flatMap fun ws => ws.flatMap fun w => leBytes 4 w.toNat)
  | none => none

/-- `compress(pixels, W, H, format, fit_quality, alpha_weighting)` on the given cores by the given plan (rules R151 to R159). -/
def compressOn (cores : List State) (plan : List Job) (pixels : List Texel) (W H tag : Nat) (high weighted : Bool) :
    Answer (List Byte) :=
  if W = 0 ∨ H = 0 then .error .invalidDimensions
  else
    match formatOfTag tag with
    | none => .error .unsupportedFormat
    | some fmt =>
      if pixels.length < W * H then .error .truncatedInput
      else
        match runPlan (fun k => compressWrites (compressCommand fmt high weighted) (blockTexels pixels W H k))
            (fun _ => compressReads fmt) cores plan with
        | none => .stopped
        | some results =>
          match assembleStream (blockCount W H) results with
          | some bytes => .ok bytes
          | none => .stopped

/-- `compress` with parallel dispatch off (rule R158). -/
def compress (c : State) (pixels : List Texel) (W H tag : Nat) (high weighted : Bool) : Answer (List Byte) :=
  compressOn [c] (oneCorePlan (blockCount W H)) pixels W H tag high weighted

/-! ### decompress (rule R160) -/

/-- The four little-endian bytes of a stream from position `p`, as a word. -/
def streamWord (bytes : List Byte) (p : Nat) : Word :=
  BitVec.ofNat 32 (leNat ((bytes.drop p).take 4))

/-- The writes of block `k` of `decompress`, ending with the `CMD` write; the words beyond the block size are 0 (rule R160). -/
def decompressWrites (fmt : Format) (bytes : List Byte) (k : Nat) : List HostOp :=
  ((List.range 4).map fun w =>
    .write (0x80 + 4 * w) 4 (if 4 * w < fmt.blockBytes then streamWord bytes (k * fmt.blockBytes + 4 * w) else 0))
    ++ [.write 0x00 4 (encode (decodeCommand fmt))]

/-- The reads of block `k` of `decompress`: the texels inside the image only (rule R160). -/
def decompressReads (W H k : Nat) : List HostOp :=
  (insideTexels W H k).map fun i => .read (0x40 + 4 * i) 4 "pixel"

/-- The pixels that block `k`'s words give: each with its place in the image (rule R160). -/
def placedPixels (W H k : Nat) (ws : List Word) : List (Nat × Texel) :=
  List.zipWith (fun i w => (pixelY W k i * W + pixelX W k i, texelOfWord w)) (insideTexels W H k) ws

/-- The image of `W·H` pixels; none if a pixel was written by no block (rules R152, R160). -/
def assembleImage (W H : Nat) (results : List (Nat × List Word)) : Option (List Texel) :=
  allSome ((List.range (W * H)).map fun p => (results.flatMap fun r => placedPixels W H r.1 r.2).lookup p)

/-- `decompress(bytes, W, H, format)` on the given cores by the given plan (rules R151 to R160). -/
def decompressOn (cores : List State) (plan : List Job) (bytes : List Byte) (W H tag : Nat) : Answer (List Texel) :=
  if W = 0 ∨ H = 0 then .error .invalidDimensions
  else
    match formatOfTag tag with
    | none => .error .unsupportedFormat
    | some fmt =>
      if bytes.length < blockCount W H * fmt.blockBytes then .error .truncatedInput
      else
        match runPlan (decompressWrites fmt bytes) (decompressReads W H) cores plan with
        | none => .stopped
        | some results =>
          match assembleImage W H results with
          | some image => .ok image
          | none => .stopped

/-- `decompress` with parallel dispatch off (rule R158). -/
def decompress (c : State) (bytes : List Byte) (W H tag : Nat) : Answer (List Texel) :=
  decompressOn [c] (oneCorePlan (blockCount W H)) bytes W H tag

/-! ### Image bytes (rule R152) -/

/-- The byte buffer of an image: R, G, B, A of each pixel in row-major order, no padding (rule R152). -/
def imageBytes (pixels : List Texel) : List Byte :=
  pixels.flatMap texelBytes

end Sys2Proof.Machine
end

