-- ==== Sys2Proof/Safety.lean ====
section
/-! DEFINITION. What a safe run is, in the terms the statements use: the machine's invariant, the operands of a command having
values, what a command may change, and what a plan of the image driver must cover. -/

namespace Sys2Proof.Machine

/-! ### Operands with values (rules R27, R136, R194) -/

/-- Every byte of `PIX[0..15]` has a value (rules R27, R136, R194). -/
def PixReady (s : State) : Prop :=
  ∀ a, 0x40 ≤ a → a < 0x80 → (s.mem.read a).isSome

/-- The bytes `BLK[0..n-1]` have a value (rules R27, R136, R194). -/
def BlkReady (n : Nat) (s : State) : Prop :=
  ∀ k, k < n → (s.mem.read (0x80 + k)).isSome

/-- Every byte the command reads has a value (rule R136). -/
def CommandReady (i : Instr) (s : State) : Prop :=
  match i with
  | .encBc1 _ _ => PixReady s
  | .encBc2 _ _ => PixReady s
  | .encBc3 _ _ => PixReady s
  | .encBc4 _ => PixReady s
  | .encBc5 _ => PixReady s
  | .decBc1 => BlkReady 8 s
  | .decBc2 => BlkReady 16 s
  | .decBc3 => BlkReady 16 s
  | .decBc4 => BlkReady 8 s
  | .decBc5 => BlkReady 16 s

/-! ### The invariant of reachable states -/

/-- What every reachable state satisfies: the buffers' memory is canonical; `BUSY` and `DONE` are never both 1 (rule R19); `ERR` is
0 while `BUSY = 1` and is one of the core's own codes (rule R20); a command in progress, and the last completed one, is
latched and is what `CMD` reads (rules R16, R26); with `BUSY = 0` and `DONE = 0` no command was accepted since reset (rule
R19). -/
structure CoreInvariant (s : State) : Prop where
  mem_wf : s.mem.wf = true
  busy_not_done : s.status.busy = true → s.status.done = false
  busy_no_error : s.status.busy = true → s.status.err = .none
  core_codes : s.status.err = .none ∨ s.status.err = .unsupportedFormat ∨ s.status.err = .invalidCommand
  busy_latched : s.status.busy = true → s.lcmd = some s.cmd
  done_latched : s.status.done = true → s.lcmd = some s.cmd
  idle_clean : s.status.busy = false → s.status.done = false →
    s.status.err = .none ∧ s.status.werr = false ∧ s.lcmd = none

/-- Every piece of the core's state holds its reset value (rule R29). -/
def AtReset (s : State) : Prop :=
  s.cmd = 0 ∧ s.lcmd = none ∧ s.status.busy = false ∧ s.status.done = false ∧ s.status.err = .none ∧
  s.status.werr = false ∧ s.status.word = 0 ∧ maskWord s = 0x0000FFFF ∧ s.errMetric = 0 ∧ ∀ a, s.mem.read a = none

/-! ### Frames (rules R52, R135, R136) -/

/-- The host agent and the scheduler are as they were. -/
def SameHost (s t : State) : Prop :=
  t.pending = s.pending ∧ t.observed = s.observed ∧ t.sched = s.sched ∧ t.draws = s.draws

/-- What a completed command leaves as it was, and how it leaves `STATUS`: `CMD`, `LCMD`, `MASK`, `WERR` and the host are
unchanged; `BUSY`, `DONE` and `ERR` are written (rules R52, R135). -/
def CompletedFrame (s t : State) : Prop :=
  t.cmd = s.cmd ∧ t.lcmd = s.lcmd ∧ t.texelMask = s.texelMask ∧ t.status.busy = false ∧ t.status.done = true ∧
  t.status.err = .none ∧ t.status.werr = s.status.werr ∧ SameHost s t

/-- The frame of an encode of block size `n`: every byte outside `BLK[0..n-1]` reads as before. -/
def EncodeFrame (n : Nat) (s t : State) : Prop :=
  CompletedFrame s t ∧ ∀ a, a < 0x80 ∨ 0x80 + n ≤ a → t.mem.read a = s.mem.read a

/-- The frame of a decode: `ERRMETRIC` and every byte outside `PIX[0..15]` read as before. -/
def DecodeFrame (s t : State) : Prop :=
  CompletedFrame s t ∧ t.errMetric = s.errMetric ∧ ∀ a, a < 0x40 ∨ 0x80 ≤ a → t.mem.read a = s.mem.read a

/-- Byte `k` of a block, as a number. -/
def blockByte (bs : List Byte) (k : Nat) : Nat :=
  (bs.getD k 0).toNat

/-- Texel `i` of a list of texels. -/
def texelAt (tx : List Texel) (i : Nat) : Texel :=
  tx.getD i { r := 0, g := 0, b := 0, a := 0 }

/-- The texel holds these four numbers, none of them cut. -/
def HasChannels (t : Texel) (r g b a : Nat) : Prop :=
  t.r.toNat = r ∧ t.g.toNat = g ∧ t.b.toNat = b ∧ t.a.toNat = a

/-- `Σ_{i not excl} ω_i·|x_i - y_i|^2` over the texels of two blocks (rules R118, R150): the color error that the encoder of
format `fmt` counts when the texels `tx` decode to `ux`. -/
def colorErrorBetween (fmt : Format) (wba : Bool) (mask : BitVec 16) (tx ux : List Texel) : Nat :=
  ((List.range 16).map fun i =>
    if excluded Config.thisHardware fmt wba mask i (texelAt tx i) then 0
    else texelWeight wba (texelAt tx i) * sqDist (texelRgb (texelAt tx i)) (texelRgb (texelAt ux i))).sum

/-- `Σ_{i included} |x_i - y_i|^2` in one channel (rules R130, R150). -/
def channelErrorBetween (ch : Texel → Byte) (mask : BitVec 16) (tx ux : List Texel) : Nat :=
  ((List.range 16).map fun i =>
    if maskBit mask i then sqDiff (ch (texelAt tx i)).toNat (ch (texelAt ux i)).toNat else 0).sum

/-! ### The image driver (rules R13, R158) -/

/-- A plan that processes each of `n` blocks exactly once, on cores it has (rule R158). -/
def CompletePlan (n cores : Nat) (plan : List Job) : Prop :=
  (plan.map (·.block)).Perm (List.range n) ∧ ∀ j ∈ plan, j.core < cores

/-- Every core is idle, whatever happened on it before. -/
def AllIdle (cores : List State) : Prop :=
  ∀ c ∈ cores, c.status.busy = false

end Sys2Proof.Machine
end

