-- ==== Sys2Proof/Certificates/Slice0/Obligations.lean ====
section
/-! DEFINITION. The statements for the provers: what the spec's rules say the machine does. Each docstring names the rules. A
statement that rests on a choice of the model says so and names the log entry. -/

open Sys2Proof Sys2Proof.Machine

/-! ### Reset and the invariant -/

/-- R29, R190, R192: the machine after reset, and after a reset that arrives in any state, holds the reset value of every piece of
state. -/
def Obligations.ResetGivesEveryRegisterItsValue : Prop :=
  AtReset State.reset ∧ ∀ s, nextTurn s = .reset → ∃ t, step s = .next t ∧ AtReset t

/-- The invariant holds right after reset. -/
def Obligations.ResetSatisfiesTheInvariant : Prop :=
  CoreInvariant State.reset

/-- Headline, R16 to R20, R26: every step of every agent keeps the invariant: the buffers' memory is canonical, `BUSY` and `DONE`
are never both 1, `ERR` is 0 while busy and one of the core's own codes, the command in progress or last completed is latched and
is what `CMD` reads, and with both 0 nothing was accepted since reset. -/
def Obligations.EveryStepKeepsTheInvariant : Prop :=
  ∀ s t, CoreInvariant s → step s = .next t → CoreInvariant t

/-! ### STATUS -/

/-- R17: the bits of the `STATUS` word, the reserved ones 0; a host write to it changes nothing and raises no error. -/
def Obligations.StatusWordHasItsFourFields : Prop :=
  (∀ st : Status, st.word.getLsbD 0 = st.busy ∧ st.word.getLsbD 1 = st.done ∧ st.word.extractLsb' 2 2 = 0 ∧
    st.word.extractLsb' 4 3 = st.err.code ∧ st.word.getLsbD 7 = false ∧ st.word.getLsbD 8 = st.werr ∧
    st.word.extractLsb' 9 23 = 0) ∧
  State.reset.status.word = 0 ∧
  ∀ s v, memWrite 0x04 4 v s = .ok s

/-- R18: `BUSY` is set only by the acceptance of a command and cleared only by that command's completion or by reset; while it is
1 no second command is accepted. -/
def Obligations.BusyIsSetByAcceptanceAndClearedByCompletion : Prop :=
  ∀ s t, step s = .next t →
    (s.status.busy = false → t.status.busy = true →
      nextTurn s = .host ∧ ∃ v rest, s.pending = .write 0 4 v :: rest ∧ t.cmd = v ∧ t.lcmd = some v) ∧
    (s.status.busy = true → t.status.busy = false →
      nextTurn s = .reset ∨ (nextTurn s = .core ∧ s.lcmd.isSome = true ∧ t.status.done = true)) ∧
    (s.status.busy = true → t.status.busy = true → t.cmd = s.cmd ∧ t.lcmd = s.lcmd)

/-- R19: `DONE` is set by the step that completes the command, the one that clears `BUSY`, and by no other; it is cleared by an
acceptance and by a reset, and by nothing else; no step makes `BUSY` and `DONE` both 1; and `BUSY = 0, DONE = 0` goes on meaning
that no command was accepted since reset. -/
def Obligations.DoneIsSetByCompletionAndClearedByAcceptance : Prop :=
  ∀ s t, step s = .next t →
    (s.status.done = false → t.status.done = true →
      nextTurn s = .core ∧ s.status.busy = true ∧ t.status.busy = false) ∧
    (s.status.done = true → t.status.done = false →
      nextTurn s = .reset ∨ (nextTurn s = .host ∧ s.status.busy = false ∧ t.status.busy = true)) ∧
    (s.status.busy = true → t.status.busy = false → nextTurn s ≠ .reset → t.status.done = true) ∧
    (s.status.busy = false → t.status.busy = true → t.status.done = false) ∧
    (nextTurn s = .reset → t.status.done = false) ∧
    ((s.status.busy && s.status.done) = false → (t.status.busy && t.status.done) = false) ∧
    ((s.status.busy = false → s.status.done = false → s.lcmd = none) →
      t.status.busy = false → t.status.done = false → t.lcmd = none)

/-- R20: the core's completion writes the code of the outcome into `ERR`, one of 0, 2 and 4; every other step keeps `ERR`
but for an acceptance and a reset, which clear it; no step makes it other than 0 while `BUSY = 1`. -/
def Obligations.ErrHoldsTheCodeOfTheOutcome : Prop :=
  ∀ s t, step s = .next t →
    (∀ w, nextTurn s = .core → s.status.busy = true → s.lcmd = some w →
      t.status.err = commandCheck w ∧
      (t.status.err.code = 0 ∨ t.status.err.code = 2 ∨ t.status.err.code = 4)) ∧
    (nextTurn s ≠ .core ∨ s.status.busy = false → t.status.err = s.status.err ∨
      (t.status.err = .none ∧
        (nextTurn s = .reset ∨ (nextTurn s = .host ∧ s.status.busy = false ∧ t.status.busy = true)))) ∧
    (nextTurn s = .reset ∨ (nextTurn s = .host ∧ s.status.busy = false ∧ t.status.busy = true) → t.status.err = .none) ∧
    (s.status.busy = false ∨ s.status.err = .none → t.status.busy = true → t.status.err = .none)

/-- R21: a host write to `CMD`, `MASK`, `PIX` or `BLKW` while `BUSY = 1` only sets `WERR`; writes to `STATUS` and `ERRMETRIC` never
set it; it is cleared only by an acceptance or a reset. -/
def Obligations.BusyWriteIsDroppedAndWerrIsSticky : Prop :=
  (∀ s a v, s.status.busy = true → a % 4 = 0 → (a = 0x00 ∨ a = 0x08 ∨ (0x40 ≤ a ∧ a < 0x90)) →
    memWrite a 4 v s = .ok { s with status := { s.status with werr := true } }) ∧
  (∀ s a v, a = 0x04 ∨ a = 0x0C → memWrite a 4 v s = .ok s) ∧
  ∀ s t, step s = .next t → s.status.werr = true → t.status.werr = false →
    nextTurn s = .reset ∨
      (nextTurn s = .host ∧ s.status.busy = false ∧ t.status.busy = true ∧ ∃ v rest, s.pending = .write 0 4 v :: rest)

/-! ### The register window -/

/-- R16: a write of any value to `CMD` while idle accepts it, in one step, and nothing else changes; a read returns the value last
accepted, 0 after reset; a write while busy leaves `CMD` as it was. -/
def Obligations.CmdWriteAcceptsAnyValue : Prop :=
  State.reset.cmd = 0 ∧
  (∀ s v, s.status.busy = false →
    memWrite 0x00 4 v s =
      .ok { s with cmd := v, lcmd := some v, status := { busy := true, done := false, err := .none, werr := false } }) ∧
  (∀ s, memRead 0x00 4 s = .ok (s.cmd, s)) ∧
  ∀ s v, s.status.busy = true → ∃ t, memWrite 0x00 4 v s = .ok t ∧ t.cmd = s.cmd ∧ t.lcmd = s.lcmd

/-- R24: `MASK` is 0xFFFF after reset; a write to it stores bits 15:0, one a texel, and bits 31:16 read 0; no decode command
depends on it. -/
def Obligations.MaskKeepsSixteenBitsAndDecodeIgnoresIt : Prop :=
  State.reset.texelMask = 0xFFFF ∧
  (∀ s v, s.status.busy = false → ∃ t, memWrite 0x08 4 v s = .ok t ∧ t = { s with texelMask := t.texelMask } ∧
    (∀ i, i < 16 → maskBit t.texelMask i = v.getLsbD i) ∧ memRead 0x08 4 t = .ok (v &&& 0x0000FFFF, t)) ∧
  ∀ i : Instr, i.isDecode = true → ∀ s t m, exec i s = .next t →
    exec i { s with texelMask := m } = .next { t with texelMask := m }

/-- R22, R23, R42, R45 to R47: a word written to `PIX` or `BLKW` while idle is read back, lies in the buffer as four little-endian
bytes, and nothing else changes; in `PIX` the bytes are R, G, B, A. -/
def Obligations.BufferWordIsStoredLittleEndian : Prop :=
  ∀ s a v, s.status.busy = false → a % 4 = 0 → 0x40 ≤ a → a < 0x90 →
    ∃ t, memWrite a 4 v s = .ok t ∧ memRead a 4 t = .ok (v, t) ∧ t = { s with mem := t.mem } ∧
      (∀ j, j < 4 → t.mem.read (a + j) = some (v.extractLsb' (8 * j) 8)) ∧
      (∀ x, x < a ∨ a + 4 ≤ x → t.mem.read x = s.mem.read x) ∧
      ∀ i, a = 0x40 + 4 * i → i < 16 →
        readTexel t.mem i = some { r := v.extractLsb' 0 8, g := v.extractLsb' 8 8, b := v.extractLsb' 16 8, a := v.extractLsb' 24 8 }

/-- R43, R44, R178: an access of another width, at an offset that is no multiple of 4 or at an unmapped offset, is the fault
`BUS_ERROR(addr, n)`, also when the host issues it in a step; a write of four bytes to a mapped register is none. (That an offset of 0x100 or more,
beyond the window, is unmapped like the others is log entry 6's.) -/
def Obligations.BadAccessIsABusError : Prop :=
  (∀ s a n v, n ≠ 4 ∨ a % 4 ≠ 0 ∨ (0x10 ≤ a ∧ a < 0x40) ∨ 0x90 ≤ a →
    memRead a n s = .error (.busError a n) ∧ memWrite a n v s = .error (.busError a n) ∧
    (∀ x rest, nextTurn s = .host → s.pending = .read a n x :: rest → step s = .fault (.busError a n)) ∧
    (∀ rest, nextTurn s = .host → s.pending = .write a n v :: rest → step s = .fault (.busError a n))) ∧
  ∀ s a v, a % 4 = 0 → a < 0x10 ∨ (0x40 ≤ a ∧ a < 0x90) → ∃ t, memWrite a 4 v s = .ok t

/-- R27, R136, R179: reading a byte that has no value is the fault `UNINIT`: exactly so for the host's idle reads of a buffer word,
and exactly so for each command; and the step in which the host issues such a read, or the core performs such a command, stops
with that fault. -/
def Obligations.ReadingNoValueIsUninit : Prop :=
  (∀ s a, s.status.busy = false → a % 4 = 0 → 0x40 ≤ a → a < 0x90 →
    (memRead a 4 s = .error .uninit ↔ ∃ j, j < 4 ∧ s.mem.read (a + j) = none)) ∧
  (∀ i s, exec i s = .fault .uninit ↔ ¬ CommandReady i s) ∧
  (∀ s a n x rest, nextTurn s = .host → s.pending = .read a n x :: rest → memRead a n s = .error .uninit →
    step s = .fault .uninit) ∧
  ∀ s w i, nextTurn s = .core → s.status.busy = true → s.lcmd = some w → decode w = .ok i → ¬ CommandReady i s →
    step s = .fault .uninit

/-- R41, R49, R50, R197: a host read changes no state of the core or the host, and none at all while idle (the count of free values
drawn is the model's own, log entry 4). Reads of `CMD`, `STATUS` and `MASK` are exact, busy or not; a read of `PIX`, `BLKW` or
`ERRMETRIC` while busy completes with some value; an idle read of `ERRMETRIC` is exact, and one of a buffer word gives its four
bytes as a little-endian word (R45). (That a busy read of a word with no value
completes too is log entry 5.) -/
def Obligations.ReadsHaveNoSideEffectAndAreExactWhenIdle : Prop :=
  (∀ a n s v t, memRead a n s = .ok (v, t) →
    t = { s with draws := t.draws } ∧ (s.status.busy = false → t = s ∧ memRead a n t = .ok (v, t))) ∧
  (∀ s, memRead 0x00 4 s = .ok (s.cmd, s) ∧ memRead 0x04 4 s = .ok (s.status.word, s) ∧
    memRead 0x08 4 s = .ok (s.texelMask.setWidth 32, s)) ∧
  (∀ s a, s.status.busy = true → a % 4 = 0 → a = 0x0C ∨ (0x40 ≤ a ∧ a < 0x90) →
    ∃ v, memRead a 4 s = .ok (v, { s with draws := s.draws + 1 })) ∧
  (∀ s, s.status.busy = false → memRead 0x0C 4 s = .ok (s.errMetric, s)) ∧
  ∀ s a b0 b1 b2 b3, s.status.busy = false → a % 4 = 0 → 0x40 ≤ a → a < 0x90 → s.mem.read a = some b0 →
    s.mem.read (a + 1) = some b1 → s.mem.read (a + 2) = some b2 → s.mem.read (a + 3) = some b3 →
    memRead a 4 s =
      .ok (BitVec.ofNat 32 (b0.toNat + 256 * b1.toNat + 65536 * b2.toNat + 16777216 * b3.toNat), s)

/-! ### The command word -/

/-- R63: words of the opcode map, written out, decode to their commands. -/
def Obligations.OpcodeMapWordsDecode : Prop :=
  decode 0x00000002 = .ok (.encBc1 .range false) ∧ decode 0x00000014 = .ok (.encBc2 .cluster false) ∧
  decode 0x00000026 = .ok (.encBc3 .range true) ∧ decode 0x00000032 = .ok (.encBc1 .cluster true) ∧
  decode 0x00000008 = .ok (.encBc4 .range) ∧ decode 0x0000001A = .ok (.encBc5 .cluster) ∧
  decode 0x00000003 = .ok .decBc1 ∧ decode 0x00000005 = .ok .decBc2 ∧ decode 0x00000007 = .ok .decBc3 ∧
  decode 0x00000009 = .ok .decBc4 ∧ decode 0x0000000B = .ok .decBc5

/-- Headline: decode and encode agree in both directions: each command has exactly one word, with every option at every value. -/
def Obligations.DecodeAndEncodeAgree : Prop :=
  ∀ w i, decode w = .ok i ↔ w = encode i

/-- R62: a word is decoded to a command exactly when it is legal, by the bits of the word; every command's fields pass the checks;
there are 21 legal words. -/
def Obligations.LegalWordsAreTheTwentyOne : Prop :=
  (∀ w : Word, (∃ i, decode w = .ok i) ↔
    (1 ≤ w.toNat / 2 % 8 ∧ w.toNat / 2 % 8 ≤ 5 ∧ w.toNat / 64 = 0 ∧
      (w.toNat % 2 = 1 → w.toNat / 16 % 2 = 0 ∧ w.toNat / 32 % 2 = 0) ∧
      (w.toNat % 2 = 0 → w.toNat / 2 % 8 = 4 ∨ w.toNat / 2 % 8 = 5 → w.toNat / 32 % 2 = 0))) ∧
  (∀ i : Instr, i.wf = true ∧ i ∈ Instr.all) ∧
  (Instr.all.map encode).Nodup ∧ (Instr.all.map encode).length = 21

/-- R171, R172: the validity check, by the bits of the word and in the order of the rule; a command that passes it raises nothing. -/
def Obligations.ValidityCheckOrder : Prop :=
  (∀ w : Word, commandCheck w =
    if w.toNat / 2 % 8 = 0 ∨ 5 < w.toNat / 2 % 8 then .unsupportedFormat
    else if w.toNat / 64 ≠ 0 then .invalidCommand
    else if w.toNat % 2 = 1 ∧ (w.toNat / 16 % 2 = 1 ∨ w.toNat / 32 % 2 = 1) then .invalidCommand
    else if w.toNat % 2 = 0 ∧ 4 ≤ w.toNat / 2 % 8 ∧ w.toNat / 32 % 2 = 1 then .invalidCommand
    else .none) ∧
  ∀ i s t, exec i s = .next t → t.status.err = .none

/-! ### Performing a command -/

/-- R26, R135, R185: on the core's turn a busy core runs exactly the command its latched word decodes to, at the state with that
turn used up; an illegal word raises its code; an idle core keeps all its state. (Who has the turn is log entries 3 and 7's.) -/
def Obligations.CoreTurnRunsTheLatchedCommand : Prop :=
  (∀ s w i, nextTurn s = .core → s.status.busy = true → s.lcmd = some w → decode w = .ok i →
    step s = exec i (useTurn s)) ∧
  (∀ s w e, nextTurn s = .core → s.status.busy = true → s.lcmd = some w → decode w = .error e →
    step s = .next (raise e (useTurn s))) ∧
  (∀ s, nextTurn s = .core → s.status.busy = false → step s = .next (useTurn s)) ∧
  ∀ s, useTurn s = { s with sched := s.sched.drop 1 }

/-- R53, R75: on the host's turn the next access of its program is issued: a write or read acts on the window; a read gives
the variable it names the value read and leaves every other variable as it was; a poll does so with `s` and `STATUS`, and stays
the next access exactly while bit 0 is 1. (The record that holds the variables is log entry 3's.) -/
def Obligations.HostTurnIssuesTheNextAccess : Prop :=
  (∀ s a n v rest t, nextTurn s = .host → s.pending = .write a n v :: rest →
    memWrite a n v { useTurn s with pending := rest } = .ok t → step s = .next t) ∧
  (∀ s a n x rest v t, nextTurn s = .host → s.pending = .read a n x :: rest →
    memRead a n { useTurn s with pending := rest } = .ok (v, t) →
    step s = .next { t with observed := s.observed ++ [{ name := x, addr := a, value := v }] } ∧
      ∀ u, step s = .next u → hostVar x u = some v ∧ ∀ y, y ≠ x → hostVar y u = hostVar y s) ∧
  (∀ s rest, nextTurn s = .host → s.pending = .poll :: rest → step s = .next
    { useTurn s with
      pending := if s.status.busy then .poll :: rest else rest
      observed := s.observed ++ [{ name := "s", addr := 0x04, value := s.status.word }] } ∧
    ∀ u, step s = .next u → hostVar "s" u = some s.status.word ∧ ∀ y, y ≠ "s" → hostVar y u = hostVar y s) ∧
  ∀ s, nextTurn s = .host → s.pending = [] → step s = .next (useTurn s)

/-- R170, R172, R173: performing an illegal word, in any state, ready or not, changes `STATUS` alone: `BUSY` 0, `DONE` 1, `ERR` the
code, `WERR` kept. -/
def Obligations.RejectedCommandChangesOnlyStatus : Prop :=
  ∀ s w e, decode w = .error e →
    (e = .unsupportedFormat ∨ e = .invalidCommand) ∧
    perform w s = .next { s with status := { busy := false, done := true, err := e, werr := s.status.werr } }

/-- R196: an accepted command completes after finitely many steps, whatever the scheduler chose, as long as no reset intervenes and
the host polls before it does anything else, as R193 asks: at most one step more than the choices still to be used. (The scheduler
that gives this bound is log entry 7's.) -/
def Obligations.AcceptedCommandCompletes : Prop :=
  ∀ s w, s.status.busy = true → s.lcmd = some w → (∀ i, decode w = .ok i → CommandReady i s) →
    s.pending = [] ∨ s.pending.head? = some .poll → Turn.reset ∉ s.sched →
    ∃ k t, k ≤ s.sched.length + 1 ∧ runSteps k s = some t ∧ t.status.busy = false ∧ t.status.done = true ∧
      t.status.err = commandCheck w

/-- R201: what a command writes depends on the mask and the bytes it reads alone: two states that agree on them (an encode: on the
mask and `PIX`; a decode: on its block bytes) get the same block and error, or the same texels. -/
def Obligations.ResultsDependOnTheInputsAlone : Prop :=
  (∀ (i : Instr) (s s' t : State), i.isDecode = false → exec i s = .next t → s'.texelMask = s.texelMask →
    (∀ a, 0x40 ≤ a → a < 0x80 → s'.mem.read a = s.mem.read a) →
    ∃ t', exec i s' = .next t' ∧ t'.errMetric = t.errMetric ∧
      ∀ k, k < i.format.blockBytes → t'.mem.read (0x80 + k) = t.mem.read (0x80 + k)) ∧
  ∀ (i : Instr) (s s' t : State), i.isDecode = true → exec i s = .next t →
    (∀ k, k < i.format.blockBytes → s'.mem.read (0x80 + k) = s.mem.read (0x80 + k)) →
    ∃ t', exec i s' = .next t' ∧ ∀ a, 0x40 ≤ a → a < 0x80 → t'.mem.read a = t.mem.read a

/-! ### The encode commands: completion, result and frame -/

/-- R137: with every pixel valued `enc.bc1` completes, for every option and mask: the color sub-block in `BLK[0..7]`, its error in
`ERRMETRIC` (never cut, R25), everything else unchanged. -/
def Obligations.EncBc1StoresTheChosenColorBlock : Prop :=
  ∀ fit wba s, PixReady s → ∃ t tx, readPix s.mem = some tx ∧ exec (.encBc1 fit wba) s = .next t ∧ EncodeFrame 8 s t ∧
    (∀ k, k < 8 → t.mem.read (0x80 + k) =
      (colorBytes (encodeColor Config.thisHardware .bc1 fit wba s.texelMask tx).c0
        (encodeColor Config.thisHardware .bc1 fit wba s.texelMask tx).c1
        (encodeColor Config.thisHardware .bc1 fit wba s.texelMask tx).idx)[k]?) ∧
    t.errMetric.toNat = (encodeColor Config.thisHardware .bc1 fit wba s.texelMask tx).err

/-- R132, R138: `enc.bc2` completes: byte `k` of `BLK[0..7]` holds the top four bits of the alphas of texels `2k` (low) and `2k+1`
(high), whatever the mask; the color sub-block is in `BLK[8..15]` and its error alone in `ERRMETRIC`. -/
def Obligations.EncBc2StoresExplicitAlphaAndColor : Prop :=
  ∀ fit wba s, PixReady s → ∃ t tx, readPix s.mem = some tx ∧ exec (.encBc2 fit wba) s = .next t ∧ EncodeFrame 16 s t ∧
    (∀ k, k < 8 → t.mem.read (0x80 + k) =
      some (BitVec.ofNat 8 ((texelAt tx (2 * k)).a.toNat / 16 + 16 * ((texelAt tx (2 * k + 1)).a.toNat / 16)))) ∧
    (∀ k, k < 8 → t.mem.read (0x88 + k) =
      (colorBytes (encodeColor Config.thisHardware .bc2 fit wba s.texelMask tx).c0
        (encodeColor Config.thisHardware .bc2 fit wba s.texelMask tx).c1
        (encodeColor Config.thisHardware .bc2 fit wba s.texelMask tx).idx)[k]?) ∧
    t.errMetric.toNat = (encodeColor Config.thisHardware .bc2 fit wba s.texelMask tx).err

/-- R139: `enc.bc3` completes: the alpha channel's sub-block in `BLK[0..7]`, the color sub-block in `BLK[8..15]`, the sum of the two
errors in `ERRMETRIC`. (That the alpha sub-block is R131's choice with `FIT = 1` too, for a fully transparent block where R164
derives otherwise, is the model's choice: log entry 16.) -/
def Obligations.EncBc3StoresAlphaChannelAndColor : Prop :=
  ∀ fit wba s, PixReady s → ∃ t tx, readPix s.mem = some tx ∧ exec (.encBc3 fit wba) s = .next t ∧ EncodeFrame 16 s t ∧
    (∀ k, k < 8 → t.mem.read (0x80 + k) =
      (channelBytes (encodeChannel (·.a) fit s.texelMask tx).e0 (encodeChannel (·.a) fit s.texelMask tx).e1
        (encodeChannel (·.a) fit s.texelMask tx).idx)[k]?) ∧
    (∀ k, k < 8 → t.mem.read (0x88 + k) =
      (colorBytes (encodeColor Config.thisHardware .bc3 fit wba s.texelMask tx).c0
        (encodeColor Config.thisHardware .bc3 fit wba s.texelMask tx).c1
        (encodeColor Config.thisHardware .bc3 fit wba s.texelMask tx).idx)[k]?) ∧
    t.errMetric.toNat = (encodeChannel (·.a) fit s.texelMask tx).err +
      (encodeColor Config.thisHardware .bc3 fit wba s.texelMask tx).err

/-- R140: `enc.bc4` completes: the red channel's sub-block in `BLK[0..7]`, its error in `ERRMETRIC`. -/
def Obligations.EncBc4StoresTheRedChannel : Prop :=
  ∀ fit s, PixReady s → ∃ t tx, readPix s.mem = some tx ∧ exec (.encBc4 fit) s = .next t ∧ EncodeFrame 8 s t ∧
    (∀ k, k < 8 → t.mem.read (0x80 + k) =
      (channelBytes (encodeChannel (·.r) fit s.texelMask tx).e0 (encodeChannel (·.r) fit s.texelMask tx).e1
        (encodeChannel (·.r) fit s.texelMask tx).idx)[k]?) ∧
    t.errMetric.toNat = (encodeChannel (·.r) fit s.texelMask tx).err

/-- R133, R141: `enc.bc5` completes: the red channel's sub-block in `BLK[0..7]`, the green one's in `BLK[8..15]`, the sum of the two
errors in `ERRMETRIC`. -/
def Obligations.EncBc5StoresRedAndGreen : Prop :=
  ∀ fit s, PixReady s → ∃ t tx, readPix s.mem = some tx ∧ exec (.encBc5 fit) s = .next t ∧ EncodeFrame 16 s t ∧
    (∀ k, k < 8 → t.mem.read (0x80 + k) =
      (channelBytes (encodeChannel (·.r) fit s.texelMask tx).e0 (encodeChannel (·.r) fit s.texelMask tx).e1
        (encodeChannel (·.r) fit s.texelMask tx).idx)[k]?) ∧
    (∀ k, k < 8 → t.mem.read (0x88 + k) =
      (channelBytes (encodeChannel (·.g) fit s.texelMask tx).e0 (encodeChannel (·.g) fit s.texelMask tx).e1
        (encodeChannel (·.g) fit s.texelMask tx).idx)[k]?) ∧
    t.errMetric.toNat = (encodeChannel (·.r) fit s.texelMask tx).err + (encodeChannel (·.g) fit s.texelMask tx).err

/-! ### The decode commands: completion, result and frame -/

/-- R142, R147: with the block bytes valued `dec.bc1` (word 0x03) completes; texel `i` is the palette entry its two index bits name, four-color
exactly when `c0 > c1`. -/
def Obligations.DecBc1ExpandsTheColorBlock : Prop :=
  encode .decBc1 = 0x00000003 ∧
  ∀ s, BlkReady 8 s → ∃ t bs, readBlk s.mem 8 = some bs ∧ exec .decBc1 s = .next t ∧ DecodeFrame s t ∧
    ∀ c0 c1 w, c0 = blockByte bs 0 + 256 * blockByte bs 1 → c1 = blockByte bs 2 + 256 * blockByte bs 3 →
      w = blockByte bs 4 + 256 * blockByte bs 5 + 65536 * blockByte bs 6 + 16777216 * blockByte bs 7 →
      ∀ i, i < 16 → ∃ x, readTexel t.mem i = some x ∧
        HasChannels x (colorAt (colorPalette (decide (c1 < c0)) c0 c1) (w / 4 ^ i % 4)).rgb.r
          (colorAt (colorPalette (decide (c1 < c0)) c0 c1) (w / 4 ^ i % 4)).rgb.g
          (colorAt (colorPalette (decide (c1 < c0)) c0 c1) (w / 4 ^ i % 4)).rgb.b
          (colorAt (colorPalette (decide (c1 < c0)) c0 c1) (w / 4 ^ i % 4)).alpha

/-- R143, R147: `dec.bc2` (word 0x05) completes; the color is four-color whatever the order of `c0` and `c1`, and the alpha of texel `i` is 17
times its nibble. -/
def Obligations.DecBc2ExpandsExplicitAlphaAndColor : Prop :=
  encode .decBc2 = 0x00000005 ∧
  ∀ s, BlkReady 16 s → ∃ t bs, readBlk s.mem 16 = some bs ∧ exec .decBc2 s = .next t ∧ DecodeFrame s t ∧
    ∀ c0 c1 w, c0 = blockByte bs 8 + 256 * blockByte bs 9 → c1 = blockByte bs 10 + 256 * blockByte bs 11 →
      w = blockByte bs 12 + 256 * blockByte bs 13 + 65536 * blockByte bs 14 + 16777216 * blockByte bs 15 →
      ∀ i, i < 16 → ∃ x, readTexel t.mem i = some x ∧
        HasChannels x (colorAt (colorPalette true c0 c1) (w / 4 ^ i % 4)).rgb.r
          (colorAt (colorPalette true c0 c1) (w / 4 ^ i % 4)).rgb.g
          (colorAt (colorPalette true c0 c1) (w / 4 ^ i % 4)).rgb.b
          (17 * (blockByte bs (i / 2) / (if i % 2 = 0 then 1 else 16) % 16))

/-- R144, R147, R148: `dec.bc3` (word 0x07) completes; four-color always, the alpha from the channel sub-block in `BLK[0..7]`. -/
def Obligations.DecBc3ExpandsAlphaChannelAndColor : Prop :=
  encode .decBc3 = 0x00000007 ∧
  ∀ s, BlkReady 16 s → ∃ t bs, readBlk s.mem 16 = some bs ∧ exec .decBc3 s = .next t ∧ DecodeFrame s t ∧
    ∀ c0 c1 w j, c0 = blockByte bs 8 + 256 * blockByte bs 9 → c1 = blockByte bs 10 + 256 * blockByte bs 11 →
      w = blockByte bs 12 + 256 * blockByte bs 13 + 65536 * blockByte bs 14 + 16777216 * blockByte bs 15 →
      j = blockByte bs 2 + 2 ^ 8 * blockByte bs 3 + 2 ^ 16 * blockByte bs 4 + 2 ^ 24 * blockByte bs 5 +
        2 ^ 32 * blockByte bs 6 + 2 ^ 40 * blockByte bs 7 →
      ∀ i, i < 16 → ∃ x, readTexel t.mem i = some x ∧
        HasChannels x (colorAt (colorPalette true c0 c1) (w / 4 ^ i % 4)).rgb.r
          (colorAt (colorPalette true c0 c1) (w / 4 ^ i % 4)).rgb.g
          (colorAt (colorPalette true c0 c1) (w / 4 ^ i % 4)).rgb.b
          (channelAt (channelPalette (blockByte bs 0) (blockByte bs 1)) (j / 8 ^ i % 8))

/-- R145, R148: `dec.bc4` (word 0x09) completes; texel `i` is `(r, 0, 0, 255)` with `r` the palette entry its three index bits name. -/
def Obligations.DecBc4ExpandsTheRedChannel : Prop :=
  encode .decBc4 = 0x00000009 ∧
  ∀ s, BlkReady 8 s → ∃ t bs, readBlk s.mem 8 = some bs ∧ exec .decBc4 s = .next t ∧ DecodeFrame s t ∧
    ∀ j, j = blockByte bs 2 + 2 ^ 8 * blockByte bs 3 + 2 ^ 16 * blockByte bs 4 + 2 ^ 24 * blockByte bs 5 +
        2 ^ 32 * blockByte bs 6 + 2 ^ 40 * blockByte bs 7 →
      ∀ i, i < 16 → ∃ x, readTexel t.mem i = some x ∧
        HasChannels x (channelAt (channelPalette (blockByte bs 0) (blockByte bs 1)) (j / 8 ^ i % 8)) 0 0 255

/-- R146, R148: `dec.bc5` (word 0x0B) completes; texel `i` is `(r, g, 0, 255)`, red from `BLK[0..7]`, green from `BLK[8..15]`. -/
def Obligations.DecBc5ExpandsRedAndGreen : Prop :=
  encode .decBc5 = 0x0000000B ∧
  ∀ s, BlkReady 16 s → ∃ t bs, readBlk s.mem 16 = some bs ∧ exec .decBc5 s = .next t ∧ DecodeFrame s t ∧
    ∀ jr jg, jr = blockByte bs 2 + 2 ^ 8 * blockByte bs 3 + 2 ^ 16 * blockByte bs 4 + 2 ^ 24 * blockByte bs 5 +
        2 ^ 32 * blockByte bs 6 + 2 ^ 40 * blockByte bs 7 →
      jg = blockByte bs 10 + 2 ^ 8 * blockByte bs 11 + 2 ^ 16 * blockByte bs 12 + 2 ^ 24 * blockByte bs 13 +
        2 ^ 32 * blockByte bs 14 + 2 ^ 40 * blockByte bs 15 →
      ∀ i, i < 16 → ∃ x, readTexel t.mem i = some x ∧
        HasChannels x (channelAt (channelPalette (blockByte bs 0) (blockByte bs 1)) (jr / 8 ^ i % 8))
          (channelAt (channelPalette (blockByte bs 8) (blockByte bs 9)) (jg / 8 ^ i % 8)) 0 255

/-- R149: every decode is idempotent: run twice it writes the same `PIX`. -/
def Obligations.DecodeTwiceWritesTheSamePixels : Prop :=
  ∀ i : Instr, i.isDecode = true → ∀ s t, exec i s = .next t →
    ∃ u, exec i t = .next u ∧ ∀ a, u.mem.read a = t.mem.read a

/-! ### The round trip (rule R150) -/

/-- R150 for BC1: decoding the block just encoded gives texels whose weighted error is exactly `ERRMETRIC`, and every punch-through
texel decodes to transparent black. -/
def Obligations.RoundTripErrorBc1 : Prop :=
  ∀ fit wba s, PixReady s → ∃ t u tx ux, readPix s.mem = some tx ∧ exec (.encBc1 fit wba) s = .next t ∧
    exec .decBc1 t = .next u ∧ readPix u.mem = some ux ∧
    u.errMetric.toNat = colorErrorBetween .bc1 wba s.texelMask tx ux ∧
    ∀ i, i < 16 → maskBit s.texelMask i = true → (texelAt tx i).a.toNat < 128 → HasChannels (texelAt ux i) 0 0 0 0

/-- R150 for BC2 and BC3: for BC2 the weighted color error of the decoded texels is exactly `ERRMETRIC`, and every decoded alpha is
`17·(A div 16)`; for BC3 the weighted color error and the alpha error add up to exactly `ERRMETRIC`. A fully
transparent block decodes to alphas below 128 for BC2 and, with `FIT = 0`, for BC3. (With `FIT = 1` the choice of R131 need not
keep what R164 says of BC3: log entry 16.) -/
def Obligations.RoundTripErrorBc2AndBc3 : Prop :=
  ∀ fit wba s, PixReady s →
    (∃ t u tx ux, readPix s.mem = some tx ∧ exec (.encBc2 fit wba) s = .next t ∧ exec .decBc2 t = .next u ∧
      readPix u.mem = some ux ∧ u.errMetric.toNat = colorErrorBetween .bc2 wba s.texelMask tx ux ∧
      ∀ i, i < 16 → (texelAt ux i).a.toNat = 17 * ((texelAt tx i).a.toNat / 16) ∧
        ((texelAt tx i).a.toNat < 128 → (texelAt ux i).a.toNat < 128)) ∧
    ∃ t u tx ux, readPix s.mem = some tx ∧ exec (.encBc3 fit wba) s = .next t ∧ exec .decBc3 t = .next u ∧
      readPix u.mem = some ux ∧
      u.errMetric.toNat = channelErrorBetween (·.a) s.texelMask tx ux + colorErrorBetween .bc3 wba s.texelMask tx ux ∧
      (fit = .range → s.texelMask = 0xFFFF → (∀ i, i < 16 → (texelAt tx i).a.toNat < 128) →
        ∀ i, i < 16 → (texelAt ux i).a.toNat < 128)

/-- R150 for BC4 and BC5: the error of the decoded channels is exactly `ERRMETRIC`. -/
def Obligations.RoundTripErrorBc4AndBc5 : Prop :=
  ∀ fit s, PixReady s →
    (∃ t u tx ux, readPix s.mem = some tx ∧ exec (.encBc4 fit) s = .next t ∧ exec .decBc4 t = .next u ∧
      readPix u.mem = some ux ∧ u.errMetric.toNat = channelErrorBetween (·.r) s.texelMask tx ux) ∧
    ∃ t u tx ux, readPix s.mem = some tx ∧ exec (.encBc5 fit) s = .next t ∧ exec .decBc5 t = .next u ∧
      readPix u.mem = some ux ∧
      u.errMetric.toNat = channelErrorBetween (·.r) s.texelMask tx ux + channelErrorBetween (·.g) s.texelMask tx ux

/-! ### Quantizer and palettes -/

/-- R66, R113 to R115: `Q5` and `Q6` of an 8-bit value by the integer formulas; `Q5`, `Q6` and `Q8` of any rational in range the
nearest level, a tie upward; `Q565` and `expand565` place the fields; expansion replicates the top bits and meets 0 and 255. -/
def Obligations.QuantizerRoundsAndExpanderReplicates : Prop :=
  (∀ t : Nat, t ≤ 255 → quant5 (t : Rat) = (62 * t + 255) / 510 ∧ quant6 (t : Rat) = (126 * t + 255) / 510) ∧
  (∀ t : Rat, 0 ≤ t → t ≤ 255 →
    ((quant5 t : Rat) - 1 / 2 ≤ t * 31 / 255 ∧ t * 31 / 255 < (quant5 t : Rat) + 1 / 2 ∧ quant5 t ≤ 31) ∧
    ((quant6 t : Rat) - 1 / 2 ≤ t * 63 / 255 ∧ t * 63 / 255 < (quant6 t : Rat) + 1 / 2 ∧ quant6 t ≤ 63) ∧
    ((quant8 t : Rat) - 1 / 2 ≤ t ∧ t < (quant8 t : Rat) + 1 / 2 ∧ quant8 t ≤ 255)) ∧
  (∀ a : Vec3 Rat, quant565 a = quant5 a.r * 2048 + quant6 a.g * 32 + quant5 a.b) ∧
  (∀ q, q < 32 → expand5 q = q * 8 + q / 4 ∧ expand5 q = q <<< 3 ||| q >>> 2 ∧ expand5 q ≤ 255) ∧
  (∀ q, q < 64 → expand6 q = q * 4 + q / 16 ∧ expand6 q = q <<< 2 ||| q >>> 4 ∧ expand6 q ≤ 255) ∧
  expand5 0 = 0 ∧ expand6 0 = 0 ∧ expand5 31 = 255 ∧ expand6 63 = 255 ∧
  ∀ r g b, r < 32 → g < 64 → b < 32 →
    expand565 (r * 2048 + g * 32 + b) = { r := expand5 r, g := expand6 g, b := expand5 b }

/-- R116: the entries of both color palettes and what selects the mode. -/
def Obligations.ColorPaletteEntriesByMode : Prop :=
  (∀ c0 c1, fourColorMode .bc1 c0 c1 = decide (c0 > c1) ∧ fourColorMode .bc2 c0 c1 = true ∧ fourColorMode .bc3 c0 c1 = true) ∧
  (∀ four c0 c1, colorAt (colorPalette four c0 c1) 0 = { rgb := expand565 c0, alpha := 255 } ∧
    colorAt (colorPalette four c0 c1) 1 = { rgb := expand565 c1, alpha := 255 }) ∧
  (∀ c0 c1, colorAt (colorPalette true c0 c1) 2 =
      { rgb := { r := (2 * (expand565 c0).r + (expand565 c1).r) / 3, g := (2 * (expand565 c0).g + (expand565 c1).g) / 3,
                 b := (2 * (expand565 c0).b + (expand565 c1).b) / 3 }, alpha := 255 } ∧
    colorAt (colorPalette true c0 c1) 3 =
      { rgb := { r := ((expand565 c0).r + 2 * (expand565 c1).r) / 3, g := ((expand565 c0).g + 2 * (expand565 c1).g) / 3,
                 b := ((expand565 c0).b + 2 * (expand565 c1).b) / 3 }, alpha := 255 }) ∧
  ∀ c0 c1, colorAt (colorPalette false c0 c1) 2 =
      { rgb := { r := ((expand565 c0).r + (expand565 c1).r) / 2, g := ((expand565 c0).g + (expand565 c1).g) / 2,
                 b := ((expand565 c0).b + (expand565 c1).b) / 2 }, alpha := 255 } ∧
    colorAt (colorPalette false c0 c1) 3 = { rgb := { r := 0, g := 0, b := 0 }, alpha := 0 }

/-- R117: the entries of both channel palettes. -/
def Obligations.ChannelPaletteEntriesByMode : Prop :=
  ∀ e0 e1, channelAt (channelPalette e0 e1) 0 = e0 ∧ channelAt (channelPalette e0 e1) 1 = e1 ∧
    (e0 > e1 → ∀ j, 2 ≤ j → j ≤ 7 → channelAt (channelPalette e0 e1) j = ((8 - j) * e0 + (j - 1) * e1) / 7) ∧
    (e0 ≤ e1 → (∀ j, 2 ≤ j → j ≤ 5 → channelAt (channelPalette e0 e1) j = ((6 - j) * e0 + (j - 1) * e1) / 5) ∧
      channelAt (channelPalette e0 e1) 6 = 0 ∧ channelAt (channelPalette e0 e1) 7 = 255)

/-- R121: the interpolated entries of every palette are monotonic along the interpolation parameter, in each channel. -/
def Obligations.PalettesAreMonotonic : Prop :=
  (∀ (four : Bool) (c0 c1 : Nat), ∀ ch : Vec3 Nat → Nat, ch = (·.r) ∨ ch = (·.g) ∨ ch = (·.b) →
    List.Pairwise (· ≤ ·) ((if four then [0, 2, 3, 1] else [0, 2, 1]).map fun k => ch (colorAt (colorPalette four c0 c1) k).rgb) ∨
    List.Pairwise (· ≥ ·) ((if four then [0, 2, 3, 1] else [0, 2, 1]).map fun k => ch (colorAt (colorPalette four c0 c1) k).rgb)) ∧
  ∀ e0 e1,
    (e0 > e1 → List.Pairwise (· ≥ ·) ([0, 2, 3, 4, 5, 6, 7, 1].map (channelAt (channelPalette e0 e1)))) ∧
    (e0 ≤ e1 → List.Pairwise (· ≤ ·) ([0, 2, 3, 4, 5, 1].map (channelAt (channelPalette e0 e1))))

/-- R122: with equal endpoints every interpolated color is the endpoint and every texel that is not punch-through takes index 0; a
channel texel takes index 0 unless it is nearer to 0 or 255 than to the endpoint. -/
def Obligations.EqualEndpointsGiveIndexZero : Prop :=
  (∀ four c k, k < 4 → (four = true ∨ k ≠ 3) → (colorAt (colorPalette four c c) k).rgb = expand565 c) ∧
  (∀ four c, ∀ t : Sample, t.punch = false → sampleIndex (colorPalette four c c) four t = 0) ∧
  (∀ e, (∀ k, k < 6 → channelAt (channelPalette e e) k = e) ∧
    channelAt (channelPalette e e) 6 = 0 ∧ channelAt (channelPalette e e) 7 = 255) ∧
  ∀ e, ∀ t : ChannelSample, channelSampleIndex (channelPalette e e) t = 0 ↔
    sqDiff t.x e ≤ sqDiff t.x 0 ∧ sqDiff t.x e ≤ sqDiff t.x 255

/-! ### ColorSet, axis, fitters -/

/-- R84 to R86: the points are the colors of the texels that are not excluded, each once, in order of first appearance; a point's
weight is the sum of its texels' weights; there is no point exactly when every texel is excluded. -/
def Obligations.ColorSetIsTheWeightedDistinctColors : Prop :=
  ∀ sm : List Sample,
    (colorPoints sm).map (·.val) = ((sm.filter fun t => !t.excl).map (·.rgb)).reverse.dedup.reverse ∧
    (∀ q ∈ colorPoints sm, q.wt = ((sm.filter fun t => !t.excl && decide (t.rgb = q.val)).map (·.weight)).sum) ∧
    totalWeight (colorPoints sm) = ((sm.filter fun t => !t.excl).map (·.weight)).sum ∧
    (colorPoints sm).length ≤ sm.length ∧
    (colorPoints sm = [] ↔ ∀ t ∈ sm, t.excl = true)

/-- R82, R83, R85, R87: which texels are punch-through, which are excluded, and their weights, with the corner cases of the rule. -/
def Obligations.ExclusionAndWeights : Prop :=
  (∀ fmt mask i t, punched Config.thisHardware fmt mask i t = true ↔
    fmt = .bc1 ∧ maskBit mask i = true ∧ t.a.toNat < 128) ∧
  (∀ fmt wba mask i t, excluded Config.thisHardware fmt wba mask i t = true ↔
    maskBit mask i = false ∨ (fmt = .bc1 ∧ maskBit mask i = true ∧ t.a.toNat < 128) ∨ (wba = true ∧ t.a.toNat < 128)) ∧
  (∀ t, texelWeight true t = t.a.toNat + 1 ∧ texelWeight false t = 1 ∧ 1 ≤ texelWeight true t ∧ texelWeight true t ≤ 256) ∧
  ∀ fmt wba mask tx, threeColor (samplesOf Config.thisHardware fmt wba mask tx) = true ↔
    fmt = .bc1 ∧ ∃ i t, tx[i]? = some t ∧ maskBit mask i = true ∧ t.a.toNat < 128

/-- R90 to R96: the axis of a block's ColorSet is never the zero vector, whatever the number of iterations; it is `(1, 1, 1)` for at
most one point; for more it is the power iteration of the weighted covariance `C`, from the column of `C` with the largest
diagonal entry, the lowest channel among equals; and for points on one line it is parallel to the line. -/
def Obligations.AxisIsNeverZero : Prop :=
  (∀ (p : Params) fmt wba mask tx,
    principalAxis p (colorPoints (samplesOf p fmt wba mask tx)) ≠ { r := 0, g := 0, b := 0 }) ∧
  (∀ p ps, ps.length ≤ 1 → principalAxis p ps = { r := 1, g := 1, b := 1 }) ∧
  (∀ p ps, 2 ≤ ps.length → ∀ C : (Vec3 Nat → Nat) → (Vec3 Nat → Nat) → Int,
    (∀ f g, C f g = (ps.map fun q => (q.wt : Int)).sum * (ps.map fun q => (q.wt : Int) * f q.val * g q.val).sum -
      (ps.map fun q => (q.wt : Int) * f q.val).sum * (ps.map fun q => (q.wt : Int) * g q.val).sum) →
    ∃ k : Vec3 Nat → Nat,
      ((k = (·.r) ∧ C (·.g) (·.g) ≤ C (·.r) (·.r) ∧ C (·.b) (·.b) ≤ C (·.r) (·.r)) ∨
        (k = (·.g) ∧ C (·.r) (·.r) < C (·.g) (·.g) ∧ C (·.b) (·.b) ≤ C (·.g) (·.g)) ∨
        (k = (·.b) ∧ C (·.r) (·.r) < C (·.b) (·.b) ∧ C (·.g) (·.g) < C (·.b) (·.b))) ∧
      principalAxis p ps =
        (fun v : Vec3 Int =>
          { r := C (·.r) (·.r) * v.r + C (·.r) (·.g) * v.g + C (·.r) (·.b) * v.b
            g := C (·.g) (·.r) * v.r + C (·.g) (·.g) * v.g + C (·.g) (·.b) * v.b
            b := C (·.b) (·.r) * v.r + C (·.b) (·.g) * v.g + C (·.b) (·.b) * v.b })^[p.powerIterations]
          { r := C (·.r) k, g := C (·.g) k, b := C (·.b) k }) ∧
  ∀ p ps, 2 ≤ ps.length → ∀ o d : Vec3 Int,
    (∀ q ∈ ps, ∃ m : Int,
      (q.val.r : Int) = o.r + m * d.r ∧ (q.val.g : Int) = o.g + m * d.g ∧ (q.val.b : Int) = o.b + m * d.b) →
    ∃ m : Int, principalAxis p ps = { r := m * d.r, g := m * d.g, b := m * d.b }

/-- R101, R102: the projection is `pts[j]·v`; the range candidate is the first point of least and the first point of greatest projection, and the clamp changes
neither; for the empty set it is black twice. -/
def Obligations.RangeFitTakesTheExtremeProjections : Prop :=
  (∀ ps v j q, ps[j]? = some q → pointAt ps j = q ∧
    projection ps v j = (q.val.r : Int) * v.r + (q.val.g : Int) * v.g + (q.val.b : Int) * v.b ∧
    toRats q.val = { r := (q.val.r : Rat), g := (q.val.g : Rat), b := (q.val.b : Rat) }) ∧
  (∀ v, rangeCandidate v [] = { a := { r := 0, g := 0, b := 0 }, b := { r := 0, g := 0, b := 0 } }) ∧
  ∀ v ps, ps ≠ [] → (∀ q ∈ ps, q.val.r ≤ 255 ∧ q.val.g ≤ 255 ∧ q.val.b ≤ 255) →
    ∃ jmin jmax, jmin < ps.length ∧ jmax < ps.length ∧
      rangeCandidate v ps = { a := toRats (pointAt ps jmin).val, b := toRats (pointAt ps jmax).val } ∧
      (∀ j, j < ps.length → projection ps v jmin ≤ projection ps v j ∧ projection ps v j ≤ projection ps v jmax) ∧
      (∀ j, j < jmin → projection ps v jmin < projection ps v j) ∧
      ∀ j, j < jmax → projection ps v j < projection ps v jmax

/-- R103: the order `σ(u)` is a permutation of the point numbers, ascending by `(pts[j]·u, j)`. -/
def Obligations.ClusterOrderSortsByProjection : Prop :=
  ∀ ps u, (clusterOrder ps u).Perm (List.range ps.length) ∧
    (clusterOrder ps u).Pairwise fun i j =>
      projection ps u i < projection ps u j ∨ (projection ps u i = projection ps u j ∧ i < j)

/-- R105: the partitions are all the tuples of `K - 1` cuts that rise from 0 to `n`, each once, in strict lexicographic order,
`C(n+K-1, K-1)` of them, at most 969 for `K = 4` and 153 for `K = 3`; position `p` lies in cluster `k` exactly when `β_k ≤ p < β_(k+1)`. -/
def Obligations.PartitionsAreEnumeratedInOrder : Prop :=
  (∀ n K, 1 ≤ K → ∀ β, β ∈ partitions n K ↔ β.length = K - 1 ∧ β.Pairwise (· ≤ ·) ∧ ∀ b ∈ β, b ≤ n) ∧
  (∀ n K, (partitions n K).Pairwise (List.Lex (· < ·))) ∧
  (∀ n K, 1 ≤ K → (partitions n K).length = Nat.choose (n + K - 1) (K - 1)) ∧
  (∀ n, n ≤ 16 → (partitions n 4).length ≤ 969 ∧ (partitions n 3).length ≤ 153) ∧
  ∀ β p k, β.Pairwise (· ≤ ·) →
    (clusterOf β p = k ↔ (k = 0 ∨ (∃ b, β[k - 1]? = some b ∧ b ≤ p)) ∧ ∀ b, β[k]? = some b → p < b) ∧ clusterOf β p ≤ β.length

/-- R107: the determinant is never negative, and it is 0 exactly when all points lie in one cluster. -/
def Obligations.DeterminantIsZeroForOneClusterOnly : Prop :=
  ∀ D ms, 1 ≤ D → (∀ m ∈ ms, 1 ≤ m.wt) →
    0 ≤ lsDet D ms ∧ (lsDet D ms = 0 ↔ ∀ m ∈ ms, ∀ m' ∈ ms, m.k = m'.k)

/-- R106: for every partition that is not degenerate the two endpoints are the ones that minimise the weighted squared
distance of the points to their clusters' palette points, over all rational endpoints. -/
def Obligations.LeastSquaresEndpointsAreOptimal : Prop :=
  ∀ D ms, 1 ≤ D → lsDet D ms ≠ 0 → ∀ a b : Rat,
    (ms.map fun m => (m.wt : Rat) *
      ((((D : Rat) - m.k) * lsStart D ms + m.k * lsEnd D ms) / D - m.x) ^ 2).sum ≤
    (ms.map fun m => (m.wt : Rat) * ((((D : Rat) - m.k) * a + m.k * b) / D - m.x) ^ 2).sum

/-- R111: on the same block the color cluster fit's error is never above the range fit's, for every mask, weighting, threshold and
number of iterations and passes; R131: the same of the channel encoder. -/
def Obligations.ClusterFitIsNeverWorseThanRangeFit : Prop :=
  (∀ (p : Params) fmt wba mask tx,
    (encodeColor p fmt .cluster wba mask tx).err ≤ (encodeColor p fmt .range wba mask tx).err) ∧
  ∀ ch mask tx, (encodeChannel ch .cluster mask tx).err ≤ (encodeChannel ch .range mask tx).err

/-- R109: with `FIT = 0` the chosen candidate is the range candidate, for every number of points; with `FIT = 1` it is, on this
hardware's one pass, the first of least error in the list that has the range candidate first and then the candidates of the
partitions in order, and with at most one point the range candidate (R110); there are 3 clusters when a texel is punch-through,
else 4 (R104); each partition of the sorted points (R105) puts the point at sorted position `pos` into its cluster, with its
weight; a partition with `det = 0` gives no candidate, every other one the clamped least-squares endpoints (R106, R107); a
candidate is stored in the order of R119. -/
def Obligations.FirstLeastColorCandidateIsChosen : Prop :=
  (∀ p fmt sm, fitColor p fmt .range sm =
    evaluate fmt sm (rangeCandidate (principalAxis p (colorPoints sm)) (colorPoints sm))) ∧
  (∀ fmt sm,
    (∃ before after,
      (rangeCandidate (principalAxis Config.thisHardware (colorPoints sm)) (colorPoints sm) ::
        passCandidates (clusterCount sm) (colorPoints sm)
          (clusterOrder (colorPoints sm) (principalAxis Config.thisHardware (colorPoints sm)))).map (evaluate fmt sm) =
        before ++ fitColor Config.thisHardware fmt .cluster sm :: after ∧
      (∀ c ∈ before, (fitColor Config.thisHardware fmt .cluster sm).block.err < c.block.err) ∧
      ∀ c ∈ after, (fitColor Config.thisHardware fmt .cluster sm).block.err ≤ c.block.err) ∧
    ((colorPoints sm).length ≤ 1 →
      fitColor Config.thisHardware fmt .cluster sm = fitColor Config.thisHardware fmt .range sm)) ∧
  (∀ sm, clusterCount sm = if threeColor sm then 3 else 4) ∧
  (∀ K ps ord, passCandidates K ps ord = (partitions ps.length K).filterMap (lsCandidate (K - 1) (ord.map (pointAt ps)))) ∧
  (∀ β (f : Vec3 Nat → Nat) (sorted : List (Point (Vec3 Nat))), (membersOf β f sorted).length = sorted.length ∧
    ∀ (pos : Nat) (q : Point (Vec3 Nat)), sorted[pos]? = some q →
      (membersOf β f sorted)[pos]? = some { k := clusterOf β pos, wt := q.wt, x := f q.val }) ∧
  (∀ D sorted β, ∀ mr mg mb, mr = membersOf β (·.r) sorted → mg = membersOf β (·.g) sorted → mb = membersOf β (·.b) sorted →
    (lsDet D mr = 0 → lsCandidate D sorted β = none) ∧
    (lsDet D mr ≠ 0 → lsCandidate D sorted β = some
      { a := { r := max 0 (min 255 (lsStart D mr)), g := max 0 (min 255 (lsStart D mg)), b := max 0 (min 255 (lsStart D mb)) }
        b := { r := max 0 (min 255 (lsEnd D mr)), g := max 0 (min 255 (lsEnd D mg)), b := max 0 (min 255 (lsEnd D mb)) } })) ∧
  (∀ p fmt fit wba mask tx, encodeColor p fmt fit wba mask tx = (fitColor p fmt fit (samplesOf p fmt wba mask tx)).block) ∧
  ∀ fmt sm c, (evaluate fmt sm c).cand = c ∧
    (threeColor sm = true → (evaluate fmt sm c).block.c0 = min (quant565 c.a) (quant565 c.b) ∧
      (evaluate fmt sm c).block.c1 = max (quant565 c.a) (quant565 c.b)) ∧
    (threeColor sm = false → (evaluate fmt sm c).block.c0 = max (quant565 c.a) (quant565 c.b) ∧
      (evaluate fmt sm c).block.c1 = min (quant565 c.a) (quant565 c.b))

/-- R81 to R83, R118 to R120: the samples of a block are its texels' colors, weights and flags; the evaluation of every candidate,
and the stored block, is exact: `c0 ≤ c1` when a texel is punch-through, else `c0 ≥ c1`, both 16 bits; punch-through texels have
index 3 and every other texel the least index of a nearest entry of the palette the decoder will rebuild; the error is the
weighted sum over the texels that are not excluded. -/
def Obligations.StoredColorBlockIsItsOwnEvaluation : Prop :=
  (∀ x y : Vec3 Nat, (sqDist x y : Int) =
    ((x.r : Int) - y.r) ^ 2 + ((x.g : Int) - y.g) ^ 2 + ((x.b : Int) - y.b) ^ 2) ∧
  (∀ p fmt wba mask tx, (samplesOf p fmt wba mask tx).length = tx.length ∧
    ∀ (i : Nat) (t : Texel), tx[i]? = some t → (samplesOf p fmt wba mask tx)[i]? = some
      { rgb := { r := t.r.toNat, g := t.g.toNat, b := t.b.toNat }, weight := texelWeight wba t,
        excl := excluded p fmt wba mask i t, punch := punched p fmt mask i t }) ∧
  ∀ (fmt : Format) (sm : List Sample), ∀ e P n,
    (∃ c, e = (evaluate fmt sm c).block) ∨
      (∃ p fit wba mask tx, sm = samplesOf p fmt wba mask tx ∧ e = encodeColor p fmt fit wba mask tx) →
    P = colorPalette (fourColorMode fmt e.c0 e.c1) e.c0 e.c1 → n = (if fourColorMode fmt e.c0 e.c1 then 4 else 3) →
    (e.c0 < 65536 ∧ e.c1 < 65536) ∧
    (threeColor sm = true → e.c0 ≤ e.c1) ∧
    (threeColor sm = false → e.c1 ≤ e.c0) ∧
    e.idx.length = sm.length ∧
    (∀ (i : Nat) (t : Sample), sm[i]? = some t → ∃ k, e.idx[i]? = some k ∧
      (t.punch = true → k = 3) ∧
      (t.punch = false → k < n ∧ (∀ j, j < n → sqDist t.rgb (colorAt P k).rgb ≤ sqDist t.rgb (colorAt P j).rgb) ∧
        ∀ j, j < k → sqDist t.rgb (colorAt P k).rgb < sqDist t.rgb (colorAt P j).rgb)) ∧
    e.err = (List.zipWith (fun t k => if t.excl then 0 else t.weight * sqDist t.rgb (colorAt P k).rgb) sm e.idx).sum

/-! ### The channel encoder -/

/-- R123, R124, R129, R130: the samples of a channel are its values and the mask; the evaluation of every candidate of either mode,
and the stored channel block, is exact: two 8-bit endpoints, every texel (included or not) with the least index of a nearest entry
of the palette the decoder will rebuild, and the error summed over the included texels. -/
def Obligations.StoredChannelBlockIsItsOwnEvaluation : Prop :=
  (∀ x y : Nat, (sqDiff x y : Int) = ((x : Int) - y) ^ 2) ∧
  (∀ ch mask tx, (channelSamples ch mask tx).length = tx.length ∧
    ∀ (i : Nat) (t : Texel), tx[i]? = some t →
      (channelSamples ch mask tx)[i]? = some { x := (ch t).toNat, excl := !maskBit mask i }) ∧
  ∀ sm : List ChannelSample, ∀ e V,
    (∃ mode c, e = evaluateChannel mode sm c) ∨
      (∃ ch fit mask tx, sm = channelSamples ch mask tx ∧ e = encodeChannel ch fit mask tx) →
    V = channelPalette e.e0 e.e1 →
    (e.e0 ≤ 255 ∧ e.e1 ≤ 255) ∧ e.idx.length = sm.length ∧
    (∀ (i : Nat) (t : ChannelSample), sm[i]? = some t → ∃ k, e.idx[i]? = some k ∧ k < 8 ∧
      (∀ j, j < 8 → sqDiff t.x (channelAt V k) ≤ sqDiff t.x (channelAt V j)) ∧
      ∀ j, j < k → sqDiff t.x (channelAt V k) < sqDiff t.x (channelAt V j)) ∧
    e.err = (List.zipWith (fun t k => if t.excl then 0 else sqDiff t.x (channelAt V k)) sm e.idx).sum

/-- R125 to R131: the ValueSet holds each included value once with its count; the eight-value mode fits all of it, the six-value
mode all but 0 and 255; the range candidate is the least and the greatest fitted value, 0 and 0 if there is none; `FIT = 1` adds
the partitions of the ascending values in order, those with `det = 0` left out, clamped; a candidate is stored as (greater, less)
in the eight-value mode and (less, greater) in the six-value mode; and the chosen one is the first of least error, the
eight-value mode's before the six-value mode's. (That the encoder stores that one for BC3 alpha with `FIT = 1` too, where R164
derives otherwise, is the model's choice: log entry 16.) -/
def Obligations.FirstLeastChannelCandidateIsChosen : Prop :=
  (∀ sm : List ChannelSample, ((valueSet sm).map (·.val)).Nodup ∧
    (∀ x, x ∈ (valueSet sm).map (·.val) ↔ ∃ t ∈ sm, t.excl = false ∧ t.x = x) ∧
    ∀ q ∈ valueSet sm, q.wt = (sm.filter fun t => !t.excl && decide (t.x = q.val)).length) ∧
  (∀ vs, fittedValues .eight vs = vs ∧
    ∀ q, q ∈ fittedValues .six vs ↔ q ∈ vs ∧ q.val ≠ 0 ∧ q.val ≠ 255) ∧
  channelRange [] = (0, 0) ∧
  (∀ fv, fv ≠ [] → ∃ lo ∈ fv, ∃ hi ∈ fv, channelRange fv = ((lo.val : Rat), (hi.val : Rat)) ∧
    ∀ q ∈ fv, lo.val ≤ q.val ∧ q.val ≤ hi.val) ∧
  (∀ fv, (sortedValues fv).Perm fv ∧ (sortedValues fv).Pairwise fun q q' => q.val ≤ q'.val) ∧
  (∀ β (sorted : List (Point Nat)), (membersOf β (fun x => x) sorted).length = sorted.length ∧
    ∀ (pos : Nat) (q : Point Nat), sorted[pos]? = some q →
      (membersOf β (fun x => x) sorted)[pos]? = some { k := clusterOf β pos, wt := q.wt, x := q.val }) ∧
  (∀ D sorted β, ∀ ms, ms = membersOf β (fun x => x) sorted →
    (lsDet D ms = 0 → channelLs D sorted β = none) ∧
    (lsDet D ms ≠ 0 → channelLs D sorted β = some (max 0 (min 255 (lsStart D ms)), max 0 (min 255 (lsEnd D ms))))) ∧
  (∀ fv, channelCandidates .eight .range fv = [channelRange fv] ∧ channelCandidates .six .range fv = [channelRange fv] ∧
    channelCandidates .eight .cluster fv =
      channelRange fv :: (partitions fv.length 8).filterMap (channelLs 7 (sortedValues fv)) ∧
    channelCandidates .six .cluster fv =
      channelRange fv :: (partitions fv.length 6).filterMap (channelLs 5 (sortedValues fv))) ∧
  (∀ sm a b,
    (evaluateChannel .eight sm (a, b)).e0 = max (quant8 a) (quant8 b) ∧
    (evaluateChannel .eight sm (a, b)).e1 = min (quant8 a) (quant8 b) ∧
    (evaluateChannel .six sm (a, b)).e0 = min (quant8 a) (quant8 b) ∧
    (evaluateChannel .six sm (a, b)).e1 = max (quant8 a) (quant8 b)) ∧
  (∀ fit sm, ∃ before after,
    (channelCandidates .eight fit (fittedValues .eight (valueSet sm))).map (evaluateChannel .eight sm) ++
      (channelCandidates .six fit (fittedValues .six (valueSet sm))).map (evaluateChannel .six sm) =
      before ++ fitChannel fit sm :: after ∧
    (∀ c ∈ before, (fitChannel fit sm).err < c.err) ∧ ∀ c ∈ after, (fitChannel fit sm).err ≤ c.err) ∧
  ∀ ch fit mask tx, encodeChannel ch fit mask tx = fitChannel fit (channelSamples ch mask tx)

/-- R134: the corner cases of the channel encoder: nothing included is stored `(0, 0)` with error 0; a block of values 0 and 255
has error 0; a constant block `c` is stored `(c, c)` with error 0. -/
def Obligations.ChannelCornerCasesAreExact : Prop :=
  (∀ fit sm, (∀ t ∈ sm, t.excl = true) → (fitChannel fit sm).err = 0 ∧ (fitChannel fit sm).e0 = 0 ∧ (fitChannel fit sm).e1 = 0) ∧
  (∀ fit sm, (∀ t ∈ sm, t.excl = false → t.x = 0 ∨ t.x = 255) → (fitChannel fit sm).err = 0) ∧
  ∀ fit sm c, c ≤ 255 → (∃ t ∈ sm, t.excl = false) → (∀ t ∈ sm, t.excl = false → t.x = c) →
    (fitChannel fit sm).err = 0 ∧ (fitChannel fit sm).e0 = c ∧ (fitChannel fit sm).e1 = c

/-! ### The image driver -/

/-- R153: the host-level errors of both operations, in the order of the rule, whatever the cores and the plan. -/
def Obligations.DriverErrorsInOrder : Prop :=
  (∀ cores plan pixels W H tag high weighted, W = 0 ∨ H = 0 →
    compressOn cores plan pixels W H tag high weighted = .error .invalidDimensions) ∧
  (∀ cores plan bytes W H tag, W = 0 ∨ H = 0 → decompressOn cores plan bytes W H tag = .error .invalidDimensions) ∧
  (∀ cores plan pixels W H tag high weighted, W ≠ 0 → H ≠ 0 → tag = 0 ∨ 5 < tag →
    compressOn cores plan pixels W H tag high weighted = .error .unsupportedFormat) ∧
  (∀ cores plan bytes W H tag, W ≠ 0 → H ≠ 0 → tag = 0 ∨ 5 < tag →
    decompressOn cores plan bytes W H tag = .error .unsupportedFormat) ∧
  (∀ cores plan pixels W H tag high weighted, W ≠ 0 → H ≠ 0 → 1 ≤ tag → tag ≤ 5 → pixels.length < W * H →
    compressOn cores plan pixels W H tag high weighted = .error .truncatedInput) ∧
  ∀ cores plan bytes W H tag fmt, W ≠ 0 → H ≠ 0 → formatOfTag tag = some fmt →
    bytes.length < blockCount W H * fmt.blockBytes → decompressOn cores plan bytes W H tag = .error .truncatedInput

/-- R155, R157: the texels of a block that reaches over the edge replicate the last valid column and row; the others are the
pixels they cover, and every pixel is covered by exactly one block and texel. -/
def Obligations.BlocksTileTheImage : Prop :=
  (∀ pixels W H k i, pixelX W k i < W → pixelY W k i < H →
    blockTexel pixels W H k i = pixelAt pixels W (pixelX W k i) (pixelY W k i)) ∧
  (∀ pixels W H k i, W ≤ pixelX W k i → pixelY W k i < H →
    blockTexel pixels W H k i = pixelAt pixels W (W - 1) (pixelY W k i)) ∧
  (∀ pixels W H k i, pixelX W k i < W → H ≤ pixelY W k i →
    blockTexel pixels W H k i = pixelAt pixels W (pixelX W k i) (H - 1)) ∧
  (∀ pixels W H k i, W ≤ pixelX W k i → H ≤ pixelY W k i →
    blockTexel pixels W H k i = pixelAt pixels W (W - 1) (H - 1)) ∧
  ∀ W H X Y, X < W → Y < H →
    ∃ k i, k < blockCount W H ∧ i ∈ insideTexels W H k ∧ pixelX W k i = X ∧ pixelY W k i = Y ∧
      ∀ k' i', i' ∈ insideTexels W H k' → pixelX W k' i' = X → pixelY W k' i' = Y → k' = k ∧ i' = i

/-- R156 to R159: `compress` with no host-level error always answers a stream of `bw·bh·s` bytes, and the same stream for every set
of idle cores, every assignment of the blocks, every order and every completion delay. Bytes `k·s .. k·s+s-1` of it, with
`k = y·bw + x`, are what the command word of R159 stores in `BLK[0..s-1]` when `PIX` holds the texels of block `(x, y)`, edges
replicated, and `MASK` is 0xFFFF. (The form of a plan is log entry 12's,
and that no reset arrives during the run log entry 17's.) -/
def Obligations.CompressDoesNotDependOnThePlan : Prop :=
  ∀ pixels W H tag fmt high weighted, W ≠ 0 → H ≠ 0 → formatOfTag tag = some fmt → W * H ≤ pixels.length →
    ∃ bytes, bytes.length = blockCount W H * fmt.blockBytes ∧
      (∀ cores plan, AllIdle cores → CompletePlan (blockCount W H) cores.length plan →
        compressOn cores plan pixels W H tag high weighted = .ok bytes) ∧
      ∀ x y, x < (W + 3) / 4 → y < (H + 3) / 4 → ∀ c t : State, c.texelMask = 0xFFFF →
        (∀ i, i < 16 → readTexel c.mem i = pixels[min (4 * y + i / 4) (H - 1) * W + min (4 * x + i % 4) (W - 1)]?) →
        perform (BitVec.ofNat 32 (2 * tag + (if high then 0x10 else 0) + (if weighted ∧ tag ≤ 3 then 0x20 else 0))) c =
          .next t →
        ∀ j, j < fmt.blockBytes → bytes[(y * ((W + 3) / 4) + x) * fmt.blockBytes + j]? = t.mem.read (0x80 + j)

/-- R155, R156, R158, R160, R163: `decompress` with no host-level error always answers `W·H` pixels, and the same ones for every set
of idle cores, every assignment, order and delay; bytes beyond the required length are ignored. The pixel at column `X` and row
`Y` is texel `4·(Y mod 4) + X mod 4` of what the decode command writes to `PIX` when `BLK[0..s-1]` holds the bytes of the block
that covers it. (The form of a plan is log entry 12's,
and that no reset arrives during the run log entry 17's.) -/
def Obligations.DecompressDoesNotDependOnThePlan : Prop :=
  ∀ bytes W H tag fmt, W ≠ 0 → H ≠ 0 → formatOfTag tag = some fmt → blockCount W H * fmt.blockBytes ≤ bytes.length →
    ∃ image, image.length = W * H ∧
      (∀ cores plan more, AllIdle cores → CompletePlan (blockCount W H) cores.length plan →
        decompressOn cores plan (bytes ++ more) W H tag = .ok image) ∧
      ∀ X Y, X < W → Y < H → ∀ c t : State,
        (∀ j, j < fmt.blockBytes →
          c.mem.read (0x80 + j) = bytes[(Y / 4 * ((W + 3) / 4) + X / 4) * fmt.blockBytes + j]?) →
        perform (BitVec.ofNat 32 (2 * tag + 1)) c = .next t →
        image[Y * W + X]? = readTexel t.mem (4 * (Y % 4) + X % 4)
end

