-- ==== Sys2Proof/Laws/Lists.lean ====
section
/-! SUPPORT. Laws of the number and list operations: digits and bytes, `allSome`, `firstMin`, `nearestIndex`. -/

namespace Sys2Proof.Machine

/-! ### `bitField` -/

theorem bitField_lt (v lo width : Nat) : bitField v lo width < 2 ^ width :=
  Nat.mod_lt _ (Nat.two_pow_pos width)

/-! ### Bytes and little-endian numbers -/

@[simp] theorem leBytes_length (n v : Nat) : (leBytes n v).length = n := by
  induction n generalizing v with
  | zero => rfl
  | succ n ih => simp [leBytes, ih]

theorem leNat_lt (bs : List Byte) : leNat bs < 256 ^ bs.length := by
  induction bs with
  | nil => simp [leNat]
  | cons b bs ih =>
    have hb := b.isLt
    simp only [leNat, List.length_cons, Nat.pow_succ]
    omega

theorem leNat_leBytes (n v : Nat) : leNat (leBytes n v) = v % 256 ^ n := by
  induction n generalizing v with
  | zero => simp [leBytes, leNat, Nat.mod_one]
  | succ n ih =>
    have h : (256 : Nat) ^ (n + 1) = 256 * 256 ^ n := by rw [pow_succ, mul_comm]
    rw [leBytes, leNat, ih, BitVec.toNat_ofNat, h, Nat.mod_mul]

theorem leNat_leBytes_of_lt {n v : Nat} (h : v < 256 ^ n) : leNat (leBytes n v) = v := by
  rw [leNat_leBytes, Nat.mod_eq_of_lt h]

theorem leBytes_leNat (bs : List Byte) : leBytes bs.length (leNat bs) = bs := by
  induction bs with
  | nil => rfl
  | cons b bs ih =>
    have hb := b.isLt
    have hdiv : (b.toNat + 256 * leNat bs) / 256 = leNat bs := by omega
    have hmod : BitVec.ofNat 8 (b.toNat + 256 * leNat bs) = b := by
      apply BitVec.eq_of_toNat_eq
      rw [BitVec.toNat_ofNat]
      omega
    rw [List.length_cons, leNat, leBytes, hdiv, ih, hmod]

/-! ### Packed indices (rule R71) -/

theorem packDigits_lt {base : Nat} {ds : List Nat} (h : ∀ d ∈ ds, d < base) :
    packDigits base ds < base ^ ds.length := by
  induction ds with
  | nil => simp [packDigits]
  | cons d ds ih =>
    have hd := h d (by simp)
    have hds := ih fun e he => h e (by simp [he])
    rw [packDigits, List.length_cons, pow_succ, mul_comm (base ^ ds.length) base]
    calc d + base * packDigits base ds < base + base * packDigits base ds := by omega
      _ = base * (packDigits base ds + 1) := by ring
      _ ≤ base * base ^ ds.length := Nat.mul_le_mul_left _ hds

/-- Digit `i` of a packed list is element `i`. -/
theorem packDigits_digit {base : Nat} {ds : List Nat} (h : ∀ d ∈ ds, d < base) {i : Nat} (hi : i < ds.length) :
    packDigits base ds / base ^ i % base = ds[i] := by
  induction ds generalizing i with
  | nil => simp at hi
  | cons d ds ih =>
    have hd : d < base := h d (by simp)
    have hb : 0 < base := by omega
    cases i with
    | zero => simp [packDigits, Nat.mod_eq_of_lt hd]
    | succ i =>
      have hdiv : (d + base * packDigits base ds) / base = packDigits base ds := by
        rw [Nat.add_mul_div_left _ _ hb, Nat.div_eq_of_lt hd, Nat.zero_add]
      rw [packDigits, Nat.pow_succ, Nat.mul_comm (base ^ i) base, ← Nat.div_div_eq_div_mul, hdiv]
      simpa using ih (fun e he => h e (by simp [he])) (by simpa using hi)

theorem bitField_eq (v lo width : Nat) : bitField v lo width = v / 2 ^ lo % 2 ^ width := rfl

/-! ### `allSome` -/

theorem allSome_eq_some {α : Type} {l : List (Option α)} {xs : List α} :
    allSome l = some xs ↔ l = xs.map some := by
  induction l generalizing xs with
  | nil => cases xs <;> simp [allSome]
  | cons o os ih =>
    cases o with
    | none => cases xs <;> simp [allSome]
    | some x =>
      cases hs : allSome os with
      | none =>
        cases xs with
        | nil => simp [allSome, hs]
        | cons y ys =>
          have : ¬ os = ys.map some := fun h => by simp [ih.2 h] at hs
          simp [allSome, hs, this]
      | some zs =>
        cases xs with
        | nil => simp [allSome, hs]
        | cons y ys =>
          have hz := ih.1 hs
          have hinj : os = ys.map some ↔ zs = ys := by
            constructor
            · intro h; exact Option.some.inj (hs.symm.trans (ih.2 h))
            · intro h; rw [hz, h]
          simp [allSome, hs, hinj]

theorem allSome_map_eq_some {α β : Type} {f : α → Option β} {l : List α} {xs : List β} :
    allSome (l.map f) = some xs ↔ l.map f = xs.map some :=
  allSome_eq_some

theorem allSome_isSome {α : Type} {l : List (Option α)} (h : ∀ o ∈ l, o.isSome) : ∃ xs, allSome l = some xs := by
  induction l with
  | nil => exact ⟨[], rfl⟩
  | cons o os ih =>
    obtain ⟨xs, hx⟩ := ih fun p hp => h p (by simp [hp])
    cases o with
    | none => simpa using h none (by simp)
    | some x => exact ⟨x :: xs, by simp [allSome, hx]⟩

theorem allSome_length {α : Type} {l : List (Option α)} {xs : List α} (h : allSome l = some xs) :
    xs.length = l.length := by
  rw [allSome_eq_some.1 h, List.length_map]

theorem allSome_eq_none {α : Type} {l : List (Option α)} : allSome l = none ↔ none ∈ l := by
  induction l with
  | nil => simp [allSome]
  | cons o os ih =>
    cases o with
    | none => simp [allSome]
    | some x =>
      cases hs : allSome os with
      | none => simp [allSome, hs, ih.1 hs]
      | some ys =>
        have : none ∉ os := fun hm => by simp [ih.2 hm] at hs
        simp [allSome, hs, this]

/-! ### `firstMin` (rules R101, R109, R118, R131) -/

section FirstMin

variable {α β : Type} [LinearOrder β] [DecidableLT β] (key : α → β)

theorem firstMin_mem (best : α) (l : List α) : firstMin key best l ∈ best :: l := by
  induction l generalizing best with
  | nil => simp [firstMin]
  | cons x xs ih =>
    rw [firstMin]
    have h := ih (if key x < key best then x else best)
    by_cases hx : key x < key best
    · rw [if_pos hx] at h ⊢
      exact List.mem_cons_of_mem _ h
    · rw [if_neg hx] at h ⊢
      rcases List.mem_cons.1 h with h | h
      · rw [h]; exact List.mem_cons_self
      · exact List.mem_cons_of_mem _ (List.mem_cons_of_mem _ h)

theorem firstMin_le_best (best : α) (l : List α) : key (firstMin key best l) ≤ key best := by
  induction l generalizing best with
  | nil => exact le_refl _
  | cons x xs ih =>
    rw [firstMin]
    refine (ih _).trans ?_
    split
    · exact le_of_lt ‹_›
    · exact le_refl _

theorem firstMin_le (best : α) (l : List α) {x : α} (hx : x ∈ best :: l) : key (firstMin key best l) ≤ key x := by
  induction l generalizing best with
  | nil => simp at hx; simp [firstMin, hx]
  | cons y ys ih =>
    rw [firstMin]
    have hle : key (firstMin key (if key y < key best then y else best) ys) ≤ key (if key y < key best then y else best) :=
      firstMin_le_best key _ _
    rcases List.mem_cons.1 hx with rfl | hx
    · refine hle.trans ?_
      split
      · exact le_of_lt ‹_›
      · exact le_refl _
    · rcases List.mem_cons.1 hx with rfl | hx
      · refine hle.trans ?_
        split
        · exact le_refl _
        · exact le_of_not_gt ‹_›
      · exact ih _ (by simp [hx])

/-- `firstMin` picks the first element of least key: everything before it has a greater key. -/
theorem firstMin_split (best : α) (l : List α) :
    ∃ pre post, best :: l = pre ++ firstMin key best l :: post ∧ (∀ x ∈ pre, key (firstMin key best l) < key x) ∧
      ∀ x ∈ post, key (firstMin key best l) ≤ key x := by
  induction l generalizing best with
  | nil => exact ⟨[], [], by simp [firstMin], by simp, by simp⟩
  | cons y ys ih =>
    rw [firstMin]
    by_cases h : key y < key best
    · rw [if_pos h]
      obtain ⟨pre, post, he, h1, h2⟩ := ih y
      refine ⟨best :: pre, post, by rw [he]; rfl, ?_, h2⟩
      intro x hx
      rcases List.mem_cons.1 hx with rfl | hx
      · exact lt_of_le_of_lt (firstMin_le_best key _ _) h
      · exact h1 x hx
    · rw [if_neg h]
      obtain ⟨pre, post, he, h1, h2⟩ := ih best
      have hb : key best ≤ key y := le_of_not_gt h
      cases pre with
      | nil =>
        obtain ⟨hbest, hys⟩ : best = firstMin key best ys ∧ ys = post := by simpa using he
        refine ⟨[], y :: post, by simp [← hbest, ← hys], by simp, ?_⟩
        intro x hx
        rcases List.mem_cons.1 hx with rfl | hx
        · rw [← hbest]; exact hb
        · exact h2 x hx
      | cons p pre =>
        obtain ⟨rfl, hys⟩ : best = p ∧ ys = pre ++ firstMin key best ys :: post := by simpa using he
        refine ⟨best :: y :: pre, post, by simp [← hys], ?_, h2⟩
        intro x hx
        have hbest := h1 best (by simp)
        rcases List.mem_cons.1 hx with rfl | hx
        · exact hbest
        · rcases List.mem_cons.1 hx with rfl | hx
          · exact lt_of_lt_of_le hbest hb
          · exact h1 x (by simp [hx])

end FirstMin

/-! ### `nearestIndex` (rule R118) -/

theorem nearestIndex_lt (dist : Nat → Nat) {n : Nat} (hn : 0 < n) : nearestIndex dist n < n := by
  have h := firstMin_mem dist 0 (List.range' 1 (n - 1))
  unfold nearestIndex
  rcases List.mem_cons.1 h with h | h
  · omega
  · have := List.mem_range'_1.1 h
    omega

theorem nearestIndex_le (dist : Nat → Nat) {n k : Nat} (hk : k < n) : dist (nearestIndex dist n) ≤ dist k := by
  apply firstMin_le
  rcases Nat.eq_zero_or_pos k with rfl | h
  · simp
  · exact List.mem_cons_of_mem _ (List.mem_range'_1.2 ⟨h, by omega⟩)

/-- Every index before the nearest one is strictly farther: ties go to the lower index. -/
theorem nearestIndex_first (dist : Nat → Nat) {n j : Nat} (hj : j < nearestIndex dist n) :
    dist (nearestIndex dist n) < dist j := by
  obtain ⟨pre, post, he, hlt, -⟩ := firstMin_split dist 0 (List.range' 1 (n - 1))
  change _ = pre ++ nearestIndex dist n :: post at he
  have hr : (0 : Nat) :: List.range' 1 (n - 1) = List.range' 0 (n - 1 + 1) := rfl
  rw [hr] at he
  have hlen : pre.length < n - 1 + 1 := by
    have := congrArg List.length he
    simp at this
    omega
  have hpos : nearestIndex dist n = pre.length := by
    have := congrArg (fun l : List Nat => l[pre.length]?) he
    simpa [List.getElem?_range', hlen] using this.symm
  have hmem : j ∈ pre := by
    have hjl : j < pre.length := hpos ▸ hj
    have := congrArg (fun l : List Nat => l[j]?) he
    simp only [List.getElem?_range' (show j < n - 1 + 1 by omega), List.getElem?_append_left hjl] at this
    exact List.mem_of_getElem? (by simpa using this.symm)
  exact hlt j hmem

end Sys2Proof.Machine
end

