-- ==== Sys2Proof/Laws/Codec.lean ====
section
/-! SUPPORT. Laws of the codec: bounds of quantizer, palettes, indices and errors; the chosen block is an evaluation; the fields
of a serialized sub-block are read back. -/

namespace Sys2Proof.Machine

/-! ### Bounds of the quantizer and the palettes (rules R113 to R117) -/

theorem clampNat_le (v : Int) (hi : Nat) : clampNat v hi ≤ hi := by
  unfold clampNat
  split
  · exact Nat.zero_le _
  · split
    · exact le_refl _
    · omega

theorem quant565_lt (a : Vec3 Rat) : quant565 a < 65536 := by
  have h1 := clampNat_le (roundHalfUp (a.r * 31 / 255)) 31
  have h2 := clampNat_le (roundHalfUp (a.g * 63 / 255)) 63
  have h3 := clampNat_le (roundHalfUp (a.b * 31 / 255)) 31
  unfold quant565 quant5 quant6
  omega

theorem quant8_le (t : Rat) : quant8 t ≤ 255 := clampNat_le _ _

theorem roundHalfUp_natCast (n : Nat) : roundHalfUp (n : Rat) = n := by
  have h : ⌊(n : Rat) + 1 / 2⌋ = (n : Int) := by
    rw [Int.floor_eq_iff]
    constructor <;> push_cast <;> linarith
  exact h

/-- An 8-bit value is its own quantization to 8 bits (rule R114). -/
theorem quant8_natCast {n : Nat} (h : n ≤ 255) : quant8 (n : Rat) = n := by
  unfold quant8
  rw [roundHalfUp_natCast]
  unfold clampNat
  rw [if_neg (by omega), if_neg (by omega)]
  simp

/-- The clamp as a maximum and a minimum. -/
theorem clampChannel_eq (t : Rat) : clampChannel t = max 0 (min 255 t) := by
  unfold clampChannel
  split
  · rename_i h
    rw [min_eq_right (by linarith), max_eq_left h.le]
  · split
    · rename_i h
      rw [min_eq_left h.le]
      norm_num
    · rename_i h h'
      rw [min_eq_right (not_lt.1 h'), max_eq_right (not_lt.1 h)]

theorem expand5_le {q : Nat} (h : q < 32) : expand5 q ≤ 255 := by
  unfold expand5
  omega

theorem expand6_le {q : Nat} (h : q < 64) : expand6 q ≤ 255 := by
  unfold expand6
  omega

theorem expand565_le (c : Nat) : (expand565 c).r ≤ 255 ∧ (expand565 c).g ≤ 255 ∧ (expand565 c).b ≤ 255 :=
  ⟨expand5_le (bitField_lt _ _ _), expand6_le (bitField_lt _ _ _), expand5_le (bitField_lt _ _ _)⟩

/-- Every entry of a color palette has channels and alpha of at most 255. -/
theorem colorAt_le (four : Bool) (c0 c1 k : Nat) :
    (colorAt (colorPalette four c0 c1) k).rgb.r ≤ 255 ∧ (colorAt (colorPalette four c0 c1) k).rgb.g ≤ 255 ∧
    (colorAt (colorPalette four c0 c1) k).rgb.b ≤ 255 ∧ (colorAt (colorPalette four c0 c1) k).alpha ≤ 255 := by
  have h0 := expand565_le c0
  have h1 := expand565_le c1
  rcases four with _ | _ <;> rcases k with _ | _ | _ | _ | k <;>
    simp [colorPalette, colorAt, blend, transparentBlack] <;> omega

/-- Every entry of a channel palette is at most 255. -/
theorem channelAt_le {e0 e1 : Nat} (h0 : e0 ≤ 255) (h1 : e1 ≤ 255) (k : Nat) :
    channelAt (channelPalette e0 e1) k ≤ 255 := by
  unfold channelPalette
  split <;> rcases k with _ | _ | _ | _ | _ | _ | _ | _ | k <;> simp [channelAt] <;> omega

theorem sqDiff_le {x y n : Nat} (hx : x ≤ n) (hy : y ≤ n) : sqDiff x y ≤ n * n := by
  unfold sqDiff
  exact Nat.mul_le_mul (by omega) (by omega)

@[simp] theorem sqDiff_self (x : Nat) : sqDiff x x = 0 := by simp [sqDiff]

/-! ### Indices -/

theorem sampleIndex_lt (P : List Entry) (four : Bool) (t : Sample) : sampleIndex P four t < 4 := by
  unfold sampleIndex
  split
  · omega
  · cases four
    · exact (nearestIndex_lt _ (by decide)).trans (by decide)
    · exact nearestIndex_lt _ (by decide)

theorem channelSampleIndex_lt (V : List Nat) (t : ChannelSample) : channelSampleIndex V t < 8 :=
  nearestIndex_lt _ (by decide)

/-! ### The axis (rules R92, R95) -/

/-- An entry of the covariance as integer sums. -/
theorem covEntry_eq (ps : List (Point (Vec3 Nat))) (f g : Vec3 Nat → Nat) :
    covEntry ps f g =
      (ps.map fun q => (q.wt : Int)).sum * (ps.map fun q => (q.wt : Int) * f q.val * g q.val).sum -
        (ps.map fun q => (q.wt : Int) * f q.val).sum * (ps.map fun q => (q.wt : Int) * g q.val).sum := by
  have h : ∀ k : Point (Vec3 Nat) → Nat, ((ps.map k).sum : Int) = (ps.map fun q => (k q : Int)).sum := by
    intro k
    clear f g
    induction ps with
    | nil => rfl
    | cons q qs ih => simp [ih]
  simp only [covEntry, totalWeight, weightedSum, h]
  push_cast
  simp only [mul_assoc]

/-- The power iteration as an iterate. -/
theorem powerIterate_eq (c : Mat3) (n : Nat) (v : Vec3 Int) : powerIterate c n v = (matVec c)^[n] v := by
  induction n generalizing v with
  | zero => rfl
  | succ n ih => exact ih _

/-! ### The chosen block is an evaluation (rules R109, R131) -/

theorem clusterPasses_eval (fmt : Format) (sm : List Sample) (ps : List (Point (Vec3 Nat))) (left pass : Nat)
    (ord : List Nat) {best : Scored} (h : ∃ c, best = evaluate fmt sm c) :
    ∃ c, clusterPasses fmt sm ps left pass ord best = evaluate fmt sm c := by
  induction left generalizing pass ord best with
  | zero => exact h
  | succ left ih =>
    have hpass : ∃ c, clusterPass fmt sm ps ord best = evaluate fmt sm c := by
      unfold clusterPass
      rcases List.mem_cons.1 (firstMin_mem (fun sc : Scored => sc.block.err) best
        ((passCandidates (clusterCount sm) ps ord).map (evaluate fmt sm))) with he | hm
      · rw [he]; exact h
      · obtain ⟨c, -, hc⟩ := List.mem_map.1 hm
        exact ⟨c, hc.symm⟩
    unfold clusterPasses
    simp only
    split
    · exact hpass
    · split
      · exact hpass
      · split
        · exact hpass
        · split
          · exact hpass
          · exact ih _ _ hpass

/-- The color fit always answers the evaluation of some candidate. -/
theorem fitColor_eval (p : Params) (fmt : Format) (fit : Fit) (sm : List Sample) :
    ∃ c, fitColor p fmt fit sm = evaluate fmt sm c := by
  cases fit with
  | range => exact ⟨_, rfl⟩
  | cluster => exact clusterPasses_eval _ _ _ _ _ _ ⟨_, rfl⟩

/-- The color encoder's block: some quantized endpoints, stored in the order of rule R119, evaluated. -/
theorem encodeColor_eval (p : Params) (fmt : Format) (fit : Fit) (wba : Bool) (mask : BitVec 16) (tx : List Texel) :
    ∃ qa qb, qa < 65536 ∧ qb < 65536 ∧
      encodeColor p fmt fit wba mask tx =
        colorBlockOf fmt (samplesOf p fmt wba mask tx)
          (storageOrder (threeColor (samplesOf p fmt wba mask tx)) qa qb).1
          (storageOrder (threeColor (samplesOf p fmt wba mask tx)) qa qb).2 := by
  obtain ⟨c, hc⟩ := fitColor_eval p fmt fit (samplesOf p fmt wba mask tx)
  exact ⟨quant565 c.a, quant565 c.b, quant565_lt _, quant565_lt _, by rw [encodeColor, hc, evaluate]⟩

theorem storageOrder_lt {three : Bool} {qa qb n : Nat} (ha : qa < n) (hb : qb < n) :
    (storageOrder three qa qb).1 < n ∧ (storageOrder three qa qb).2 < n := by
  unfold storageOrder
  split <;> exact ⟨by omega, by omega⟩

theorem channelOrder_le {mode : ChannelMode} {qa qb n : Nat} (ha : qa ≤ n) (hb : qb ≤ n) :
    (channelOrder mode qa qb).1 ≤ n ∧ (channelOrder mode qa qb).2 ≤ n := by
  unfold channelOrder
  cases mode
  · simp only
    split <;> exact ⟨by omega, by omega⟩
  · simp only
    exact ⟨by omega, by omega⟩

/-- An evaluated candidate of a mode: two 8-bit endpoints in that mode's order (rule R129). -/
theorem evaluateChannel_eval (mode : ChannelMode) (sm : List ChannelSample) (c : Rat × Rat) :
    ∃ e0 e1, e0 ≤ 255 ∧ e1 ≤ 255 ∧ evaluateChannel mode sm c = channelBlockOf sm e0 e1 := by
  have h := channelOrder_le (mode := mode) (quant8_le c.1) (quant8_le c.2)
  exact ⟨_, _, h.1, h.2, rfl⟩

/-- The channel fit answers one of the evaluated candidates. -/
theorem fitChannel_mem (fit : Fit) (sm : List ChannelSample) : ∃ mode c, fitChannel fit sm = evaluateChannel mode sm c := by
  rcases List.mem_cons.1 (firstMin_mem (fun b : ChannelBlock => b.err)
    (evaluateChannel .eight sm (channelRange (fittedValues .eight (valueSet sm))))
    (channelBlocks .eight fit sm ++ channelBlocks .six fit sm)) with he | hm
  · exact ⟨_, _, he⟩
  · rcases List.mem_append.1 hm with hm | hm
    all_goals
      obtain ⟨c, -, hc⟩ := List.mem_map.1 hm
      exact ⟨_, c, hc.symm⟩

/-- The channel fit's block: two 8-bit endpoints, evaluated. -/
theorem fitChannel_eval (fit : Fit) (sm : List ChannelSample) :
    ∃ e0 e1, e0 ≤ 255 ∧ e1 ≤ 255 ∧ fitChannel fit sm = channelBlockOf sm e0 e1 := by
  obtain ⟨mode, c, h⟩ := fitChannel_mem fit sm
  rw [h]
  exact evaluateChannel_eval mode sm c

theorem encodeChannel_eval (ch : Texel → Byte) (fit : Fit) (mask : BitVec 16) (tx : List Texel) :
    ∃ e0 e1, e0 ≤ 255 ∧ e1 ≤ 255 ∧
      encodeChannel ch fit mask tx = channelBlockOf (channelSamples ch mask tx) e0 e1 :=
  fitChannel_eval _ _

/-! ### Range fit of values below a bound (rule R164) -/

theorem sqDiff_le_iff (x y z : Nat) : sqDiff x y ≤ sqDiff x z ↔ (x - y) + (y - x) ≤ (x - z) + (z - x) :=
  ⟨fun h => Nat.mul_self_le_mul_self_iff.1 h, fun h => Nat.mul_self_le_mul_self h⟩

/-- Values that are at most an entry `M` of the palette decode to at most `M`. -/
theorem channelBlockOf_le {sm : List ChannelSample} {e0 e1 M : Nat} (hM : ∃ j, j < 8 ∧ channelAt (channelPalette e0 e1) j = M)
    (h : ∀ t ∈ sm, t.x ≤ M) : ∀ k ∈ (channelBlockOf sm e0 e1).idx, channelAt (channelPalette e0 e1) k ≤ M := by
  obtain ⟨j, hj, rfl⟩ := hM
  intro k hk
  obtain ⟨t, ht, rfl⟩ := List.mem_map.1 hk
  have h1 := nearestIndex_le (fun k => sqDiff t.x (channelAt (channelPalette e0 e1) k)) hj
  have h2 := h t ht
  rw [sqDiff_le_iff] at h1
  change channelAt _ (nearestIndex _ 8) ≤ _
  omega

/-- A value is in the ValueSet exactly when an included texel has it (rule R125). -/
theorem mem_valueSet {sm : List ChannelSample} {x : Nat} :
    x ∈ (valueSet sm).map (·.val) ↔ ∃ t ∈ sm, t.excl = false ∧ t.x = x := by
  have hadd : ∀ (ps : List (Point Nat)) (c w : Nat), x ∈ (addPoint ps c w).map (·.val) ↔ x ∈ ps.map (·.val) ∨ x = c := by
    intro ps c w
    induction ps with
    | nil => simp [addPoint]
    | cons q qs ih =>
      simp only [addPoint]
      split
      · rename_i h
        simp only [List.map_cons, List.mem_cons, h]
        tauto
      · simp only [List.map_cons, List.mem_cons, ih]
        tauto
  have key : ∀ ps : List (Point Nat),
      x ∈ (sm.foldl (fun ps t => if t.excl then ps else addPoint ps t.x 1) ps).map (·.val) ↔
        x ∈ ps.map (·.val) ∨ ∃ t ∈ sm, t.excl = false ∧ t.x = x := by
    induction sm with
    | nil => simp
    | cons t ts ih =>
      intro ps
      rw [List.foldl_cons, ih]
      cases ht : t.excl
      · simp only [Bool.false_eq_true, if_false, hadd, List.exists_mem_cons_iff, ht, true_and]
        tauto
      · simp [ht]
  unfold valueSet
  simpa using key []

/-- The range candidate of a mode: two of the fitted values, the second the greatest (rule R127). -/
theorem channelRange_snd {fv : List (Point Nat)} (h : fv ≠ []) :
    ∃ m M : Nat, channelRange fv = ((m : Rat), (M : Rat)) ∧ m ≤ M ∧ M ∈ fv.map (·.val) ∧ ∀ q ∈ fv, q.val ≤ M := by
  obtain ⟨q, qs, rfl⟩ := List.exists_cons_of_ne_nil h
  have hmin : ∀ (l : List (Point Nat)) (a : Nat), l.foldl (fun acc p => min acc p.val) a ≤ a := by
    intro l
    induction l with
    | nil => intro a; exact le_refl _
    | cons p l ih => intro a; exact (ih _).trans (min_le_left _ _)
  have hmax : ∀ (l : List (Point Nat)) (a : Nat), a ≤ l.foldl (fun acc p => max acc p.val) a ∧
      (∀ p ∈ l, p.val ≤ l.foldl (fun acc p => max acc p.val) a) ∧
      (l.foldl (fun acc p => max acc p.val) a = a ∨ l.foldl (fun acc p => max acc p.val) a ∈ l.map (·.val)) := by
    intro l
    induction l with
    | nil => intro a; simp
    | cons p l ih =>
      intro a
      obtain ⟨h1, h2, h3⟩ := ih (max a p.val)
      simp only [List.foldl_cons, List.mem_cons, List.map_cons]
      refine ⟨(le_max_left _ _).trans h1, ?_, ?_⟩
      · rintro r (rfl | hr)
        · exact (le_max_right _ _).trans h1
        · exact h2 r hr
      · rcases h3 with h3 | h3
        · rw [h3]
          rcases max_choice a p.val with h | h <;> simp [h]
        · exact .inr (.inr h3)
  obtain ⟨h1, h2, h3⟩ := hmax qs q.val
  refine ⟨_, _, rfl, (hmin qs q.val).trans h1, ?_, ?_⟩
  · rcases h3 with h3 | h3
    · rw [h3]; simp
    · exact List.mem_cons_of_mem _ h3
  · rintro p hp
    rcases List.mem_cons.1 hp with rfl | hp
    · exact h1
    · exact h2 p hp

/-- The range candidate of either mode keeps rule R164: included values that are all below a bound decode below it. -/
theorem range_decodesBelow {n : Nat} {sm : List ChannelSample} (mode : ChannelMode)
    (h : ∀ t ∈ sm, t.excl = false ∧ t.x < n) {b : ChannelBlock}
    (hb : b = evaluateChannel mode sm (channelRange (fittedValues mode (valueSet sm)))) :
    ∀ k ∈ b.idx, channelAt (channelPalette b.e0 b.e1) k < n := by
  subst hb
  intro k hk
  obtain ⟨e0, e1, he0, he1, he⟩ := evaluateChannel_eval mode sm (channelRange (fittedValues mode (valueSet sm)))
  by_cases hthr : 255 < n
  · rw [he]
    exact (channelAt_le he0 he1 k).trans_lt hthr
  have hmem : ∀ t ∈ sm, t.x ∈ (valueSet sm).map (·.val) := fun t ht => mem_valueSet.2 ⟨t, ht, (h t ht).1, rfl⟩
  have hlt : ∀ q ∈ valueSet sm, q.val < n := by
    intro q hq
    obtain ⟨t, ht, -, hx⟩ := mem_valueSet.1 (List.mem_map_of_mem (f := (·.val)) hq)
    exact hx ▸ (h t ht).2
  by_cases hf : fittedValues mode (valueSet sm) = []
  · have hz : ∀ t ∈ sm, t.x = 0 := by
      intro t ht
      obtain ⟨q, hq, hx⟩ := List.mem_map.1 (hmem t ht)
      cases mode with
      | eight => rw [show valueSet sm = [] from hf] at hq; exact absurd hq (by simp)
      | six =>
        have := (List.filter_eq_nil_iff.1 hf) q hq
        have := (h t ht).2
        simp at *
        omega
    rw [hf] at hk ⊢
    cases mode
    all_goals
      have hq : quant8 0 = 0 := quant8_natCast (n := 0) (by omega)
      simp only [channelRange, evaluateChannel, channelOrder, hq, if_true, max_self, min_self] at hk ⊢
      have hle := channelBlockOf_le (M := 0) ⟨0, by omega, rfl⟩ (fun t ht => (hz t ht).le) k hk
      obtain ⟨t, ht, -⟩ := List.mem_map.1 hk
      exact hle.trans_lt ((Nat.zero_le _).trans_lt (h t ht).2)
  · obtain ⟨m, M, hr, hmM, hM, hle⟩ := channelRange_snd hf
    obtain ⟨q, hq, rfl⟩ := List.mem_map.1 hM
    have hqv : q ∈ valueSet sm := by
      cases mode
      · exact hq
      · exact (List.mem_filter.1 hq).1
    have hx : ∀ t ∈ sm, t.x ≤ q.val := by
      intro t ht
      obtain ⟨r, hrv, hx⟩ := List.mem_map.1 (hmem t ht)
      cases mode
      · exact hx ▸ hle r hrv
      · by_cases h0 : t.x = 0
        · omega
        · have := (h t ht).2
          refine hx ▸ hle r (List.mem_filter.2 ⟨hrv, ?_⟩)
          simp
          omega
    have hq255 : q.val ≤ 255 := by have := hlt q hqv; omega
    rw [hr] at hk ⊢
    refine (?_ : channelAt _ k ≤ q.val).trans_lt (hlt q hqv)
    cases mode with
    | eight =>
      simp only [evaluateChannel, channelOrder, quant8_natCast hq255, quant8_natCast (hmM.trans hq255), max_eq_right hmM,
        min_eq_left hmM] at hk ⊢
      by_cases heq : m = q.val
      · simp only [heq, if_true] at hk ⊢
        exact channelBlockOf_le ⟨0, by omega, by unfold channelPalette; split <;> rfl⟩ hx k hk
      · simp only [heq, if_false] at hk ⊢
        exact channelBlockOf_le ⟨0, by omega, by unfold channelPalette; split <;> rfl⟩ hx k hk
    | six =>
      simp only [evaluateChannel, channelOrder, quant8_natCast hq255, quant8_natCast (hmM.trans hq255), max_eq_right hmM,
        min_eq_left hmM] at hk ⊢
      exact channelBlockOf_le ⟨1, by omega, by unfold channelPalette; split <;> rfl⟩ hx k hk

/-- Rule R164 for BC3 alpha with `FIT = 0`: included values that are all below a bound decode below it. -/
theorem fitChannel_range_decodesBelow {n : Nat} {sm : List ChannelSample} (h : ∀ t ∈ sm, t.excl = false ∧ t.x < n) :
    ∀ k ∈ (fitChannel .range sm).idx,
      channelAt (channelPalette (fitChannel .range sm).e0 (fitChannel .range sm).e1) k < n := by
  have hm : fitChannel .range sm ∈
      [evaluateChannel .eight sm (channelRange (fittedValues .eight (valueSet sm))),
       evaluateChannel .eight sm (channelRange (fittedValues .eight (valueSet sm))),
       evaluateChannel .six sm (channelRange (fittedValues .six (valueSet sm)))] := firstMin_mem _ _ _
  simp only [List.mem_cons, List.not_mem_nil, or_false] at hm
  rcases hm with hm | hm | hm
  · exact range_decodesBelow .eight h hm
  · exact range_decodesBelow .eight h hm
  · exact range_decodesBelow .six h hm

/-! ### Bounds of the errors (rule R25) -/

theorem sum_map_le {α : Type} (l : List α) (f : α → Nat) (b : Nat) (h : ∀ x ∈ l, f x ≤ b) : (l.map f).sum ≤ l.length * b := by
  induction l with
  | nil => simp
  | cons x xs ih =>
    have h1 := h x (by simp)
    have h2 := ih fun y hy => h y (by simp [hy])
    rw [List.map_cons, List.sum_cons, List.length_cons, Nat.add_mul]
    omega

theorem samplesOf_mem {p : Params} {fmt : Format} {wba : Bool} {mask : BitVec 16} {tx : List Texel} {t : Sample}
    (h : t ∈ samplesOf p fmt wba mask tx) : ∃ i x, t = sampleOf p fmt wba mask i x := by
  obtain ⟨i, hi, rfl⟩ := List.mem_mapIdx.1 h
  exact ⟨i, _, rfl⟩

theorem texelWeight_le (wba : Bool) (t : Texel) : texelWeight wba t ≤ 256 := by
  have := t.a.isLt
  unfold texelWeight
  split <;> omega

theorem texelWeight_pos (wba : Bool) (t : Texel) : 1 ≤ texelWeight wba t := by
  unfold texelWeight
  split <;> omega

theorem texelRgb_le (t : Texel) : (texelRgb t).r ≤ 255 ∧ (texelRgb t).g ≤ 255 ∧ (texelRgb t).b ≤ 255 := by
  have h1 := t.r.isLt
  have h2 := t.g.isLt
  have h3 := t.b.isLt
  exact ⟨by simp [texelRgb]; omega, by simp [texelRgb]; omega, by simp [texelRgb]; omega⟩

/-- The color error of a block of sixteen texels fits in 31 bits. -/
theorem encodeColor_err_le (p : Params) (fmt : Format) (fit : Fit) (wba : Bool) (mask : BitVec 16) {tx : List Texel}
    (h : tx.length = 16) : (encodeColor p fmt fit wba mask tx).err ≤ 16 * (256 * (3 * (255 * 255))) := by
  obtain ⟨qa, qb, -, -, he⟩ := encodeColor_eval p fmt fit wba mask tx
  rw [he]
  have hl : (samplesOf p fmt wba mask tx).length = 16 := by simp [samplesOf, h]
  rw [← hl]
  apply sum_map_le
  intro t ht
  obtain ⟨i, x, rfl⟩ := samplesOf_mem ht
  unfold sampleError
  split
  · omega
  · apply Nat.mul_le_mul (texelWeight_le wba x)
    have hx := texelRgb_le x
    have hc := colorAt_le (fourColorMode fmt (storageOrder (threeColor (samplesOf p fmt wba mask tx)) qa qb).1
      (storageOrder (threeColor (samplesOf p fmt wba mask tx)) qa qb).2)
      (storageOrder (threeColor (samplesOf p fmt wba mask tx)) qa qb).1
      (storageOrder (threeColor (samplesOf p fmt wba mask tx)) qa qb).2
    refine (Nat.add_le_add (Nat.add_le_add (sqDiff_le hx.1 (hc _).1) (sqDiff_le hx.2.1 (hc _).2.1))
      (sqDiff_le hx.2.2 (hc _).2.2.1)).trans ?_
    omega

/-- The error of a channel of sixteen texels, for any two 8-bit endpoints. -/
theorem channelBlockOf_err_le (ch : Texel → Byte) (mask : BitVec 16) {tx : List Texel} (h : tx.length = 16) {e0 e1 : Nat}
    (h0 : e0 ≤ 255) (h1 : e1 ≤ 255) : (channelBlockOf (channelSamples ch mask tx) e0 e1).err ≤ 16 * (255 * 255) := by
  have hl : (channelSamples ch mask tx).length = 16 := by simp [channelSamples, h]
  rw [← hl]
  apply sum_map_le
  intro t ht
  obtain ⟨i, hi, rfl⟩ := List.mem_mapIdx.1 ht
  unfold channelSampleError
  split
  · omega
  · have := (ch tx[i]).isLt
    exact sqDiff_le (by simp only; omega) (channelAt_le h0 h1 _)

theorem encodeChannel_err_le (ch : Texel → Byte) (fit : Fit) (mask : BitVec 16) {tx : List Texel}
    (h : tx.length = 16) : (encodeChannel ch fit mask tx).err ≤ 16 * (255 * 255) := by
  obtain ⟨e0, e1, h0, h1, he⟩ := encodeChannel_eval ch fit mask tx
  rw [he]
  exact channelBlockOf_err_le ch mask h h0 h1

/-! ### Reading back a serialized sub-block (rules R67 to R71) -/

/-- A field written little-endian in the middle of a block is read back. -/
theorem blockField_append (pre post : List Byte) (n v : Nat) (hv : v < 256 ^ n) :
    blockField (pre ++ leBytes n v ++ post) pre.length n = v := by
  unfold blockField
  rw [List.append_assoc, List.drop_left]
  have : (leBytes n v ++ post).take n = leBytes n v := by
    rw [List.take_append_of_le_length (by simp), List.take_of_length_le (by simp)]
  rw [this, leNat_leBytes_of_lt hv]

theorem colorIndex_packDigits {ds : List Nat} (h : ∀ d ∈ ds, d < 4) {i : Nat} (hi : i < ds.length) :
    colorIndex (packDigits 4 ds) i = ds[i] := by
  rw [colorIndex, bitField_eq, show (2 : Nat) ^ (2 * i) = 4 ^ i by rw [pow_mul]; norm_num]
  exact packDigits_digit h hi

theorem channelIndex_packDigits {ds : List Nat} (h : ∀ d ∈ ds, d < 8) {i : Nat} (hi : i < ds.length) :
    channelIndex (packDigits 8 ds) i = ds[i] := by
  rw [channelIndex, bitField_eq, show (2 : Nat) ^ (3 * i) = 8 ^ i by rw [pow_mul]; norm_num]
  exact packDigits_digit h hi

theorem alphaNibble_packDigits {ds : List Nat} (h : ∀ d ∈ ds, d < 16) {i : Nat} (hi : i < ds.length) :
    alphaNibble (packDigits 16 ds) i = ds[i] := by
  rw [alphaNibble, bitField_eq, show (2 : Nat) ^ (4 * i) = 16 ^ i by rw [pow_mul]; norm_num]
  exact packDigits_digit h hi

/-- Decoding a color sub-block that was just serialized gives the entries its indices name. -/
theorem decodeColor_colorBytes (fmt : Format) (pre post : List Byte) {c0 c1 : Nat} {idx : List Nat} (h0 : c0 < 65536)
    (h1 : c1 < 65536) (hl : idx.length = 16) (hi : ∀ d ∈ idx, d < 4) :
    decodeColor fmt pre.length (pre ++ colorBytes c0 c1 idx ++ post) =
      idx.map (colorAt (colorPalette (fourColorMode fmt c0 c1) c0 c1)) := by
  have hp : packDigits 4 idx < 256 ^ 4 := by
    have := packDigits_lt hi
    rw [hl] at this
    exact this.trans_le (by decide)
  have e0 : blockField (pre ++ colorBytes c0 c1 idx ++ post) pre.length 2 = c0 := by
    have := blockField_append pre (leBytes 2 c1 ++ leBytes 4 (packDigits 4 idx) ++ post) 2 c0 (by simpa using h0)
    simpa [colorBytes, List.append_assoc] using this
  have e1 : blockField (pre ++ colorBytes c0 c1 idx ++ post) (pre.length + 2) 2 = c1 := by
    have := blockField_append (pre ++ leBytes 2 c0) (leBytes 4 (packDigits 4 idx) ++ post) 2 c1 (by simpa using h1)
    simpa [colorBytes, List.append_assoc] using this
  have e2 : blockField (pre ++ colorBytes c0 c1 idx ++ post) (pre.length + 4) 4 = packDigits 4 idx := by
    have := blockField_append (pre ++ leBytes 2 c0 ++ leBytes 2 c1) post 4 (packDigits 4 idx) hp
    simpa [colorBytes, List.append_assoc, Nat.add_assoc] using this
  unfold decodeColor
  simp only [e0, e1, e2]
  apply List.ext_getElem
  · simp [hl]
  · intro i hi1 hi2
    have hlt : i < idx.length := by simpa using hi2
    simp [colorIndex_packDigits hi hlt]

/-- Decoding a channel sub-block that was just serialized gives the entries its indices name. -/
theorem decodeChannel_channelBytes (pre post : List Byte) {e0 e1 : Nat} {idx : List Nat} (h0 : e0 ≤ 255) (h1 : e1 ≤ 255)
    (hl : idx.length = 16) (hi : ∀ d ∈ idx, d < 8) :
    decodeChannel pre.length (pre ++ channelBytes e0 e1 idx ++ post) =
      idx.map (channelAt (channelPalette e0 e1)) := by
  have hp : packDigits 8 idx < 256 ^ 6 := by
    have := packDigits_lt hi
    rw [hl] at this
    exact this.trans_le (by decide)
  have f0 : blockField (pre ++ channelBytes e0 e1 idx ++ post) pre.length 1 = e0 := by
    have := blockField_append pre (leBytes 1 e1 ++ leBytes 6 (packDigits 8 idx) ++ post) 1 e0 (by omega)
    simpa [channelBytes, List.append_assoc] using this
  have f1 : blockField (pre ++ channelBytes e0 e1 idx ++ post) (pre.length + 1) 1 = e1 := by
    have := blockField_append (pre ++ leBytes 1 e0) (leBytes 6 (packDigits 8 idx) ++ post) 1 e1 (by omega)
    simpa [channelBytes, List.append_assoc] using this
  have f2 : blockField (pre ++ channelBytes e0 e1 idx ++ post) (pre.length + 2) 6 = packDigits 8 idx := by
    have := blockField_append (pre ++ leBytes 1 e0 ++ leBytes 1 e1) post 6 (packDigits 8 idx) hp
    simpa [channelBytes, List.append_assoc, Nat.add_assoc] using this
  unfold decodeChannel
  simp only [f0, f1, f2]
  apply List.ext_getElem
  · simp [hl]
  · intro i hi1 hi2
    have hlt : i < idx.length := by simpa using hi2
    simp [channelIndex_packDigits hi hlt]

/-- Decoding an explicit alpha sub-block that was just serialized gives 17 times each nibble. -/
theorem decodeAlpha_alphaBytes (post : List Byte) {a4 : List Nat} (hl : a4.length = 16) (hi : ∀ d ∈ a4, d < 16) :
    decodeAlpha (alphaBytes a4 ++ post) = a4.map (17 * ·) := by
  have hp : packDigits 16 a4 < 256 ^ 8 := by
    have := packDigits_lt hi
    rw [hl] at this
    exact this.trans_le (by decide)
  have e : blockField (alphaBytes a4 ++ post) 0 8 = packDigits 16 a4 := by
    simpa [alphaBytes] using blockField_append [] post 8 (packDigits 16 a4) hp
  unfold decodeAlpha
  simp only [e]
  apply List.ext_getElem
  · simp [hl]
  · intro i hi1 hi2
    have hlt : i < a4.length := by simpa using hi2
    simp [alphaNibble_packDigits hi hlt]

end Sys2Proof.Machine
end

