-- ==== Sys2Proof/Laws/Memory.lean ====
section
/-! SUPPORT. Laws of the buffers' memory: read after write, everything else unchanged, the canonical form kept, and what reading
several bytes, a word, the texels or the block bytes says. -/

namespace Sys2Proof.Machine

/-! ### One byte -/

@[simp] theorem Memory.read_nil (a : Nat) : Memory.read [] a = none := rfl

theorem Memory.read_write (m : Memory) (a x : Nat) (b : Byte) :
    (m.write a b).read x = if x = a then some b else m.read x := by
  induction m with
  | nil =>
    simp only [Memory.write, Memory.read]
    by_cases h : a = x
    · simp [h]
    · simp [h, Ne.symm h]
  | cons c cs ih =>
    simp only [Memory.write]
    split
    · by_cases h : a = x
      · simp [Memory.read, h]
      · simp [Memory.read, h, Ne.symm h]
    · split
      · rename_i h1 h2
        by_cases h : a = x
        · simp [Memory.read, h]
        · simp [Memory.read, h, Ne.symm h, ← h2]
      · rename_i h1 h2
        simp only [Memory.read, ih]
        by_cases h : c.1 = x
        · have : x ≠ a := fun e => h2 (e.symm.trans h.symm)
          simp [h, this]
        · simp [h]

@[simp] theorem Memory.read_write_same (m : Memory) (a : Nat) (b : Byte) : (m.write a b).read a = some b := by
  simp [Memory.read_write]

theorem Memory.read_write_other (m : Memory) {a x : Nat} (b : Byte) (h : x ≠ a) : (m.write a b).read x = m.read x := by
  simp [Memory.read_write, h]

/-! ### Several bytes -/

theorem Memory.read_writeBytes (m : Memory) (a x : Nat) (bs : List Byte) :
    (m.writeBytes a bs).read x = if a ≤ x ∧ x < a + bs.length then bs[x - a]? else m.read x := by
  induction bs generalizing m a with
  | nil =>
    have : ¬ (a ≤ x ∧ x < a + ([] : List Byte).length) := by simp
    rw [if_neg this]
    rfl
  | cons b bs ih =>
    rw [Memory.writeBytes, ih, Memory.read_write, List.length_cons]
    by_cases h1 : a + 1 ≤ x ∧ x < a + 1 + bs.length
    · have h2 : a ≤ x ∧ x < a + (bs.length + 1) := by omega
      have h3 : x - a = (x - (a + 1)) + 1 := by omega
      rw [if_pos h1, if_pos h2, h3, List.getElem?_cons_succ]
    · rw [if_neg h1]
      by_cases h2 : x = a
      · subst h2
        have h3 : x ≤ x ∧ x < x + (bs.length + 1) := by omega
        rw [if_pos rfl, if_pos h3]
        simp
      · have h3 : ¬ (a ≤ x ∧ x < a + (bs.length + 1)) := by omega
        rw [if_neg h2, if_neg h3]

theorem Memory.read_writeBytes_inside (m : Memory) {a x : Nat} {bs : List Byte} (h : a ≤ x) (h' : x < a + bs.length) :
    (m.writeBytes a bs).read x = bs[x - a]? := by
  rw [Memory.read_writeBytes, if_pos ⟨h, h'⟩]

theorem Memory.read_writeBytes_outside (m : Memory) {a x : Nat} {bs : List Byte} (h : x < a ∨ a + bs.length ≤ x) :
    (m.writeBytes a bs).read x = m.read x := by
  rw [Memory.read_writeBytes, if_neg (by omega)]

theorem Memory.readBytes_eq_some {m : Memory} {a n : Nat} {bs : List Byte} :
    m.readBytes a n = some bs ↔ bs.length = n ∧ ∀ i, (h : i < bs.length) → m.read (a + i) = some bs[i] := by
  rw [Memory.readBytes, allSome_eq_some]
  constructor
  · intro h
    have hl : bs.length = n := by simpa using (congrArg List.length h).symm
    refine ⟨hl, fun i hi => ?_⟩
    have := congrArg (fun l : List (Option Byte) => l[i]?) h
    simpa [hi, hl ▸ hi] using this
  · rintro ⟨hl, h⟩
    subst hl
    apply List.ext_getElem
    · simp
    · intro i h1 h2
      have hi : i < bs.length := by simpa using h1
      simpa using h i hi

/-- Reading back the bytes just written. -/
theorem Memory.readBytes_writeBytes (m : Memory) (a : Nat) (bs : List Byte) :
    (m.writeBytes a bs).readBytes a bs.length = some bs := by
  rw [Memory.readBytes_eq_some]
  refine ⟨rfl, fun i hi => ?_⟩
  rw [Memory.read_writeBytes_inside m (by omega) (by omega)]
  simp [hi]

theorem Memory.readBytes_isSome {m : Memory} {a n : Nat} :
    (∃ bs, m.readBytes a n = some bs) ↔ ∀ i, i < n → (m.read (a + i)).isSome := by
  constructor
  · rintro ⟨bs, h⟩ i hi
    obtain ⟨hl, h⟩ := Memory.readBytes_eq_some.1 h
    rw [h i (by omega)]
    rfl
  · intro h
    apply allSome_isSome
    intro o ho
    obtain ⟨j, hj, rfl⟩ := List.mem_map.1 ho
    exact h j (List.mem_range.1 hj)

/-! ### One word (rules R41, R42, R45) -/

@[simp] theorem Memory.readWord_writeWord (m : Memory) (a : Nat) (v : Word) : (m.writeWord a v).readWord a = some v := by
  have h := Memory.readBytes_writeBytes m a (leBytes 4 v.toNat)
  rw [leBytes_length] at h
  rw [Memory.readWord, Memory.writeWord, h]
  have hv := v.isLt
  simp only [leNat_leBytes_of_lt (show v.toNat < 256 ^ 4 by omega)]
  simp

theorem Memory.readWord_writeWord_other (m : Memory) {a x : Nat} (v : Word) (h : x + 4 ≤ a ∨ a + 4 ≤ x) :
    (m.writeWord a v).readWord x = m.readWord x := by
  have : (m.writeWord a v).readBytes x 4 = m.readBytes x 4 := by
    rw [Memory.readBytes, Memory.readBytes, Memory.writeWord]
    congr 1
    apply List.map_congr_left
    intro j hj
    have := List.mem_range.1 hj
    apply Memory.read_writeBytes_outside
    rw [leBytes_length]
    omega
  rw [Memory.readWord, Memory.readWord, this]

theorem Memory.readWord_eq_none {m : Memory} {a : Nat} :
    m.readWord a = none ↔ ∃ j, j < 4 ∧ m.read (a + j) = none := by
  rw [Memory.readWord]
  cases h : m.readBytes a 4 with
  | none =>
    rw [Memory.readBytes, allSome_eq_none] at h
    obtain ⟨j, hj, hn⟩ := List.mem_map.1 h
    simp only [true_iff]
    exact ⟨j, List.mem_range.1 hj, hn⟩
  | some bs =>
    simp only [false_iff, reduceCtorEq]
    rintro ⟨j, hj, hn⟩
    have := Memory.readBytes_isSome.1 ⟨bs, h⟩ j hj
    simp [hn] at this

/-! ### The canonical form -/

theorem Memory.rising_cons {c : Host.Cell} {cs : Memory} :
    Memory.rising (c :: cs) = true ↔ (∀ d ∈ cs.head?, c.1 < d.1) ∧ Memory.rising cs = true := by
  cases cs with
  | nil => simp [Memory.rising]
  | cons d ds => simp [Memory.rising]

theorem Memory.rising_write {m : Memory} {a : Nat} {b : Byte} (h : m.rising = true) : (m.write a b).rising = true := by
  induction m with
  | nil => rfl
  | cons c cs ih =>
    obtain ⟨hc, hcs⟩ := Memory.rising_cons.1 h
    simp only [Memory.write]
    split
    · rw [Memory.rising_cons]
      exact ⟨by simpa using ‹a < c.1›, h⟩
    · split
      · rename_i h1 h2
        rw [Memory.rising_cons]
        refine ⟨?_, hcs⟩
        simpa [h2] using hc
      · rename_i h1 h2
        rw [Memory.rising_cons]
        refine ⟨?_, ih hcs⟩
        cases cs with
        | nil => simp [Memory.write]; omega
        | cons d ds =>
          have hd : c.1 < d.1 := hc d (by simp)
          simp only [Memory.write]
          split
          · simp; omega
          · split
            · simp; omega
            · simpa using hd

theorem Memory.mem_write {m : Memory} {a : Nat} {b : Byte} {c : Host.Cell} (h : c ∈ m.write a b) :
    c = (a, b) ∨ c ∈ m := by
  induction m with
  | nil => simpa [Memory.write] using h
  | cons d ds ih =>
    simp only [Memory.write] at h
    split at h
    · rcases List.mem_cons.1 h with rfl | h
      · exact .inl rfl
      · exact .inr h
    · split at h
      · rcases List.mem_cons.1 h with rfl | h
        · exact .inl rfl
        · exact .inr (by simp [h])
      · rcases List.mem_cons.1 h with rfl | h
        · exact .inr (by simp)
        · rcases ih h with h | h
          · exact .inl h
          · exact .inr (by simp [h])

theorem Memory.wf_nil : Memory.wf [] = true := rfl

/-- Writing one buffer byte keeps the form. -/
theorem Memory.wf_write {m : Memory} {a : Nat} {b : Byte} (h : m.wf = true) (ha : inBuffers a = true) :
    (m.write a b).wf = true := by
  rw [Memory.wf, Bool.and_eq_true] at h ⊢
  refine ⟨Memory.rising_write h.1, List.all_eq_true.2 fun c hc => ?_⟩
  rcases Memory.mem_write hc with rfl | hc
  · exact ha
  · exact List.all_eq_true.1 h.2 c hc

/-- Writing bytes inside the buffers keeps the form. -/
theorem Memory.wf_writeBytes {m : Memory} {a : Nat} {bs : List Byte} (h : m.wf = true) (ha : 0x40 ≤ a)
    (hb : a + bs.length ≤ 0x90) : (m.writeBytes a bs).wf = true := by
  induction bs generalizing m a with
  | nil => exact h
  | cons b bs ih =>
    rw [List.length_cons] at hb
    refine ih (Memory.wf_write h ?_) (by omega) (by omega)
    simp only [inBuffers, Bool.and_eq_true, decide_eq_true_eq]
    omega

/-- Writing a word inside the buffers keeps the form. -/
theorem Memory.wf_writeWord {m : Memory} {a : Nat} {v : Word} (h : m.wf = true) (ha : 0x40 ≤ a) (hb : a + 4 ≤ 0x90) :
    (m.writeWord a v).wf = true :=
  Memory.wf_writeBytes h ha (by rw [leBytes_length]; exact hb)

theorem Memory.read_of_below {m : Memory} {a : Nat} (h : m.rising = true) (hb : ∀ d ∈ m.head?, a < d.1) :
    m.read a = none := by
  induction m with
  | nil => rfl
  | cons c cs ih =>
    obtain ⟨hc, hcs⟩ := Memory.rising_cons.1 h
    have hac : a < c.1 := hb c (by simp)
    rw [Memory.read, if_neg (by omega)]
    exact ih hcs fun d hd => hac.trans (hc d hd)

/-- Equal memories are equal data: two canonical memories that read alike are the same list. -/
theorem Memory.ext_of_rising {m m' : Memory} (h : m.rising = true) (h' : m'.rising = true)
    (hr : ∀ a, m.read a = m'.read a) : m = m' := by
  induction m generalizing m' with
  | nil =>
    cases m' with
    | nil => rfl
    | cons d ds => simpa [Memory.read] using hr d.1
  | cons c cs ih =>
    cases m' with
    | nil => simpa [Memory.read] using hr c.1
    | cons d ds =>
      obtain ⟨hc, hcs⟩ := Memory.rising_cons.1 h
      obtain ⟨hd, hds⟩ := Memory.rising_cons.1 h'
      have hcd : c.1 = d.1 := by
        rcases lt_trichotomy c.1 d.1 with hlt | heq | hgt
        · have h1 := hr c.1
          rw [Memory.read_of_below h' (by simpa using hlt)] at h1
          simp [Memory.read] at h1
        · exact heq
        · have h1 := hr d.1
          rw [Memory.read_of_below h (by simpa using hgt)] at h1
          simp [Memory.read] at h1
      have hval : c = d := by
        have h1 := hr c.1
        rw [Memory.read, Memory.read, if_pos rfl, if_pos hcd.symm] at h1
        exact Prod.ext hcd (Option.some.inj h1)
      subst hval
      congr 1
      apply ih hcs hds
      intro a
      by_cases ha : c.1 = a
      · subst ha
        rw [Memory.read_of_below hcs hc, Memory.read_of_below hds hd]
      · have := hr a
        rwa [Memory.read, Memory.read, if_neg ha, if_neg ha] at this

/-! ### Texels and block bytes (rules R22, R27, R136) -/

theorem readTexel_eq_some {m : Memory} {i : Nat} {t : Texel} :
    readTexel m i = some t ↔
      m.read (pixBase + 4 * i) = some t.r ∧ m.read (pixBase + 4 * i + 1) = some t.g ∧
      m.read (pixBase + 4 * i + 2) = some t.b ∧ m.read (pixBase + 4 * i + 3) = some t.a := by
  unfold readTexel
  constructor
  · intro h
    split at h
    · rename_i r g b a hr hg hb ha
      cases h
      exact ⟨hr, hg, hb, ha⟩
    · cases h
  · rintro ⟨hr, hg, hb, ha⟩
    simp only [hr, hg, hb, ha]

theorem readTexel_isSome {m : Memory} {i : Nat} (h : ∀ j, j < 4 → (m.read (pixBase + 4 * i + j)).isSome) :
    (readTexel m i).isSome := by
  obtain ⟨r, hr⟩ := Option.isSome_iff_exists.1 (h 0 (by omega))
  obtain ⟨g, hg⟩ := Option.isSome_iff_exists.1 (h 1 (by omega))
  obtain ⟨b, hb⟩ := Option.isSome_iff_exists.1 (h 2 (by omega))
  obtain ⟨a, ha⟩ := Option.isSome_iff_exists.1 (h 3 (by omega))
  rw [Option.isSome_iff_exists]
  exact ⟨⟨r, g, b, a⟩, readTexel_eq_some.2 ⟨by simpa using hr, hg, hb, ha⟩⟩

theorem readPix_eq_some {m : Memory} {tx : List Texel} :
    readPix m = some tx ↔ tx.length = 16 ∧ ∀ i, (h : i < tx.length) → readTexel m i = some tx[i] := by
  rw [readPix, allSome_eq_some]
  constructor
  · intro h
    have hl : tx.length = 16 := by simpa using (congrArg List.length h).symm
    refine ⟨hl, fun i hi => ?_⟩
    have := congrArg (fun l : List (Option Texel) => l[i]?) h
    simpa [hi, hl ▸ hi] using this
  · rintro ⟨hl, h⟩
    apply List.ext_getElem
    · simp [hl]
    · intro i h1 h2
      have hi : i < tx.length := by simpa using h2
      simpa using h i hi

theorem readPix_length {m : Memory} {tx : List Texel} (h : readPix m = some tx) : tx.length = 16 :=
  (readPix_eq_some.1 h).1

/-- Reading texels depends on the bytes of `PIX` alone. -/
theorem readPix_congr {m m' : Memory} (h : ∀ a, 0x40 ≤ a → a < 0x80 → m'.read a = m.read a) : readPix m' = readPix m := by
  unfold readPix
  congr 1
  apply List.map_congr_left
  intro i hi
  have := List.mem_range.1 hi
  unfold readTexel
  simp only [pixBase]
  rw [h _ (by omega) (by omega), h _ (by omega) (by omega), h _ (by omega) (by omega), h _ (by omega) (by omega)]

/-- Reading block bytes depends on those bytes alone. -/
theorem readBlk_congr {m m' : Memory} {n : Nat} (h : ∀ k, k < n → m'.read (0x80 + k) = m.read (0x80 + k)) :
    readBlk m' n = readBlk m n := by
  unfold readBlk Memory.readBytes
  congr 1
  apply List.map_congr_left
  intro k hk
  exact h k (List.mem_range.1 hk)

@[simp] theorem texelBytes_length (t : Texel) : (texelBytes t).length = 4 := rfl

/-- Byte `4i + j` of the bytes of a list of texels is byte `j` of texel `i`. -/
theorem flatMap_texelBytes_getElem? (tx : List Texel) {i j : Nat} (hi : i < tx.length) (hj : j < 4) :
    (tx.flatMap texelBytes)[4 * i + j]? = (texelBytes tx[i])[j]? := by
  induction tx generalizing i with
  | nil => simp at hi
  | cons t tx ih =>
    rw [List.flatMap_cons]
    cases i with
    | zero =>
      rw [List.getElem?_append_left (by simpa using hj)]
      simp
    | succ i =>
      rw [List.getElem?_append_right (by simp; omega)]
      have : 4 * (i + 1) + j - (texelBytes t).length = 4 * i + j := by simp; omega
      rw [this, ih (by simpa using hi)]
      simp

theorem flatMap_texelBytes_length (tx : List Texel) : (tx.flatMap texelBytes).length = 4 * tx.length := by
  induction tx with
  | nil => rfl
  | cons t tx ih =>
    rw [List.flatMap_cons, List.length_append, ih, texelBytes_length, List.length_cons]
    omega

/-- Reading back sixteen texels just written to `PIX`. -/
theorem readPix_writeBytes (m : Memory) {tx : List Texel} (h : tx.length = 16) :
    readPix (m.writeBytes pixBase (tx.flatMap texelBytes)) = some tx := by
  rw [readPix_eq_some]
  refine ⟨h, fun i hi => ?_⟩
  have hlen := flatMap_texelBytes_length tx
  have hbyte : ∀ j, j < 4 →
      (m.writeBytes pixBase (tx.flatMap texelBytes)).read (pixBase + 4 * i + j) = (texelBytes tx[i])[j]? := by
    intro j hj
    rw [Memory.read_writeBytes_inside m (by omega) (by omega)]
    have : pixBase + 4 * i + j - pixBase = 4 * i + j := by omega
    rw [this, flatMap_texelBytes_getElem? tx hi hj]
  rw [readTexel_eq_some]
  exact ⟨hbyte 0 (by omega), hbyte 1 (by omega), hbyte 2 (by omega), hbyte 3 (by omega)⟩

end Sys2Proof.Machine
end

