-- ==== Sys2Proof/Laws/State.lean ====
section
/-! SUPPORT. One lemma for each field after each operation that updates the state, so that no proof unfolds a record update; and
the fields of the state after reset. -/

namespace Sys2Proof.Machine

/-! ### `accept` (rule R16) -/

@[simp] theorem accept_cmd (v : Word) (s : State) : (accept v s).cmd = v := rfl
@[simp] theorem accept_lcmd (v : Word) (s : State) : (accept v s).lcmd = some v := rfl
@[simp] theorem accept_status (v : Word) (s : State) : (accept v s).status = Status.accepted := rfl
@[simp] theorem accept_texelMask (v : Word) (s : State) : (accept v s).texelMask = s.texelMask := rfl
@[simp] theorem accept_errMetric (v : Word) (s : State) : (accept v s).errMetric = s.errMetric := rfl
@[simp] theorem accept_mem (v : Word) (s : State) : (accept v s).mem = s.mem := rfl
@[simp] theorem accept_pending (v : Word) (s : State) : (accept v s).pending = s.pending := rfl
@[simp] theorem accept_observed (v : Word) (s : State) : (accept v s).observed = s.observed := rfl
@[simp] theorem accept_sched (v : Word) (s : State) : (accept v s).sched = s.sched := rfl
@[simp] theorem accept_draws (v : Word) (s : State) : (accept v s).draws = s.draws := rfl

/-! ### `raise` (rule R170) -/

@[simp] theorem raise_cmd (e : ErrCode) (s : State) : (raise e s).cmd = s.cmd := rfl
@[simp] theorem raise_lcmd (e : ErrCode) (s : State) : (raise e s).lcmd = s.lcmd := rfl
@[simp] theorem raise_status (e : ErrCode) (s : State) : (raise e s).status = s.status.completed e := rfl
@[simp] theorem raise_texelMask (e : ErrCode) (s : State) : (raise e s).texelMask = s.texelMask := rfl
@[simp] theorem raise_errMetric (e : ErrCode) (s : State) : (raise e s).errMetric = s.errMetric := rfl
@[simp] theorem raise_mem (e : ErrCode) (s : State) : (raise e s).mem = s.mem := rfl
@[simp] theorem raise_pending (e : ErrCode) (s : State) : (raise e s).pending = s.pending := rfl
@[simp] theorem raise_observed (e : ErrCode) (s : State) : (raise e s).observed = s.observed := rfl
@[simp] theorem raise_sched (e : ErrCode) (s : State) : (raise e s).sched = s.sched := rfl
@[simp] theorem raise_draws (e : ErrCode) (s : State) : (raise e s).draws = s.draws := rfl

/-! ### `completeEncode` (rule R135) -/

@[simp] theorem completeEncode_cmd (bs : List Byte) (e : Nat) (s : State) : (completeEncode bs e s).cmd = s.cmd := rfl
@[simp] theorem completeEncode_lcmd (bs : List Byte) (e : Nat) (s : State) : (completeEncode bs e s).lcmd = s.lcmd := rfl
@[simp] theorem completeEncode_status (bs : List Byte) (e : Nat) (s : State) : (completeEncode bs e s).status = s.status.completed .none := rfl
@[simp] theorem completeEncode_texelMask (bs : List Byte) (e : Nat) (s : State) : (completeEncode bs e s).texelMask = s.texelMask := rfl
@[simp] theorem completeEncode_errMetric (bs : List Byte) (e : Nat) (s : State) : (completeEncode bs e s).errMetric = BitVec.ofNat 32 e := rfl
@[simp] theorem completeEncode_mem (bs : List Byte) (e : Nat) (s : State) : (completeEncode bs e s).mem = s.mem.writeBytes blkBase bs := rfl
@[simp] theorem completeEncode_pending (bs : List Byte) (e : Nat) (s : State) : (completeEncode bs e s).pending = s.pending := rfl
@[simp] theorem completeEncode_observed (bs : List Byte) (e : Nat) (s : State) : (completeEncode bs e s).observed = s.observed := rfl
@[simp] theorem completeEncode_sched (bs : List Byte) (e : Nat) (s : State) : (completeEncode bs e s).sched = s.sched := rfl
@[simp] theorem completeEncode_draws (bs : List Byte) (e : Nat) (s : State) : (completeEncode bs e s).draws = s.draws := rfl

/-! ### `completeDecode` (rule R135) -/

@[simp] theorem completeDecode_cmd (bs : List Byte) (s : State) : (completeDecode bs s).cmd = s.cmd := rfl
@[simp] theorem completeDecode_lcmd (bs : List Byte) (s : State) : (completeDecode bs s).lcmd = s.lcmd := rfl
@[simp] theorem completeDecode_status (bs : List Byte) (s : State) : (completeDecode bs s).status = s.status.completed .none := rfl
@[simp] theorem completeDecode_texelMask (bs : List Byte) (s : State) : (completeDecode bs s).texelMask = s.texelMask := rfl
@[simp] theorem completeDecode_errMetric (bs : List Byte) (s : State) : (completeDecode bs s).errMetric = s.errMetric := rfl
@[simp] theorem completeDecode_mem (bs : List Byte) (s : State) : (completeDecode bs s).mem = s.mem.writeBytes pixBase bs := rfl
@[simp] theorem completeDecode_pending (bs : List Byte) (s : State) : (completeDecode bs s).pending = s.pending := rfl
@[simp] theorem completeDecode_observed (bs : List Byte) (s : State) : (completeDecode bs s).observed = s.observed := rfl
@[simp] theorem completeDecode_sched (bs : List Byte) (s : State) : (completeDecode bs s).sched = s.sched := rfl
@[simp] theorem completeDecode_draws (bs : List Byte) (s : State) : (completeDecode bs s).draws = s.draws := rfl

/-! ### `resetCore` (rule R190) -/

@[simp] theorem resetCore_cmd (s : State) : (resetCore s).cmd = 0 := rfl
@[simp] theorem resetCore_lcmd (s : State) : (resetCore s).lcmd = none := rfl
@[simp] theorem resetCore_status (s : State) : (resetCore s).status = Status.reset := rfl
@[simp] theorem resetCore_texelMask (s : State) : (resetCore s).texelMask = 0xFFFF := rfl
@[simp] theorem resetCore_errMetric (s : State) : (resetCore s).errMetric = 0 := rfl
@[simp] theorem resetCore_mem (s : State) : (resetCore s).mem = [] := rfl
@[simp] theorem resetCore_pending (s : State) : (resetCore s).pending = s.pending := rfl
@[simp] theorem resetCore_observed (s : State) : (resetCore s).observed = s.observed := rfl
@[simp] theorem resetCore_sched (s : State) : (resetCore s).sched = s.sched := rfl
@[simp] theorem resetCore_draws (s : State) : (resetCore s).draws = s.draws := rfl

/-! ### `useTurn` -/

@[simp] theorem useTurn_cmd (s : State) : (useTurn s).cmd = s.cmd := rfl
@[simp] theorem useTurn_lcmd (s : State) : (useTurn s).lcmd = s.lcmd := rfl
@[simp] theorem useTurn_status (s : State) : (useTurn s).status = s.status := rfl
@[simp] theorem useTurn_texelMask (s : State) : (useTurn s).texelMask = s.texelMask := rfl
@[simp] theorem useTurn_errMetric (s : State) : (useTurn s).errMetric = s.errMetric := rfl
@[simp] theorem useTurn_mem (s : State) : (useTurn s).mem = s.mem := rfl
@[simp] theorem useTurn_pending (s : State) : (useTurn s).pending = s.pending := rfl
@[simp] theorem useTurn_observed (s : State) : (useTurn s).observed = s.observed := rfl
@[simp] theorem useTurn_sched (s : State) : (useTurn s).sched = s.sched.drop 1 := rfl
@[simp] theorem useTurn_draws (s : State) : (useTurn s).draws = s.draws := rfl

/-! ### `observe` -/

@[simp] theorem observe_cmd (x : String) (a : Nat) (v : Word) (s : State) : (observe x a v s).cmd = s.cmd := rfl
@[simp] theorem observe_lcmd (x : String) (a : Nat) (v : Word) (s : State) : (observe x a v s).lcmd = s.lcmd := rfl
@[simp] theorem observe_status (x : String) (a : Nat) (v : Word) (s : State) : (observe x a v s).status = s.status := rfl
@[simp] theorem observe_texelMask (x : String) (a : Nat) (v : Word) (s : State) : (observe x a v s).texelMask = s.texelMask := rfl
@[simp] theorem observe_errMetric (x : String) (a : Nat) (v : Word) (s : State) : (observe x a v s).errMetric = s.errMetric := rfl
@[simp] theorem observe_mem (x : String) (a : Nat) (v : Word) (s : State) : (observe x a v s).mem = s.mem := rfl
@[simp] theorem observe_pending (x : String) (a : Nat) (v : Word) (s : State) : (observe x a v s).pending = s.pending := rfl
@[simp] theorem observe_observed (x : String) (a : Nat) (v : Word) (s : State) :
    (observe x a v s).observed = s.observed ++ [{ name := x, addr := a, value := v }] := rfl
@[simp] theorem observe_sched (x : String) (a : Nat) (v : Word) (s : State) : (observe x a v s).sched = s.sched := rfl
@[simp] theorem observe_draws (x : String) (a : Nat) (v : Word) (s : State) : (observe x a v s).draws = s.draws := rfl

/-! ### `hostVar` (rule R75) -/

/-- A read gives its variable the value read. -/
@[simp] theorem hostVar_observe_same (x : String) (a : Nat) (v : Word) (s : State) : hostVar x (observe x a v s) = some v := by
  simp [hostVar]

/-- A read leaves every other variable as it was. -/
theorem hostVar_observe_other {x y : String} (h : y ≠ x) (a : Nat) (v : Word) (s : State) :
    hostVar y (observe x a v s) = hostVar y s := by
  simp [hostVar, Ne.symm h]

/-- The variables depend on the record alone. -/
theorem hostVar_congr {s t : State} (h : t.observed = s.observed) (x : String) : hostVar x t = hostVar x s := by
  rw [hostVar, hostVar, h]

/-! ### `placeCommand` -/

@[simp] theorem placeCommand_cmd (w : Word) (s : State) : (placeCommand w s).cmd = w := rfl
@[simp] theorem placeCommand_lcmd (w : Word) (s : State) : (placeCommand w s).lcmd = some w := rfl
@[simp] theorem placeCommand_status (w : Word) (s : State) : (placeCommand w s).status = Status.accepted := rfl
@[simp] theorem placeCommand_texelMask (w : Word) (s : State) : (placeCommand w s).texelMask = s.texelMask := rfl
@[simp] theorem placeCommand_errMetric (w : Word) (s : State) : (placeCommand w s).errMetric = s.errMetric := rfl
@[simp] theorem placeCommand_mem (w : Word) (s : State) : (placeCommand w s).mem = s.mem := rfl
@[simp] theorem placeCommand_pending (w : Word) (s : State) : (placeCommand w s).pending = s.pending := rfl
@[simp] theorem placeCommand_observed (w : Word) (s : State) : (placeCommand w s).observed = s.observed := rfl
@[simp] theorem placeCommand_sched (w : Word) (s : State) : (placeCommand w s).sched = .core :: s.sched := rfl
@[simp] theorem placeCommand_draws (w : Word) (s : State) : (placeCommand w s).draws = s.draws := rfl

/-! ### The fields of `STATUS` after each change (rules R16, R21, R135, R170) -/

@[simp] theorem Status.accepted_busy : Status.accepted.busy = true := rfl
@[simp] theorem Status.accepted_done : Status.accepted.done = false := rfl
@[simp] theorem Status.accepted_err : Status.accepted.err = .none := rfl
@[simp] theorem Status.accepted_werr : Status.accepted.werr = false := rfl
@[simp] theorem Status.completed_busy (e : ErrCode) (st : Status) : (st.completed e).busy = false := rfl
@[simp] theorem Status.completed_done (e : ErrCode) (st : Status) : (st.completed e).done = true := rfl
@[simp] theorem Status.completed_err (e : ErrCode) (st : Status) : (st.completed e).err = e := rfl
@[simp] theorem Status.completed_werr (e : ErrCode) (st : Status) : (st.completed e).werr = st.werr := rfl
@[simp] theorem Status.writeDropped_busy (st : Status) : st.writeDropped.busy = st.busy := rfl
@[simp] theorem Status.writeDropped_done (st : Status) : st.writeDropped.done = st.done := rfl
@[simp] theorem Status.writeDropped_err (st : Status) : st.writeDropped.err = st.err := rfl
@[simp] theorem Status.writeDropped_werr (st : Status) : st.writeDropped.werr = true := rfl
@[simp] theorem Status.reset_busy : Status.reset.busy = false := rfl
@[simp] theorem Status.reset_done : Status.reset.done = false := rfl
@[simp] theorem Status.reset_err : Status.reset.err = .none := rfl
@[simp] theorem Status.reset_werr : Status.reset.werr = false := rfl

/-! ### The command set (rules R62, R63) -/

/-- Every command stands for a legal word: the checks of rule R62 pass for each term of `Instr`. -/
theorem Instr.wf_all (i : Instr) : i.wf = true := by
  cases i with
  | encBc1 fit wba => cases fit <;> cases wba <;> rfl
  | encBc2 fit wba => cases fit <;> cases wba <;> rfl
  | encBc3 fit wba => cases fit <;> cases wba <;> rfl
  | encBc4 fit => cases fit <;> rfl
  | encBc5 fit => cases fit <;> rfl
  | decBc1 => rfl
  | decBc2 => rfl
  | decBc3 => rfl
  | decBc4 => rfl
  | decBc5 => rfl

end Sys2Proof.Machine
end

