-- ==== Sys2Proof/Laws/Step.lean ====
section
/-! SUPPORT. Once for each shared operation, everything it can do: the inversion lemmas of the bus, the commands, the agents and
the step. Proofs cite these instead of unfolding the operations. -/

namespace Sys2Proof.Machine

/-! ### The sizes of what the commands write (rule R136) -/

@[simp] theorem colorBytes_length (c0 c1 : Nat) (idx : List Nat) : (colorBytes c0 c1 idx).length = 8 := by
  simp [colorBytes]

@[simp] theorem channelBytes_length (e0 e1 : Nat) (idx : List Nat) : (channelBytes e0 e1 idx).length = 8 := by
  simp [channelBytes]

@[simp] theorem alphaBytes_length (a4 : List Nat) : (alphaBytes a4).length = 8 := by
  simp [alphaBytes]

@[simp] theorem ColorBlock.bytes_length (b : ColorBlock) : b.bytes.length = 8 := colorBytes_length _ _ _

@[simp] theorem ChannelBlock.bytes_length (b : ChannelBlock) : b.bytes.length = 8 := channelBytes_length _ _ _

@[simp] theorem decodeColor_length (fmt : Format) (o : Nat) (bs : List Byte) : (decodeColor fmt o bs).length = 16 := by
  simp [decodeColor]

@[simp] theorem decodeChannel_length (o : Nat) (bs : List Byte) : (decodeChannel o bs).length = 16 := by
  simp [decodeChannel]

@[simp] theorem decodeAlpha_length (bs : List Byte) : (decodeAlpha bs).length = 16 := by
  simp [decodeAlpha]

@[simp] theorem expandBc1_length (bs : List Byte) : (expandBc1 bs).length = 16 := by simp [expandBc1]
@[simp] theorem expandBc2_length (bs : List Byte) : (expandBc2 bs).length = 16 := by simp [expandBc2]
@[simp] theorem expandBc3_length (bs : List Byte) : (expandBc3 bs).length = 16 := by simp [expandBc3]
@[simp] theorem expandBc4_length (bs : List Byte) : (expandBc4 bs).length = 16 := by simp [expandBc4]
@[simp] theorem expandBc5_length (bs : List Byte) : (expandBc5 bs).length = 16 := by simp [expandBc5]

theorem pixBytes_length {tx : List Texel} (h : tx.length = 16) : (pixBytes tx).length = 64 := by
  rw [pixBytes, flatMap_texelBytes_length, h]

/-! ### The operands of a command (rules R27, R136) -/

/-- With every pixel byte valued, the sixteen texels can be read. -/
theorem PixReady.readPix {s : State} (h : PixReady s) : ∃ tx, readPix s.mem = some tx := by
  apply allSome_isSome
  intro o ho
  obtain ⟨i, hi, rfl⟩ := List.mem_map.1 ho
  have hi := List.mem_range.1 hi
  apply readTexel_isSome
  intro j hj
  apply h <;> simp only [pixBase] <;> omega

/-- With the block bytes valued, they can be read. -/
theorem BlkReady.readBlk {n : Nat} {s : State} (h : BlkReady n s) : ∃ bs, readBlk s.mem n = some bs :=
  Memory.readBytes_isSome.2 fun i hi => h i hi

/-- Reading the texels succeeds exactly when every pixel byte has a value. -/
theorem readPix_isSome_iff {s : State} : (∃ tx, readPix s.mem = some tx) ↔ PixReady s := by
  refine ⟨?_, PixReady.readPix⟩
  rintro ⟨tx, h⟩ a ha hb
  obtain ⟨hl, ht⟩ := readPix_eq_some.1 h
  have hi : (a - 0x40) / 4 < tx.length := by omega
  obtain ⟨h0, h1, h2, h3⟩ := readTexel_eq_some.1 (ht _ hi)
  simp only [pixBase] at h0 h1 h2 h3
  have hcase : a = 0x40 + 4 * ((a - 0x40) / 4) ∨ a = 0x40 + 4 * ((a - 0x40) / 4) + 1 ∨
      a = 0x40 + 4 * ((a - 0x40) / 4) + 2 ∨ a = 0x40 + 4 * ((a - 0x40) / 4) + 3 := by omega
  rcases hcase with e | e | e | e <;> rw [e] <;> simp [h0, h1, h2, h3]

/-- Reading the block bytes succeeds exactly when they all have a value. -/
theorem readBlk_isSome_iff {n : Nat} {s : State} : (∃ bs, readBlk s.mem n = some bs) ↔ BlkReady n s :=
  Memory.readBytes_isSome

theorem withPix_of_some {s : State} {tx : List Texel} (h : readPix s.mem = some tx)
    (k : List Texel → Host.Outcome State Fault Refusal) : withPix s k = k tx := by
  rw [withPix, h]

theorem withBlk_of_some {n : Nat} {s : State} {bs : List Byte} (h : readBlk s.mem n = some bs)
    (k : List Byte → Host.Outcome State Fault Refusal) : withBlk n s k = k bs := by
  rw [withBlk, h]

theorem withPix_next {s t : State} {k : List Texel → Host.Outcome State Fault Refusal} (h : withPix s k = .next t) :
    ∃ tx, readPix s.mem = some tx ∧ k tx = .next t := by
  unfold withPix at h
  split at h
  · exact ⟨_, ‹_›, h⟩
  · cases h

theorem withBlk_next {n : Nat} {s t : State} {k : List Byte → Host.Outcome State Fault Refusal}
    (h : withBlk n s k = .next t) : ∃ bs, readBlk s.mem n = some bs ∧ k bs = .next t := by
  unfold withBlk at h
  split at h
  · exact ⟨_, ‹_›, h⟩
  · cases h

/-! ### What a command can do (rules R52, R135, R136) -/

/-- A command that completes either writes at most sixteen block bytes and the error, or writes the sixty-four pixel bytes. -/
theorem exec_next {i : Instr} {s t : State} (h : exec i s = .next t) :
    (∃ bs e, bs.length ≤ 16 ∧ t = completeEncode bs e s) ∨ (∃ bs, bs.length = 64 ∧ t = completeDecode bs s) := by
  cases i with
  | encBc1 fit wba =>
    obtain ⟨tx, -, hk⟩ := withPix_next h
    exact .inl ⟨_, _, by simp, (Host.Outcome.next.inj hk).symm⟩
  | encBc2 fit wba =>
    obtain ⟨tx, -, hk⟩ := withPix_next h
    exact .inl ⟨_, _, by simp, (Host.Outcome.next.inj hk).symm⟩
  | encBc3 fit wba =>
    obtain ⟨tx, -, hk⟩ := withPix_next h
    exact .inl ⟨_, _, by simp, (Host.Outcome.next.inj hk).symm⟩
  | encBc4 fit =>
    obtain ⟨tx, -, hk⟩ := withPix_next h
    exact .inl ⟨_, _, by simp, (Host.Outcome.next.inj hk).symm⟩
  | encBc5 fit =>
    obtain ⟨tx, -, hk⟩ := withPix_next h
    exact .inl ⟨_, _, by simp, (Host.Outcome.next.inj hk).symm⟩
  | decBc1 =>
    obtain ⟨bs, -, hk⟩ := withBlk_next h
    exact .inr ⟨_, pixBytes_length (by simp), (Host.Outcome.next.inj hk).symm⟩
  | decBc2 =>
    obtain ⟨bs, -, hk⟩ := withBlk_next h
    exact .inr ⟨_, pixBytes_length (by simp), (Host.Outcome.next.inj hk).symm⟩
  | decBc3 =>
    obtain ⟨bs, -, hk⟩ := withBlk_next h
    exact .inr ⟨_, pixBytes_length (by simp), (Host.Outcome.next.inj hk).symm⟩
  | decBc4 =>
    obtain ⟨bs, -, hk⟩ := withBlk_next h
    exact .inr ⟨_, pixBytes_length (by simp), (Host.Outcome.next.inj hk).symm⟩
  | decBc5 =>
    obtain ⟨bs, -, hk⟩ := withBlk_next h
    exact .inr ⟨_, pixBytes_length (by simp), (Host.Outcome.next.inj hk).symm⟩

/-- The frame of an encode, said once (rules R52, R135, R136). -/
theorem completeEncode_frame {s : State} {bs : List Byte} {e n : Nat} (h : bs.length = n) :
    EncodeFrame n s (completeEncode bs e s) := by
  refine ⟨⟨rfl, rfl, rfl, rfl, rfl, rfl, rfl, rfl, rfl, rfl, rfl⟩, fun a ha => ?_⟩
  exact Memory.read_writeBytes_outside _ (by simp only [blkBase]; omega)

/-- The block bytes an encode stores. -/
theorem completeEncode_read {s : State} {bs : List Byte} {e k : Nat} (h : k < bs.length) :
    (completeEncode bs e s).mem.read (0x80 + k) = bs[k]? := by
  refine (Memory.read_writeBytes_inside _ (by simp [blkBase]) (by simp only [blkBase]; omega)).trans ?_
  rw [show 0x80 + k - blkBase = k from Nat.add_sub_cancel_left _ _]

/-- An error that fits in 32 bits is stored uncut (rule R25). -/
theorem completeEncode_errMetric_toNat {s : State} {bs : List Byte} {e : Nat} (h : e < 2 ^ 32) :
    (completeEncode bs e s).errMetric.toNat = e := by
  rw [completeEncode_errMetric, BitVec.toNat_ofNat, Nat.mod_eq_of_lt h]

/-- The frame of a decode, said once (rules R25, R52, R135, R136). -/
theorem completeDecode_frame {s : State} {bs : List Byte} (h : bs.length = 64) : DecodeFrame s (completeDecode bs s) := by
  refine ⟨⟨rfl, rfl, rfl, rfl, rfl, rfl, rfl, rfl, rfl, rfl, rfl⟩, rfl, fun a ha => ?_⟩
  exact Memory.read_writeBytes_outside _ (by simp only [pixBase]; omega)

/-- The texels a decode stores. -/
theorem completeDecode_readPix {s : State} {tx : List Texel} (h : tx.length = 16) :
    readPix (completeDecode (pixBytes tx) s).mem = some tx :=
  readPix_writeBytes s.mem h

/-- Performing a word: its command, or the error. -/
theorem perform_cases (w : Word) (s : State) :
    (∃ i, decode w = .ok i ∧ perform w s = exec i s) ∨ (∃ e, decode w = .error e ∧ perform w s = .next (raise e s)) := by
  unfold perform
  cases h : decode w with
  | ok i => exact .inl ⟨i, rfl, rfl⟩
  | error e => exact .inr ⟨e, rfl, rfl⟩

/-- The decoder rejects with one of the core's two codes (rule R171). -/
theorem decode_error {w : Word} {e : ErrCode} (h : decode w = .error e) :
    e = .unsupportedFormat ∨ e = .invalidCommand := by
  unfold decode at h
  split at h
  · exact .inl (Except.error.inj h).symm
  · split at h
    · exact .inr (Except.error.inj h).symm
    · split at h
      · exact .inr (Except.error.inj h).symm
      · split at h
        · exact .inr (Except.error.inj h).symm
        · split at h <;> cases h

/-- The core's move: nothing when idle (or nothing is latched), else the command or its error. -/
theorem coreMove_next {s t : State} (h : coreMove s = .next t) :
    t = s ∧ (s.status.busy = false ∨ s.lcmd = none) ∨
    s.status.busy = true ∧ ∃ w, s.lcmd = some w ∧
      ((∃ i, decode w = .ok i ∧ exec i s = .next t) ∨ (∃ e, decode w = .error e ∧ t = raise e s)) := by
  unfold coreMove at h
  split at h
  · rename_i hb
    split at h
    · rename_i w hw
      refine .inr ⟨hb, w, hw, ?_⟩
      rcases perform_cases w s with ⟨i, hd, hp⟩ | ⟨e, hd, hp⟩
      · exact .inl ⟨i, hd, hp ▸ h⟩
      · rw [hp] at h
        exact .inr ⟨e, hd, (Host.Outcome.next.inj h).symm⟩
    · rename_i hn
      exact .inl ⟨(Host.Outcome.next.inj h).symm, .inr hn⟩
  · rename_i hb
    exact .inl ⟨(Host.Outcome.next.inj h).symm, .inl (by simpa using hb)⟩

/-! ### The bus (rules R40 to R51) -/

/-- The offsets the window maps, for an aligned access (rule R51). -/
theorem slotAt_isSome {a : Nat} : (slotAt a).isSome ↔ a % 4 = 0 ∧ (a < 0x10 ∨ 0x40 ≤ a ∧ a < 0x90) := by
  unfold slotAt
  by_cases h4 : a % 4 = 0
  · rw [if_neg (by omega)]
    repeat' split
    all_goals simp
    all_goals omega
  · rw [if_pos h4]
    simp [h4]

theorem slotAt_pix {a i : Nat} (h : slotAt a = some (.pix i)) : a = 0x40 + 4 * i ∧ i < 16 := by
  unfold slotAt at h
  repeat' split at h
  all_goals cases h
  all_goals omega

theorem slotAt_blkw {a w : Nat} (h : slotAt a = some (.blkw w)) : a = 0x80 + 4 * w ∧ w < 4 := by
  unfold slotAt at h
  repeat' split at h
  all_goals cases h
  all_goals omega

theorem slotAt_cmd {a : Nat} (h : slotAt a = some .cmd) : a = 0 := by
  unfold slotAt at h
  repeat' split at h
  all_goals cases h
  all_goals omega

/-- Everything a host write can do to the state. -/
theorem memWrite_ok {a n : Nat} {v : Word} {s t : State} (h : memWrite a n v s = .ok t) :
    t = s ∨
    (s.status.busy = true ∧ t = { s with status := s.status.writeDropped }) ∨
    (s.status.busy = false ∧
      ((a = 0 ∧ n = 4 ∧ t = accept v s) ∨ t = { s with texelMask := v.setWidth 16 } ∨
        (0x40 ≤ a ∧ a + 4 ≤ 0x90 ∧ t = { s with mem := s.mem.writeWord a v }))) := by
  unfold memWrite at h
  split at h
  · rename_i sl hs
    have ht := (Except.ok.inj h).symm
    unfold slotFor at hs
    split at hs
    · rename_i hn
      cases hb : s.status.busy with
      | true =>
        cases sl <;> simp [slotWrite, unlessBusy, hb] at ht <;> simp [ht]
      | false =>
        cases sl with
        | cmd => simp [slotWrite, unlessBusy, hb] at ht; simp [ht, slotAt_cmd hs, hn]
        | status => exact .inl ht
        | errMetric => exact .inl ht
        | mask => simp [slotWrite, unlessBusy, hb] at ht; simp [ht]
        | pix i =>
          obtain ⟨ha, hi⟩ := slotAt_pix hs
          simp [slotWrite, unlessBusy, hb] at ht
          exact .inr (.inr ⟨rfl, .inr (.inr ⟨by omega, by omega, ht⟩)⟩)
        | blkw w =>
          obtain ⟨ha, hw⟩ := slotAt_blkw hs
          simp [slotWrite, unlessBusy, hb] at ht
          exact .inr (.inr ⟨rfl, .inr (.inr ⟨by omega, by omega, ht⟩)⟩)
    · cases hs
  · cases h

/-- A host read changes at most the count of free values drawn (rules R41, R49). -/
theorem memRead_ok {a n : Nat} {v : Word} {s t : State} (h : memRead a n s = .ok (v, t)) :
    t = s ∨ (s.status.busy = true ∧ t = { s with draws := s.draws + 1 }) := by
  unfold memRead at h
  split at h
  · rename_i sl hs
    cases sl with
    | cmd => exact .inl (Prod.ext_iff.1 (Except.ok.inj h)).2.symm
    | status => exact .inl (Prod.ext_iff.1 (Except.ok.inj h)).2.symm
    | mask => exact .inl (Prod.ext_iff.1 (Except.ok.inj h)).2.symm
    | errMetric =>
      simp only [slotRead, drawRead] at h
      split at h
      · exact .inr ⟨‹_›, (Prod.ext_iff.1 (Except.ok.inj h)).2.symm⟩
      · exact .inl (Prod.ext_iff.1 (Except.ok.inj h)).2.symm
    | pix i =>
      simp only [slotRead, bufferRead, drawRead] at h
      split at h
      · exact .inr ⟨‹_›, (Prod.ext_iff.1 (Except.ok.inj h)).2.symm⟩
      · split at h
        · exact .inl (Prod.ext_iff.1 (Except.ok.inj h)).2.symm
        · cases h
    | blkw w =>
      simp only [slotRead, bufferRead, drawRead] at h
      split at h
      · exact .inr ⟨‹_›, (Prod.ext_iff.1 (Except.ok.inj h)).2.symm⟩
      · split at h
        · exact .inl (Prod.ext_iff.1 (Except.ok.inj h)).2.symm
        · cases h
  · cases h

/-- Everything the host's move can do. -/
theorem hostMove_next {s t : State} (h : hostMove s = .next t) :
    (s.pending = [] ∧ t = s) ∨
    (∃ a n v rest, s.pending = .write a n v :: rest ∧ memWrite a n v { s with pending := rest } = .ok t) ∨
    (∃ a n x rest v s', s.pending = .read a n x :: rest ∧ memRead a n { s with pending := rest } = .ok (v, s') ∧
      t = observe x a v s') ∨
    (∃ rest, s.pending = .poll :: rest ∧
      (t = observe pollName 0x04 s.status.word s ∨ t = observe pollName 0x04 s.status.word { s with pending := rest })) := by
  unfold hostMove at h
  split at h
  · exact .inl ⟨‹_›, (Host.Outcome.next.inj h).symm⟩
  · rename_i a n v rest hp
    refine .inr (.inl ⟨a, n, v, rest, hp, ?_⟩)
    split at h
    · rw [← Host.Outcome.next.inj h]; assumption
    · cases h
  · rename_i a n x rest hp
    refine .inr (.inr (.inl ?_))
    split at h
    · rename_i v s' hr
      exact ⟨a, n, x, rest, v, s', hp, hr, (Host.Outcome.next.inj h).symm⟩
    · cases h
  · rename_i rest hp
    refine .inr (.inr (.inr ⟨rest, hp, ?_⟩))
    split at h
    · exact .inl (Host.Outcome.next.inj h).symm
    · exact .inr (Host.Outcome.next.inj h).symm

/-- Everything a step can do: one move of the core, of the host, or a reset. -/
theorem step_cases (s : State) :
    (nextTurn s = .core ∧ step s = coreMove (useTurn s)) ∨ (nextTurn s = .host ∧ step s = hostMove (useTurn s)) ∨
    (nextTurn s = .reset ∧ step s = .next (resetCore (useTurn s))) := by
  unfold step
  cases h : nextTurn s with
  | core => exact .inl ⟨rfl, rfl⟩
  | host => exact .inr (.inl ⟨rfl, rfl⟩)
  | reset => exact .inr (.inr ⟨rfl, rfl⟩)

/-- A read does not look at the host or the scheduler. -/
theorem memRead_host (s : State) (a n : Nat) (p : List HostOp) (q : List Turn) :
    memRead a n { s with pending := p, sched := q } =
      (memRead a n s).map fun r => (r.1, { r.2 with pending := p, sched := q }) := by
  unfold memRead
  cases slotFor a n with
  | none => rfl
  | some sl =>
    cases sl <;> simp only [slotRead, bufferRead, drawRead, maskWord] <;> (repeat' split) <;> rfl

/-- The step of a host that writes. -/
theorem step_host_write {s t : State} {a n : Nat} {v : Word} {rest : List HostOp} (h : nextTurn s = .host)
    (hp : s.pending = .write a n v :: rest) (hm : memWrite a n v { useTurn s with pending := rest } = .ok t) :
    step s = .next t := by
  simp only [step, h, move, hostMove, useTurn_pending, hp, hm]

/-- The step of a host that reads. -/
theorem step_host_read {s t : State} {a n : Nat} {x : String} {v : Word} {rest : List HostOp} (h : nextTurn s = .host)
    (hp : s.pending = .read a n x :: rest) (hm : memRead a n { useTurn s with pending := rest } = .ok (v, t)) :
    step s = .next (observe x a v t) := by
  simp only [step, h, move, hostMove, useTurn_pending, hp, hm]

/-- The step of a host whose read faults. -/
theorem step_host_read_fault {s : State} {a n : Nat} {x : String} {f : Fault} {rest : List HostOp} (h : nextTurn s = .host)
    (hp : s.pending = .read a n x :: rest) (hm : memRead a n { useTurn s with pending := rest } = .error f) :
    step s = .fault f := by
  simp only [step, h, move, hostMove, useTurn_pending, hp, hm]

/-- Every memory operation of a completed command keeps the memory's form. -/
theorem exec_keeps_mem_wf {i : Instr} {s t : State} (hm : s.mem.wf = true) (h : exec i s = .next t) :
    t.mem.wf = true := by
  rcases exec_next h with ⟨bs, e, hl, rfl⟩ | ⟨bs, hl, rfl⟩
  · exact Memory.wf_writeBytes hm (by decide) (by simp only [blkBase]; omega)
  · exact Memory.wf_writeBytes hm (by decide) (by simp only [pixBase]; omega)

/-- Every host write keeps the memory's form. -/
theorem memWrite_keeps_mem_wf {a n : Nat} {v : Word} {s t : State} (hm : s.mem.wf = true)
    (h : memWrite a n v s = .ok t) : t.mem.wf = true := by
  rcases memWrite_ok h with rfl | ⟨-, rfl⟩ | ⟨-, ⟨-, -, rfl⟩ | rfl | ⟨ha, hb, rfl⟩⟩
  · exact hm
  · exact hm
  · exact hm
  · exact hm
  · exact Memory.wf_writeWord hm ha hb

end Sys2Proof.Machine
end

