-- ==== Sys2Proof/Laws/Driver.lean ====
section
/-! SUPPORT. What a command computes as a function of its inputs alone, and what one block's host program does on a core, said
once: the image driver's properties rest on these two. -/

namespace Sys2Proof.Machine

/-! ### A command as a function of its inputs (rules R136, R201) -/

/-- Every encode is a function of the mask and the texels: the bytes of a block and the error. -/
theorem exec_encode_form (i : Instr) (hi : i.isDecode = false) :
    ∃ f : BitVec 16 → List Texel → List Byte × Nat, (∀ m tx, (f m tx).1.length = i.format.blockBytes) ∧
      ∀ s tx, readPix s.mem = some tx →
        exec i s = .next (completeEncode (f s.texelMask tx).1 (f s.texelMask tx).2 s) := by
  cases i with
  | encBc1 fit wba =>
    refine ⟨fun m tx => ((encodeColor Config.thisHardware .bc1 fit wba m tx).bytes,
      (encodeColor Config.thisHardware .bc1 fit wba m tx).err), fun m tx => ColorBlock.bytes_length _, fun s tx h => ?_⟩
    exact withPix_of_some h _
  | encBc2 fit wba =>
    refine ⟨fun m tx => (alphaBytes (explicitAlpha tx) ++ (encodeColor Config.thisHardware .bc2 fit wba m tx).bytes,
      (encodeColor Config.thisHardware .bc2 fit wba m tx).err), fun m tx => by simp [Instr.format, Format.blockBytes],
      fun s tx h => ?_⟩
    exact withPix_of_some h _
  | encBc3 fit wba =>
    refine ⟨fun m tx => ((encodeChannel (·.a) fit m tx).bytes ++ (encodeColor Config.thisHardware .bc3 fit wba m tx).bytes,
      (encodeChannel (·.a) fit m tx).err + (encodeColor Config.thisHardware .bc3 fit wba m tx).err),
      fun m tx => by simp [Instr.format, Format.blockBytes], fun s tx h => ?_⟩
    exact withPix_of_some h _
  | encBc4 fit =>
    refine ⟨fun m tx => ((encodeChannel (·.r) fit m tx).bytes, (encodeChannel (·.r) fit m tx).err),
      fun m tx => ChannelBlock.bytes_length _, fun s tx h => ?_⟩
    exact withPix_of_some h _
  | encBc5 fit =>
    refine ⟨fun m tx => ((encodeChannel (·.r) fit m tx).bytes ++ (encodeChannel (·.g) fit m tx).bytes,
      (encodeChannel (·.r) fit m tx).err + (encodeChannel (·.g) fit m tx).err),
      fun m tx => by simp [Instr.format, Format.blockBytes], fun s tx h => ?_⟩
    exact withPix_of_some h _
  | decBc1 => simp [Instr.isDecode] at hi
  | decBc2 => simp [Instr.isDecode] at hi
  | decBc3 => simp [Instr.isDecode] at hi
  | decBc4 => simp [Instr.isDecode] at hi
  | decBc5 => simp [Instr.isDecode] at hi

/-- Every decode is a function of the block's bytes: sixteen texels. -/
theorem exec_decode_form (i : Instr) (hi : i.isDecode = true) :
    ∃ f : List Byte → List Texel, (∀ bs, (f bs).length = 16) ∧
      ∀ s bs, readBlk s.mem i.format.blockBytes = some bs → exec i s = .next (completeDecode (pixBytes (f bs)) s) := by
  cases i with
  | encBc1 fit wba => simp [Instr.isDecode] at hi
  | encBc2 fit wba => simp [Instr.isDecode] at hi
  | encBc3 fit wba => simp [Instr.isDecode] at hi
  | encBc4 fit => simp [Instr.isDecode] at hi
  | encBc5 fit => simp [Instr.isDecode] at hi
  | decBc1 => exact ⟨expandBc1, expandBc1_length, fun s bs h => withBlk_of_some h _⟩
  | decBc2 => exact ⟨expandBc2, expandBc2_length, fun s bs h => withBlk_of_some h _⟩
  | decBc3 => exact ⟨expandBc3, expandBc3_length, fun s bs h => withBlk_of_some h _⟩
  | decBc4 => exact ⟨expandBc4, expandBc4_length, fun s bs h => withBlk_of_some h _⟩
  | decBc5 => exact ⟨expandBc5, expandBc5_length, fun s bs h => withBlk_of_some h _⟩

/-! ### The phases of a host program (rules R159, R160) -/

/-- Writes to mapped offsets, applied in order. -/
def applyWrites : State → List (Nat × Word) → State
  | s, [] => s
  | s, p :: ps =>
    match slotFor p.1 4 with
    | some sl => applyWrites (slotWrite sl p.1 p.2 s) ps
    | none => applyWrites s ps

theorem runSteps_add (m n : Nat) (s : State) : runSteps (m + n) s = (runSteps m s).bind (runSteps n) := by
  induction m generalizing s with
  | zero => simp [runSteps]
  | succ m ih =>
    rw [Nat.add_right_comm, runSteps, runSteps]
    cases step s with
    | next s' => exact ih s'
    | fault f => rfl
    | refused r => rfl

/-- A register write does not look at the host or the scheduler. -/
theorem slotWrite_host (sl : Slot) (a : Nat) (v : Word) (s : State) (p : List HostOp) (q : List Turn) :
    slotWrite sl a v { s with pending := p, sched := q } = { slotWrite sl a v s with pending := p, sched := q } := by
  cases sl <;> simp only [slotWrite, unlessBusy] <;> first | rfl | (split <;> rfl)

/-- The host's writes, one a step. -/
theorem runSteps_writes (ws : List (Nat × Word)) (hm : ∀ p ∈ ws, (slotFor p.1 4).isSome) (c : State) (rest : List HostOp)
    (sc : List Turn) :
    runSteps ws.length
      { c with pending := (ws.map fun p : Nat × Word => HostOp.write p.1 4 p.2) ++ rest, sched := List.replicate ws.length .host ++ sc } =
      some { applyWrites c ws with pending := rest, sched := sc } := by
  induction ws generalizing c with
  | nil => rfl
  | cons p ps ih =>
    obtain ⟨sl, hsl⟩ := Option.isSome_iff_exists.1 (hm p (by simp))
    have hstep :
        step { c with
          pending := ((p :: ps).map fun p : Nat × Word => HostOp.write p.1 4 p.2) ++ rest
          sched := List.replicate (ps.length + 1) .host ++ sc } =
        .next { slotWrite sl p.1 p.2 c with
          pending := (ps.map fun p : Nat × Word => HostOp.write p.1 4 p.2) ++ rest
          sched := List.replicate ps.length .host ++ sc } := by
      rw [← slotWrite_host]
      simp [step, nextTurn, List.replicate_succ, move, hostMove, useTurn, memWrite, hsl]
    rw [List.length_cons, runSteps, hstep]
    simp only [applyWrites, hsl]
    exact ih (fun q hq => hm q (by simp [hq])) _

@[simp] theorem status_word_busy (st : Status) : st.word[0] = st.busy := by
  rcases st with ⟨b, d, e, w⟩
  cases b <;> cases d <;> cases e <;> cases w <;> decide

/-- The host's unsuccessful polls while the core is busy. -/
theorem runSteps_polls (n : Nat) (c : State) (hb : c.status.busy = true) (rest : List HostOp) :
    runSteps n { c with pending := .poll :: rest, sched := List.replicate n .host } =
      some { c with
        pending := .poll :: rest, sched := [],
        observed := c.observed ++ List.replicate n { name := pollName, addr := 0x04, value := c.status.word } } := by
  induction n generalizing c with
  | zero => simp [runSteps]
  | succ n ih =>
    have hstep : step { c with pending := .poll :: rest, sched := List.replicate (n + 1) .host } =
        .next { observe pollName 0x04 c.status.word c with pending := .poll :: rest, sched := List.replicate n .host } := by
      simp [step, nextTurn, List.replicate_succ, move, hostMove, useTurn, hb, observe]
    rw [runSteps, hstep]
    refine (ih (observe pollName 0x04 c.status.word c) hb).trans ?_
    simp [observe, List.replicate_succ]

/-- The host's reads of an idle core, one a step. -/
theorem runSteps_reads (x : String) (rs : List (Nat × Word)) (c : State) (hb : c.status.busy = false)
    (hr : ∀ r ∈ rs, ∀ s : State, s.mem = c.mem → s.status = c.status → memRead r.1 4 s = .ok (r.2, s)) :
    runSteps rs.length { c with pending := rs.map fun r : Nat × Word => HostOp.read r.1 4 x, sched := [] } =
      some { c with pending := [], sched := [], observed := c.observed ++ rs.map fun r => { name := x, addr := r.1, value := r.2 } } := by
  induction rs generalizing c with
  | nil => simp [runSteps]
  | cons r rs ih =>
    have hstep : step { c with pending := (r :: rs).map fun r : Nat × Word => HostOp.read r.1 4 x, sched := [] } =
        .next { observe x r.1 r.2 c with pending := rs.map fun r : Nat × Word => HostOp.read r.1 4 x, sched := [] } := by
      have h := hr r (by simp) { c with pending := rs.map fun r : Nat × Word => HostOp.read r.1 4 x, sched := [] } rfl rfl
      simp [step, nextTurn, hb, move, hostMove, useTurn, h, observe]
    rw [List.length_cons, runSteps, hstep]
    refine (ih (observe x r.1 r.2 c) hb fun q hq => hr q (by simp [hq])).trans ?_
    simp [observe]

/-- Writes other than to `CMD` leave an idle core idle, and the host as it was. -/
theorem applyWrites_idle (ws : List (Nat × Word)) (hc : ∀ p ∈ ws, p.1 ≠ 0) (s : State) (hb : s.status.busy = false) :
    (applyWrites s ws).status = s.status ∧ (applyWrites s ws).observed = s.observed := by
  induction ws generalizing s with
  | nil => exact ⟨rfl, rfl⟩
  | cons p ps ih =>
    have hps : ∀ q ∈ ps, q.1 ≠ 0 := fun q hq => hc q (by simp [hq])
    unfold applyWrites
    split
    · rename_i sl hsl
      have hw : (slotWrite sl p.1 p.2 s).status = s.status ∧ (slotWrite sl p.1 p.2 s).observed = s.observed := by
        cases sl with
        | cmd => exact absurd (slotAt_cmd hsl) (hc p (by simp))
        | status => exact ⟨rfl, rfl⟩
        | errMetric => exact ⟨rfl, rfl⟩
        | mask => simp [slotWrite, unlessBusy, hb]
        | pix i => simp [slotWrite, unlessBusy, hb]
        | blkw w => simp [slotWrite, unlessBusy, hb]
      have h := ih hps (slotWrite sl p.1 p.2 s) (by rw [hw.1, hb])
      exact ⟨h.1.trans hw.1, h.2.trans hw.2⟩
    · exact ih hps s hb

/-- One block's program (rules R159, R160, R196), run to its end: the writes, the acceptance of a command that completes with the
buffers `M`, the polls and the reads, after any delay. -/
theorem runSteps_program (x : String) (c : State) (i : Instr) (ws rs : List (Nat × Word)) (delay : Nat) (M : Memory)
    (hb : c.status.busy = false) (hd : decode (encode i) = .ok i)
    (hm : ∀ p ∈ ws, p.1 ≠ 0 ∧ (slotFor p.1 4).isSome)
    (hx : ∀ s, s.mem = (applyWrites c ws).mem → s.texelMask = (applyWrites c ws).texelMask →
      ∃ t, exec i s = .next t ∧ t.mem = M ∧ t.status.busy = false ∧ t.pending = s.pending ∧ t.sched = s.sched ∧
        t.observed = s.observed)
    (hr : ∀ r ∈ rs, ∀ s : State, s.mem = M → s.status.busy = false → memRead r.1 4 s = .ok (r.2, s)) :
    ∃ c' before, c'.status.busy = false ∧ c'.pending = [] ∧
      c'.observed = before ++ rs.map (fun r => { name := x, addr := r.1, value := r.2 }) ∧
      runSteps ((ws ++ [(0, encode i)]).length + (delay + (1 + (1 + rs.length))))
        { c with
          pending := ((ws ++ [(0, encode i)]).map fun p : Nat × Word => HostOp.write p.1 4 p.2) ++ .poll :: rs.map fun r : Nat × Word => HostOp.read r.1 4 x
          sched := List.replicate (ws ++ [(0, encode i)]).length .host ++ List.replicate delay .host } = some c' := by
  obtain ⟨hst, -⟩ := applyWrites_idle ws (fun p hp => (hm p hp).1) c hb
  -- the writes, then the acceptance
  have happ : ∀ (s : State) (xs : List (Nat × Word)) (p : Nat × Word),
      applyWrites s (xs ++ [p]) = applyWrites (applyWrites s xs) [p] := by
    intro s xs p
    induction xs generalizing s with
    | nil => rfl
    | cons x xs ih => simp only [List.cons_append, applyWrites]; split <;> exact ih _
  have hacc : applyWrites c (ws ++ [(0, encode i)]) = accept (encode i) (applyWrites c ws) := by
    rw [happ]
    generalize applyWrites c ws = u at hst
    have hs0 : slotFor 0 4 = some .cmd := rfl
    simp only [applyWrites, hs0, slotWrite, unlessBusy]
    rw [if_neg]
    simp [hst, hb]
  rw [runSteps_add, runSteps_writes (ws ++ [(0, encode i)]) _ c, hacc, Option.bind_some]
  rotate_left
  · intro p hp
    rcases List.mem_append.1 hp with h | h
    · exact (hm p h).2
    · rw [List.mem_singleton.1 h]; rfl
  generalize applyWrites c ws = u at hx
  -- the polls while the core is busy
  rw [runSteps_add, runSteps_polls delay (accept (encode i) u) rfl, Option.bind_some]
  -- the core's move
  have hcore : ∀ s, s.sched = [] → s.status.busy = true → s.lcmd = some (encode i) → step s = exec i s := by
    intro s hs hbusy hl
    have hu : useTurn s = s := by rw [useTurn, hs, List.drop_nil, ← hs]
    simp [step, nextTurn, hs, hbusy, move, hu, coreMove, hl, perform, hd]
  rw [runSteps_add, runSteps, hcore _ rfl rfl rfl]
  obtain ⟨t, ht, htm, htb, htp, htc, -⟩ := hx
    { accept (encode i) u with
      pending := .poll :: rs.map fun r : Nat × Word => HostOp.read r.1 4 x
      sched := []
      observed := (accept (encode i) u).observed ++
        List.replicate delay { name := pollName, addr := 0x04, value := (accept (encode i) u).status.word } } rfl rfl
  rw [ht]
  simp only [runSteps, Option.bind_some]
  -- the last poll
  have hpoll : step t = .next { observe pollName 0x04 t.status.word t with pending := rs.map fun r : Nat × Word => HostOp.read r.1 4 x, sched := [] } := by
    simp [step, nextTurn, htc, htb, move, hostMove, useTurn, htp, observe]
  rw [runSteps_add, runSteps, hpoll]
  simp only [runSteps, Option.bind_some]
  -- the reads
  have hreads := runSteps_reads x rs (observe pollName 0x04 t.status.word t) htb
    (fun r hr' s hs1 hs2 => hr r hr' s (hs1.trans htm) (by rw [hs2]; exact htb))
  refine ⟨_, (observe pollName 0x04 t.status.word t).observed, ?_, ?_, ?_, hreads⟩
  · exact htb
  · rfl
  · rfl

/-- What `runProgram` answers for one block's program: the words read, and an idle core. -/
theorem runProgram_completes (x : String) (c : State) (i : Instr) (ws rs : List (Nat × Word)) (delay : Nat) (M : Memory)
    (hb : c.status.busy = false) (hd : decode (encode i) = .ok i)
    (hm : ∀ p ∈ ws, p.1 ≠ 0 ∧ (slotFor p.1 4).isSome)
    (hx : ∀ s, s.mem = (applyWrites { c with observed := [] } ws).mem →
      s.texelMask = (applyWrites { c with observed := [] } ws).texelMask →
      ∃ t, exec i s = .next t ∧ t.mem = M ∧ t.status.busy = false ∧ t.pending = s.pending ∧ t.sched = s.sched ∧
        t.observed = s.observed)
    (hr : ∀ r ∈ rs, ∀ s : State, s.mem = M → s.status.busy = false → memRead r.1 4 s = .ok (r.2, s)) :
    ∃ c', c'.status.busy = false ∧
      runProgram c ((ws.map fun p : Nat × Word => HostOp.write p.1 4 p.2) ++ [.write 0 4 (encode i)]) (rs.map fun r : Nat × Word => HostOp.read r.1 4 x) delay =
        some (c', rs.map (·.2)) := by
  obtain ⟨c', before, h1, h2, h3, h4⟩ := runSteps_program x { c with observed := [] } i ws rs delay M hb hd hm hx hr
  refine ⟨c', h1, ?_⟩
  have hl : (ws.map fun p : Nat × Word => HostOp.write p.1 4 p.2) ++ [.write 0 4 (encode i)] =
      (ws ++ [(0, encode i)]).map fun p : Nat × Word => HostOp.write p.1 4 p.2 := by simp
  have hn : (ws ++ [(0, encode i)]).length + delay + 2 + rs.length =
      (ws ++ [(0, encode i)]).length + (delay + (1 + (1 + rs.length))) := by omega
  unfold runProgram
  rw [hl, List.length_map, List.length_map, hn]
  unfold loadProgram
  rw [List.length_map, List.replicate_add, h4]
  simp [h2, h3]

/-! ### Words in the buffers (rules R22, R45, R46) -/

/-- A mapped buffer word: an idle core stores a write to it and changes nothing else. -/
theorem slotFor_word {a : Nat} (h4 : a % 4 = 0) (h : 0x40 ≤ a) (h' : a < 0x90) :
    ∃ sl, slotFor a 4 = some sl ∧
      ∀ v s, s.status.busy = false → slotWrite sl a v s = { s with mem := s.mem.writeWord a v } := by
  unfold slotFor slotAt
  simp only [if_true]
  rw [if_neg (by omega), if_neg (by omega), if_neg (by omega), if_neg (by omega), if_neg (by omega)]
  split
  · exact ⟨_, rfl, fun v s hb => by simp [slotWrite, unlessBusy, hb]⟩
  · exact ⟨.blkw ((a - 0x80) / 4), by rw [if_pos (by omega)], fun v s hb => by simp [slotWrite, unlessBusy, hb]⟩

/-- The four bytes of a word just written, little-endian. -/
theorem read_writeWord_inside (m : Memory) (a : Nat) (v : Word) {j : Nat} (hj : j < 4) :
    (m.writeWord a v).read (a + j) = some (v.extractLsb' (8 * j) 8) := by
  unfold Memory.writeWord
  rw [Memory.read_writeBytes_inside _ (by omega) (by simp; omega), Nat.add_sub_cancel_left]
  interval_cases j <;> simp [leBytes] <;>
    (apply BitVec.eq_of_toNat_eq; simp [Nat.shiftRight_eq_div_pow]; try omega)

theorem read_writeWord_outside (m : Memory) (a : Nat) (v : Word) {x : Nat} (hx : x < a ∨ a + 4 ≤ x) :
    (m.writeWord a v).read x = m.read x :=
  Memory.read_writeBytes_outside _ (by simp; omega)

/-- A pixel word holds the texel it was made from. -/
@[simp] theorem texelOfWord_texelWord (t : Texel) : texelOfWord (texelWord t) = t := by
  rcases t with ⟨r, g, b, a⟩
  have := r.isLt
  have := g.isLt
  have := b.isLt
  have := a.isLt
  simp only [texelOfWord, texelWord, Texel.mk.injEq]
  refine ⟨?_, ?_, ?_, ?_⟩ <;> (apply BitVec.eq_of_toNat_eq; simp [Nat.shiftRight_eq_div_pow]; omega)

theorem readTexel_writeWord (m : Memory) (i : Nat) (v : Word) :
    readTexel (m.writeWord (0x40 + 4 * i) v) i = some (texelOfWord v) :=
  readTexel_eq_some.2
    ⟨read_writeWord_inside m _ v (j := 0) (by omega), read_writeWord_inside m _ v (j := 1) (by omega),
      read_writeWord_inside m _ v (j := 2) (by omega), read_writeWord_inside m _ v (j := 3) (by omega)⟩

/-- Writes to buffer words of an idle core change the buffers alone. -/
theorem applyWrites_words (ws : List (Nat × Word)) (hw : ∀ p ∈ ws, p.1 % 4 = 0 ∧ 0x40 ≤ p.1 ∧ p.1 < 0x90) (s : State)
    (hb : s.status.busy = false) :
    applyWrites s ws = { s with mem := ws.foldl (fun m p => m.writeWord p.1 p.2) s.mem } := by
  induction ws generalizing s with
  | nil => rfl
  | cons p ps ih =>
    obtain ⟨h1, h2, h3⟩ := hw p (by simp)
    obtain ⟨sl, hs, hsw⟩ := slotFor_word h1 h2 h3
    simp only [applyWrites, hs, hsw _ _ hb]
    exact ih (fun q hq => hw q (by simp [hq])) { s with mem := s.mem.writeWord p.1 p.2 } hb

/-- Consecutive words written from `base + 4k` on: each is read back, every other byte is as it was. -/
theorem read_foldl_writeWord (base : Nat) (vs : List Word) (k : Nat) (m : Memory) :
    (∀ j (h : j < vs.length), ∀ b, b < 4 →
      ((vs.mapIdx fun j v => (base + 4 * (k + j), v)).foldl (fun m p => m.writeWord p.1 p.2) m).read
        (base + 4 * (k + j) + b) = some (vs[j].extractLsb' (8 * b) 8)) ∧
    ∀ x, x < base + 4 * k ∨ base + 4 * (k + vs.length) ≤ x →
      ((vs.mapIdx fun j v => (base + 4 * (k + j), v)).foldl (fun m p => m.writeWord p.1 p.2) m).read x = m.read x := by
  induction vs generalizing k m with
  | nil => simp
  | cons v vs ih =>
    simp only [List.mapIdx_cons, List.foldl_cons]
    have ih := ih (k + 1) (m.writeWord (base + 4 * (k + 0)) v)
    have e : (fun j v => (base + 4 * (k + 1 + j), v)) = fun (j : Nat) (v : Word) => (base + 4 * (k + (j + 1)), v) := by
      funext j v
      congr 2
      omega
    rw [e] at ih
    constructor
    · intro j hj b hb
      cases j with
      | zero =>
        rw [ih.2 _ (by omega)]
        exact read_writeWord_inside m _ v hb
      | succ j =>
        have h := ih.1 j (by simpa using hj) b hb
        rw [show k + (j + 1) = k + 1 + j by omega]
        simpa using h
    · intro x hx
      rw [List.length_cons] at hx
      rw [ih.2 _ (by omega)]
      exact read_writeWord_outside m _ v (by omega)

/-! ### Plans and results (rules R156, R158, R160) -/

/-- A plan on idle cores whose programs all complete, each with known words: the words of each of its blocks, in the plan's order. -/
theorem runPlan_eq {writes reads : Nat → List HostOp} {words : Nat → List Word} (plan : List Job)
    (h : ∀ j ∈ plan, ∀ c delay, c.status.busy = false →
      ∃ c', c'.status.busy = false ∧ runProgram c (writes j.block) (reads j.block) delay = some (c', words j.block))
    (cores : List State) (hi : AllIdle cores) (hc : ∀ j ∈ plan, j.core < cores.length) :
    runPlan writes reads cores plan = some (plan.map fun j => (j.block, words j.block)) := by
  induction plan generalizing cores with
  | nil => rfl
  | cons j js ih =>
    have hj := hc j (by simp)
    obtain ⟨c', hb, hr⟩ := h j (by simp) cores[j.core] j.delay (hi _ (List.getElem_mem hj))
    have hi' : AllIdle (cores.set j.core c') := by
      intro c hcm
      rcases List.mem_or_eq_of_mem_set hcm with hcm | rfl
      · exact hi c hcm
      · exact hb
    simp only [runPlan, List.getElem?_eq_getElem hj, hr, List.map_cons]
    rw [ih (fun j' hj' => h j' (by simp [hj'])) _ hi' (fun j' hj' => by simpa using hc j' (by simp [hj']))]

/-- Looking up a key that occurs, and always with the same value. -/
theorem lookup_of_forall {α : Type} {l : List (Nat × α)} {p : Nat} {v : α} (he : ∃ e ∈ l, e.1 = p)
    (hv : ∀ e ∈ l, e.1 = p → e.2 = v) : l.lookup p = some v := by
  induction l with
  | nil => simp at he
  | cons e es ih =>
    obtain ⟨k, x⟩ := e
    by_cases hk : p = k
    · subst hk
      have hx : x = v := hv (p, x) (by simp) rfl
      simp [hx]
    · rw [List.lookup_cons, beq_eq_false_iff_ne.2 hk]
      refine ih ?_ fun e he' => hv e (by simp [he'])
      obtain ⟨e, he', h⟩ := he
      rcases List.mem_cons.1 he' with rfl | he'
      · exact absurd h.symm hk
      · exact ⟨e, he', h⟩

/-- Byte `j` of piece `k` of a stream of pieces of `s` bytes each. -/
theorem flatMap_getElem {α : Type} (f : Nat → List α) (s : Nat) (hs : ∀ k, (f k).length = s) (n k j : Nat)
    (hk : k < n) (hj : j < s) :
    ((List.range n).flatMap f)[k * s + j]? = (f k)[j]? := by
  induction n with
  | zero => omega
  | succ n ih =>
    have hl : ((List.range n).flatMap f).length = n * s := by
      simp [List.length_flatMap, hs]
    rw [List.range_succ, List.flatMap_append, List.flatMap_singleton]
    by_cases hkn : k < n
    · rw [List.getElem?_append_left, ih hkn]
      rw [hl]
      calc k * s + j < k * s + s := by omega
        _ = (k + 1) * s := by ring
        _ ≤ n * s := Nat.mul_le_mul_right _ hkn
    · obtain rfl : k = n := by omega
      rw [List.getElem?_append_right (by rw [hl]; omega), hl]
      congr 1; omega

/-! ### Words read from the buffers -/
theorem readWord_of_bytes {m : Memory} {a : Nat} {bs : List Byte} (hl : bs.length = 4)
    (h : ∀ b (hb : b < bs.length), m.read (a + b) = some bs[b]) :
    m.readWord a = some (BitVec.ofNat 32 (leNat bs)) := by
  rw [Memory.readWord, Memory.readBytes_eq_some.2 ⟨hl, h⟩]

/-- The four bytes of a word made of four bytes. -/
theorem leBytes_word {bs : List Byte} (hl : bs.length = 4) : leBytes 4 (BitVec.ofNat 32 (leNat bs)).toNat = bs := by
  have h := leNat_lt bs
  rw [hl] at h
  rw [BitVec.toNat_ofNat, Nat.mod_eq_of_lt (by simpa using h), ← hl, leBytes_leNat]

/-- An idle read of a buffer word gives the word. -/
theorem memRead_word {a : Nat} (h4 : a % 4 = 0) (h : 0x40 ≤ a) (h' : a < 0x90) {s : State} (hb : s.status.busy = false)
    {v : Word} (hw : s.mem.readWord a = some v) :
    memRead a 4 s = .ok (v, s) := by
  have hsl : (∃ i, slotFor a 4 = some (.pix i)) ∨ ∃ i, slotFor a 4 = some (.blkw i) := by
    unfold slotFor slotAt
    simp only [if_true]
    rw [if_neg (by omega), if_neg (by omega), if_neg (by omega), if_neg (by omega), if_neg (by omega)]
    split
    · exact .inl ⟨_, rfl⟩
    · rw [if_pos (by omega)]; exact .inr ⟨_, rfl⟩
  rcases hsl with ⟨i, hs⟩ | ⟨i, hs⟩ <;> simp [memRead, hs, slotRead, bufferRead, hb, hw]

/-- Byte `b` of a word made of four bytes. -/
theorem word_byte {bs : List Byte} (hl : bs.length = 4) {b : Nat} (hb : b < 4) :
    (BitVec.ofNat 32 (leNat bs)).extractLsb' (8 * b) 8 = bs[b] := by
  match bs, hl with
  | [x, y, z, w], _ =>
    have := x.isLt
    have := y.isLt
    have := z.isLt
    have := w.isLt
    interval_cases b <;> simp only [leNat, List.getElem_cons_zero, List.getElem_cons_succ] <;>
      (apply BitVec.eq_of_toNat_eq; simp [Nat.shiftRight_eq_div_pow]; omega)

/-- A pixel word is the little-endian word of its texel's bytes. -/
theorem texelWord_eq (t : Texel) : BitVec.ofNat 32 (leNat (texelBytes t)) = texelWord t := by
  simp only [texelBytes, leNat, texelWord]
  congr 1
  omega

/-! ### One block of `compress` and of `decompress` (rules R159, R160) -/

/-- The little-endian words of a block's bytes. -/
def wordsOf (B : List Byte) : List Word :=
  (List.range (B.length / 4)).map fun w => BitVec.ofNat 32 (leNat ((B.drop (4 * w)).take 4))

theorem wordsOf_bytes (B : List Byte) (h : B.length % 4 = 0) : (wordsOf B).flatMap (fun w => leBytes 4 w.toNat) = B := by
  generalize hn : B.length / 4 = n
  induction n generalizing B with
  | zero =>
    have : B = [] := List.length_eq_zero_iff.1 (by omega)
    subst this; rfl
  | succ n ih =>
    have h1 : wordsOf B = BitVec.ofNat 32 (leNat (B.take 4)) :: wordsOf (B.drop 4) := by
      unfold wordsOf
      have : (B.drop 4).length / 4 = n := by simp; omega
      rw [hn, this, List.range_succ_eq_map, List.map_cons, List.map_map]
      simp only [Nat.mul_zero, List.drop_zero, List.drop_drop, Function.comp_def]
      congr 2
      funext w; rw [show 4 * w.succ = 4 + 4 * w by simp [Nat.succ_eq_add_one]; ring]
    rw [h1, List.flatMap_cons, leBytes_word (by simp; omega), ih _ (by simp; omega) (by simp; omega), List.take_append_drop]

/-- One block of `compress`: a function of its texels that is both what the command stores under mask 0xFFFF and, as words, what the
block's program reads back on any idle core after any delay. -/
theorem compress_block (fmt : Format) (high weighted : Bool) : ∃ B : List Texel → List Byte,
   (∀ tx, (B tx).length = fmt.blockBytes) ∧
   (∀ s tx, readPix s.mem = some tx → s.texelMask = 0xFFFF → ∃ t, exec (compressCommand fmt high weighted) s = .next t ∧
     ∀ j, j < fmt.blockBytes → t.mem.read (0x80 + j) = (B tx)[j]?) ∧
   ∀ tx c delay, tx.length = 16 → c.status.busy = false → ∃ c', c'.status.busy = false ∧
     runProgram c (compressWrites (compressCommand fmt high weighted) tx) (compressReads fmt) delay = some (c', wordsOf (B tx)) := by
  have hi : (compressCommand fmt high weighted).isDecode = false := by cases fmt <;> rfl
  have hf : (compressCommand fmt high weighted).format = fmt := by cases fmt <;> rfl
  have hdec : decode (encode (compressCommand fmt high weighted)) = .ok (compressCommand fmt high weighted) := by
    cases fmt <;> cases high <;> cases weighted <;> decide
  obtain ⟨f, hlen, hx⟩ := exec_encode_form _ hi
  generalize compressCommand fmt high weighted = i at *
  rw [hf] at hlen
  refine ⟨fun tx => (f 0xFFFF tx).1, fun tx => hlen _ _, ?_, ?_⟩
  · intro s tx hp hm
    refine ⟨_, hx s tx hp, ?_⟩
    rw [hm]
    intro j hj
    exact completeEncode_read (by rw [hlen]; exact hj)
  intro tx c delay hl hb
  set B := (f 0xFFFF tx).1 with hB
  have hBl : B.length = fmt.blockBytes := hlen _ _
  set dw : List (Nat × Word) := (8, 0x0000FFFF) :: (tx.map texelWord).mapIdx fun j v => (0x40 + 4 * (0 + j), v) with hdw
  have hpixw : ∀ p ∈ (tx.map texelWord).mapIdx fun j v => (0x40 + 4 * (0 + j), v), p.1 % 4 = 0 ∧ 0x40 ≤ p.1 ∧ p.1 < 0x90 := by
    intro p hp
    obtain ⟨j, hj, rfl⟩ := List.mem_mapIdx.1 hp
    simp at hj ⊢; omega
  have happ : applyWrites { c with observed := [] } dw = { c with observed := [], texelMask := 0xFFFF, mem := ((tx.map texelWord).mapIdx fun j v => (0x40 + 4 * (0 + j), v)).foldl (fun m p => m.writeWord p.1 p.2) c.mem } := by
    rw [hdw]; unfold applyWrites
    have h8 : slotFor 8 4 = some .mask := rfl
    simp only [h8, slotWrite, unlessBusy, hb]
    simp only [Bool.false_eq_true, if_false]
    exact applyWrites_words _ hpixw _ hb
  have fw := read_foldl_writeWord 0x40 (tx.map texelWord) 0 c.mem
  generalize hM0 : ((tx.map texelWord).mapIdx fun j v => (0x40 + 4 * (0 + j), v)).foldl (fun m p => m.writeWord p.1 p.2) c.mem = M0 at happ fw
  have hpix : readPix M0 = some tx := by
    rw [readPix_eq_some]
    refine ⟨hl, fun k hk => ?_⟩
    have h := fw.1 k (by simpa using hk)
    simp only [Nat.zero_add, List.getElem_map] at h
    have ht := texelOfWord_texelWord tx[k]
    rw [readTexel_eq_some, ← ht]
    exact ⟨h 0 (by omega), h 1 (by omega), h 2 (by omega), h 3 (by omega)⟩
  have hrun := runProgram_completes "word" c i dw ((List.range (fmt.blockBytes / 4)).map fun w => (0x80 + 4 * w, BitVec.ofNat 32 (leNat ((B.drop (4 * w)).take 4)))) delay (M0.writeBytes blkBase B) hb hdec ?_ ?_ ?_
  · obtain ⟨c', h1, h2⟩ := hrun
    refine ⟨c', h1, ?_⟩
    have e1 : compressWrites i tx = dw.map (fun p : Nat × Word => HostOp.write p.1 4 p.2) ++ [.write 0 4 (encode i)] := by
      simp [compressWrites, hdw]
      apply List.ext_getElem <;> simp
    have e2 : compressReads fmt = (((List.range (fmt.blockBytes / 4)).map fun w => (0x80 + 4 * w, BitVec.ofNat 32 (leNat ((B.drop (4 * w)).take 4))))).map fun r : Nat × Word => HostOp.read r.1 4 "word" := by
      simp [compressReads]
    rw [e1, e2, h2, List.map_map]
    change _ = some (c', wordsOf B)
    rw [wordsOf, hBl]; rfl
  · intro p hp
    rcases List.mem_cons.1 hp with rfl | hp
    · exact ⟨by decide, rfl⟩
    · obtain ⟨a, b, d⟩ := hpixw p hp
      obtain ⟨sl, hs, -⟩ := slotFor_word a b d
      exact ⟨by omega, by simp [hs]⟩
  · intro s hm ht
    rw [happ] at hm ht
    have hs := hx s tx (by rw [hm]; exact hpix)
    rw [ht] at hs
    exact ⟨_, hs, by simp [hm, hB], rfl, rfl, rfl, rfl⟩
  · intro r hr s hm hb
    obtain ⟨w, hw, rfl⟩ := List.mem_map.1 hr
    have hw := List.mem_range.1 hw
    have hsz : fmt.blockBytes = 8 ∨ fmt.blockBytes = 16 := by cases fmt <;> simp [Format.blockBytes]
    have h4 : ((B.drop (4 * w)).take 4).length = 4 := by simp; omega
    refine memRead_word (by omega) (by omega) (by omega) hb (readWord_of_bytes h4 ?_)
    intro b hb'
    rw [h4] at hb'
    rw [hm, Memory.read_writeBytes_inside _ (by simp only [blkBase]; omega) (by simp only [blkBase]; omega)]
    rw [show 0x80 + 4 * w + b - blkBase = 4 * w + b by simp only [blkBase]; omega]
    simp [List.getElem_take, List.getElem_drop]

/-- The command word of rule R159 performs the driver's encode command. -/
theorem perform_compress {tag : Nat} {fmt : Format} (h : formatOfTag tag = some fmt) (high weighted : Bool) (s : State) :
   perform (BitVec.ofNat 32 (2 * tag + (if high then 0x10 else 0) + (if weighted ∧ tag ≤ 3 then 0x20 else 0))) s = exec (compressCommand fmt high weighted) s := by
  have ht : tag < 8 := by unfold formatOfTag at h; split at h <;> simp_all
  have hd : decode (BitVec.ofNat 32 (2 * tag + (if high then 0x10 else 0) + (if weighted ∧ tag ≤ 3 then 0x20 else 0))) = .ok (compressCommand fmt high weighted) := by
    interval_cases tag <;> simp [formatOfTag, Format.ofCode] at h <;> subst h <;> cases high <;> cases weighted <;> decide
  rw [perform, hd]

/-- The command word of rule R160 performs the driver's decode command. -/
theorem perform_decompress {tag : Nat} {fmt : Format} (h : formatOfTag tag = some fmt) (s : State) :
   perform (BitVec.ofNat 32 (2 * tag + 1)) s = exec (decodeCommand fmt) s := by
  have ht : tag < 8 := by unfold formatOfTag at h; split at h <;> simp_all
  have hd : decode (BitVec.ofNat 32 (2 * tag + 1)) = .ok (decodeCommand fmt) := by
    interval_cases tag <;> simp [formatOfTag, Format.ofCode] at h <;> subst h <;> decide
  rw [perform, hd]

/-- The bytes of block `k` of a stream. -/
def blockSlice (s : Nat) (bytes : List Byte) (k : Nat) : List Byte :=
  (bytes.drop (k * s)).take s

/-- One block of `decompress`: a function of its bytes that is both what the command writes to `PIX` and what the block's program reads
back, texel by texel, on any idle core after any delay. -/
theorem decompress_block (fmt : Format) : ∃ f : List Byte → List Texel, (∀ bs, (f bs).length = 16) ∧
    (∀ s bs, readBlk s.mem fmt.blockBytes = some bs → ∃ t, exec (decodeCommand fmt) s = .next t ∧ readPix t.mem = some (f bs)) ∧
    ∀ bytes W H k c delay, (k + 1) * fmt.blockBytes ≤ bytes.length → c.status.busy = false → ∃ c', c'.status.busy = false ∧
      runProgram c (decompressWrites fmt bytes k) (decompressReads W H k) delay =
        some (c', (insideTexels W H k).map fun i => texelWord ((f (blockSlice fmt.blockBytes bytes k)).getD i { r := 0, g := 0, b := 0, a := 0 })) := by
  have hi : (decodeCommand fmt).isDecode = true := by cases fmt <;> rfl
  have hf : (decodeCommand fmt).format = fmt := by cases fmt <;> rfl
  have hdec : decode (encode (decodeCommand fmt)) = .ok (decodeCommand fmt) := by cases fmt <;> decide
  have hsz : fmt.blockBytes = 8 ∨ fmt.blockBytes = 16 := by cases fmt <;> simp [Format.blockBytes]
  obtain ⟨f, hlen, hx⟩ := exec_decode_form _ hi
  rw [hf] at hx
  refine ⟨f, hlen, fun s bs h => ⟨_, hx s bs h, completeDecode_readPix (hlen _)⟩, ?_⟩
  intro bytes W H k c delay hb1 hb
  generalize hnn : fmt.blockBytes = n at *
  have hkn : (k + 1) * n = k * n + n := by ring
  set val : Nat → Word := fun w => if 4 * w < n then streamWord bytes (k * n + 4 * w) else 0 with hval
  set ws : List (Nat × Word) := ((List.range 4).map val).mapIdx fun j v => (0x80 + 4 * (0 + j), v) with hws
  have hw : ∀ p ∈ ws, p.1 % 4 = 0 ∧ 0x40 ≤ p.1 ∧ p.1 < 0x90 := by
    intro p hp
    obtain ⟨j, hj, rfl⟩ := List.mem_mapIdx.1 hp
    simp at hj ⊢; omega
  have happ : applyWrites { c with observed := [] } ws = { c with observed := [], mem := ws.foldl (fun m p => m.writeWord p.1 p.2) c.mem } :=
    applyWrites_words _ hw _ hb
  have fw := read_foldl_writeWord 0x80 ((List.range 4).map val) 0 c.mem
  rw [← hws] at fw
  generalize ws.foldl (fun m p => m.writeWord p.1 p.2) c.mem = M0 at happ fw
  have hsl : (blockSlice n bytes k).length = n := by simp [blockSlice]; omega
  have hblk : readBlk M0 n = some (blockSlice n bytes k) := by
    rw [readBlk, Memory.readBytes_eq_some]
    refine ⟨hsl, fun j hj => ?_⟩
    rw [hsl] at hj
    have h := fw.1 (j / 4) (by simp; omega) (j % 4) (by omega)
    have hv : val (j / 4) = BitVec.ofNat 32 (leNat ((bytes.drop (k * n + 4 * (j / 4))).take 4)) := by
      simp only [hval]; rw [if_pos (by omega)]; rfl
    simp only [List.getElem_map, List.getElem_range, Nat.zero_add, hv] at h
    rw [word_byte (by simp; omega) (by omega)] at h
    rw [show blkBase + j = 0x80 + 4 * (j / 4) + j % 4 by simp only [blkBase]; omega, h]
    simp only [blockSlice, List.getElem_take, List.getElem_drop]
    congr 2; omega
  generalize hbs : blockSlice n bytes k = bs at *
  have hpix : readPix (M0.writeBytes pixBase (pixBytes (f bs))) = some (f bs) := readPix_writeBytes M0 (hlen bs)
  have hins : ∀ i ∈ insideTexels W H k, i < 16 := fun i hi => List.mem_range.1 (List.mem_filter.1 hi).1
  have hrun := runProgram_completes "pixel" c (decodeCommand fmt) ws ((insideTexels W H k).map fun i => (0x40 + 4 * i, texelWord ((f bs).getD i { r := 0, g := 0, b := 0, a := 0 }))) delay (M0.writeBytes pixBase (pixBytes (f bs))) hb hdec ?_ ?_ ?_
  · obtain ⟨c', h1, h2⟩ := hrun
    refine ⟨c', h1, ?_⟩
    have e1 : decompressWrites fmt bytes k = ws.map (fun p : Nat × Word => HostOp.write p.1 4 p.2) ++ [.write 0 4 (encode (decodeCommand fmt))] := by
      simp only [decompressWrites, hws, hnn]
      rfl
    have e2 : decompressReads W H k = ((insideTexels W H k).map fun i => (0x40 + 4 * i, texelWord ((f bs).getD i { r := 0, g := 0, b := 0, a := 0 }))).map fun r : Nat × Word => HostOp.read r.1 4 "pixel" := by
      simp [decompressReads]
    rw [e1, e2, h2, List.map_map]; rfl
  · intro p hp
    obtain ⟨a, b, d⟩ := hw p hp
    obtain ⟨sl, hs, -⟩ := slotFor_word a b d
    exact ⟨by omega, by simp [hs]⟩
  · intro s hm _
    rw [happ] at hm
    have hs := hx s bs (by rw [hm]; exact hblk)
    exact ⟨_, hs, by simp [hm], rfl, rfl, rfl, rfl⟩
  · intro r hr s hm hb'
    obtain ⟨i, hi', rfl⟩ := List.mem_map.1 hr
    have hi16 := hins i hi'
    have hil : i < (f bs).length := by rw [hlen]; exact hi16
    have ht := (readPix_eq_some.1 hpix).2 i hil
    obtain ⟨t0, t1, t2, t3⟩ := readTexel_eq_some.1 ht
    refine memRead_word (by omega) (by omega) (by omega) hb' ?_
    rw [hm, List.getD_eq_getElem _ _ hil, ← texelWord_eq]
    refine readWord_of_bytes rfl ?_
    intro b hb4
    simp [texelBytes] at hb4
    interval_cases b <;> assumption

end Sys2Proof.Machine
end

