-- ==== Sys2Proof/Laws/PerInstr.lean ====
section
/-! SUPPORT. The per-instruction family `Legal`: each command's word is well-formed and its fields are what the table fixes. -/

namespace Sys2Proof.Laws.Legal

/-- A command's fields pass rule R62's checks, its reserved bits are 0 and its format code names a format (rules R60, R63). -/
def Statement (i : Instr) : Prop :=
  i.wf = true ∧ i.fields.rsvd = 0 ∧ (Format.ofCode i.fields.fmt).isSome

theorem encBc1 (fit : Fit) (wba : Bool) : Statement (.encBc1 fit wba) := ⟨Machine.Instr.wf_all _, rfl, rfl⟩
theorem encBc2 (fit : Fit) (wba : Bool) : Statement (.encBc2 fit wba) := ⟨Machine.Instr.wf_all _, rfl, rfl⟩
theorem encBc3 (fit : Fit) (wba : Bool) : Statement (.encBc3 fit wba) := ⟨Machine.Instr.wf_all _, rfl, rfl⟩
theorem encBc4 (fit : Fit) : Statement (.encBc4 fit) := ⟨Machine.Instr.wf_all _, rfl, rfl⟩
theorem encBc5 (fit : Fit) : Statement (.encBc5 fit) := ⟨Machine.Instr.wf_all _, rfl, rfl⟩
theorem decBc1 : Statement .decBc1 := ⟨Machine.Instr.wf_all _, rfl, rfl⟩
theorem decBc2 : Statement .decBc2 := ⟨Machine.Instr.wf_all _, rfl, rfl⟩
theorem decBc3 : Statement .decBc3 := ⟨Machine.Instr.wf_all _, rfl, rfl⟩
theorem decBc4 : Statement .decBc4 := ⟨Machine.Instr.wf_all _, rfl, rfl⟩
theorem decBc5 : Statement .decBc5 := ⟨Machine.Instr.wf_all _, rfl, rfl⟩

end Sys2Proof.Laws.Legal
end

