-- ==== Sys2Proof/Tests/Slice0.lean ====
section
/-! SUPPORT. The model's own tests: ill-formed terms that each check refuses, words written out from the spec's encoding, the
spec's vectors one step each, and for each obligation with hypotheses a witness that meets them. Expected values are those of
spec/95_test_vectors.md, by the vector's name. -/

open Sys2Proof Sys2Proof.Machine

namespace Sys2Proof.Tests

/-! ### Small states -/

/-- A texel from four numbers. -/
def tex (r g b a : Nat) : Texel := texelOfNats r g b a

/-- An idle core whose `PIX` holds sixteen texels. -/
def pixState (mask : Nat) (f : Nat → Texel) : State :=
  { State.reset with
    texelMask := BitVec.ofNat 16 mask
    mem := Memory.writeBytes [] 0x40 (pixBytes ((List.range 16).map f)) }

/-- An idle core whose `BLK` starts with the given bytes. -/
def blkState (bytes : List Nat) : State :=
  { State.reset with mem := Memory.writeBytes [] 0x80 (bytes.map (BitVec.ofNat 8)) }

/-- What a step leaves in `BLK[0..n-1]` and `ERRMETRIC`. -/
def blockAfter (n : Nat) (o : Host.Outcome State Fault Refusal) : Option (List Nat × Nat) :=
  match o with
  | .next t => (readBlk t.mem n).map fun bs => (bs.map (·.toNat), t.errMetric.toNat)
  | .fault _ => none
  | .refused _ => none

/-- What a step leaves in `PIX`, as pixel words. -/
def pixelsAfter (o : Host.Outcome State Fault Refusal) : Option (List Nat) :=
  match o with
  | .next t => (readPix t.mem).map fun tx => tx.map fun x => (texelWord x).toNat
  | .fault _ => none
  | .refused _ => none

/-- `STATUS` and `CMD` after a step. -/
def statusAfter (o : Host.Outcome State Fault Refusal) : Option (Nat × Nat) :=
  match o with
  | .next t => some (t.status.word.toNat, t.cmd.toNat)
  | .fault _ => none
  | .refused _ => none

/-- The fault a step ends in. -/
def faultOf (o : Host.Outcome State Fault Refusal) : Option Fault :=
  match o with
  | .next _ => none
  | .fault f => some f
  | .refused _ => none

/-- The step that performs the word `w`. -/
def runWord (s : State) (w : Nat) : Host.Outcome State Fault Refusal := step (s.withFetchWord 32 w)

/-- The block of V-SRC-1: eight red texels, eight blue ones. -/
def redBlue (i : Nat) : Texel := if i < 8 then tex 255 0 0 255 else tex 0 0 255 255

/-- The block of V-CMD-2: the same colors, alpha `17·i`. -/
def redBlueAlpha (i : Nat) : Texel := if i < 8 then tex 255 0 0 (17 * i) else tex 0 0 255 (17 * i)

/-- The block of V-FIT-2. -/
def fitBlock (i : Nat) : Texel :=
  if i = 0 then tex 0 0 0 255 else if i < 8 then tex 100 100 100 255 else if i < 15 then tex 110 110 110 255
  else tex 255 255 255 255

/-! ### WellFormed: each check refuses an ill-formed term (rule R62) -/

theorem test_wf_refuses_format : ({ dir := false, fmt := 6, fit := false, wba := false, rsvd := 0 } : CmdFields).wf = false := by
  decide
theorem test_wf_refuses_reserved : ({ dir := false, fmt := 1, fit := false, wba := false, rsvd := 1 } : CmdFields).wf = false := by
  decide
theorem test_wf_refuses_decode_option : ({ dir := true, fmt := 1, fit := true, wba := false, rsvd := 0 } : CmdFields).wf = false := by
  decide
theorem test_wf_refuses_wba_without_color :
    ({ dir := false, fmt := 4, fit := false, wba := true, rsvd := 0 } : CmdFields).wf = false := by decide
theorem test_wf_accepts : ({ dir := false, fmt := 5, fit := true, wba := false, rsvd := 0 } : CmdFields).wf = true := by decide

/-! ### Decode: words written bit by bit from rules R60 and R63, and the rejected words of B9 -/

theorem test_decode_encBc1 : decodeTableWord 32 0b000010 = some (.encBc1 .range false) := by decide
theorem test_decode_encBc1_options : decodeTableWord 32 0b110010 = some (.encBc1 .cluster true) := by decide
theorem test_decode_encBc2 : decodeTableWord 32 0b100100 = some (.encBc2 .range true) := by decide
theorem test_decode_encBc3 : decodeTableWord 32 0b010110 = some (.encBc3 .cluster false) := by decide
theorem test_decode_encBc4 : decodeTableWord 32 0b011000 = some (.encBc4 .cluster) := by decide
theorem test_decode_encBc5 : decodeTableWord 32 0b001010 = some (.encBc5 .range) := by decide
theorem test_decode_dec :
    [0b0011, 0b0101, 0b0111, 0b1001, 0b1011].map (decodeTableWord 32) =
      [some .decBc1, some .decBc2, some .decBc3, some .decBc4, some .decBc5] := by decide
/-- B9. -/
theorem test_rejected_words :
    [0x0, 0x1, 0xC, 0xE, 0x13, 0x23, 0x28, 0x3A, 0x42, 0x4E, 0xFFFFFFFF, 0x8000000B].map
        (fun w => statusAfter (runWord State.reset w)) =
      [some (0x22, 0x0), some (0x22, 0x1), some (0x22, 0xC), some (0x22, 0xE), some (0x42, 0x13), some (0x42, 0x23),
       some (0x42, 0x28), some (0x42, 0x3A), some (0x42, 0x42), some (0x22, 0x4E), some (0x22, 0xFFFFFFFF),
       some (0x42, 0x8000000B)] := by decide +kernel

/-! ### Quantizer, palettes, ColorSet, axis (B1 to B4) -/

theorem test_quant5 : [0, 4, 5, 12, 127, 128, 250, 251, 255].map (fun t : Nat => quant5 (t : Rat)) =
    [0, 0, 1, 1, 15, 16, 30, 31, 31] := by decide +kernel
theorem test_quant6 : [0, 4, 5, 8, 12, 127, 130, 250, 255].map (fun t : Nat => quant6 (t : Rat)) =
    [0, 1, 1, 2, 3, 31, 32, 62, 63] := by decide +kernel
theorem test_quant8_ties : [(255 : Rat) / 2, 1 / 3, 2 / 3, 511 / 2, -1].map quant8 = [128, 0, 1, 255, 0] := by decide +kernel
theorem test_expand : expand565 0x08A4 = { r := 8, g := 20, b := 33 } := by decide
theorem test_palette_three : (colorPalette (fourColorMode .bc1 0x001F 0xF800) 0x001F 0xF800).map (fun e => (e.rgb.r, e.rgb.b, e.alpha)) =
    [(0, 255, 255), (255, 0, 255), (127, 127, 255), (0, 0, 0)] := by decide
theorem test_palette_eight : channelPalette 150 0 = [150, 0, 128, 107, 85, 64, 42, 21] := by decide
theorem test_palette_six : channelPalette 200 201 = [200, 201, 200, 200, 200, 200, 0, 255] := by decide
theorem test_colorset_wba :
    (colorPoints (samplesOf Config.thisHardware .bc2 true 0xFFFF ((List.range 16).map fun i =>
      if i < 8 then tex 255 0 0 255 else if i < 12 then tex 0 0 255 200 else tex 0 255 0 100))).map (·.wt) = [2048, 804] := by
  decide
/-- V-AX-1. -/
theorem test_axis : principalAxis Config.thisHardware
    [{ val := { r := 255, g := 0, b := 0 }, wt := 8 }, { val := { r := 0, g := 0, b := 255 }, wt := 8 }] =
    { r := 95847983187106428761509822521077548047138816000000000000000000, g := 0,
      b := -95847983187106428761509822521077548047138816000000000000000000 } := by decide +kernel
theorem test_partitions_order : partitions 2 3 = [[0, 0], [0, 1], [0, 2], [1, 1], [1, 2], [2, 2]] := by decide

/-! ### The encode commands, one step each (B6, B8) -/

/-- V-SRC-1. -/
theorem test_encBc1_range : blockAfter 8 (runWord (pixState 0xFFFF redBlue) 0x02) =
    some ([0x00, 0xF8, 0x1F, 0x00, 0x00, 0x00, 0x55, 0x55], 0) := by decide +kernel
/-- V-FIT-2: a clamped least-squares endpoint wins. -/
theorem test_encBc1_cluster : blockAfter 8 (runWord (pixState 0xFFFF fitBlock) 0x12) =
    some ([0xFF, 0xFF, 0xA3, 0x18, 0xFD, 0xFF, 0xFF, 0x3F], 3736) := by decide +kernel
/-- V-CMD-2, second block: the excluded green texels keep their nearest index. -/
theorem test_encBc2_wba : blockAfter 16 (runWord (pixState 0xFFFF fun i =>
      if i < 8 then tex 255 0 0 255 else if i < 12 then tex 0 0 255 200 else tex 0 255 0 100) 0x24) =
    some ([0xFF, 0xFF, 0xFF, 0xFF, 0xCC, 0xCC, 0x66, 0x66, 0x00, 0xF8, 0x1F, 0x00, 0x00, 0x00, 0x55, 0xAA], 0) := by
  decide +kernel
/-- V-CMD-3. -/
theorem test_encBc3 : blockAfter 16 (runWord (pixState 0xFFFF redBlueAlpha) 0x06) =
    some ([0xFF, 0x00, 0xC9, 0x6F, 0xB7, 0xE4, 0x26, 0x01, 0x00, 0xF8, 0x1F, 0x00, 0x00, 0x00, 0x55, 0x55], 1660) := by
  decide +kernel
/-- The samples of a fully transparent block: alphas 120 twice, 41 five times, 127 nine times. -/
def nearThreshold : List ChannelSample :=
  (List.replicate 2 120 ++ List.replicate 5 41 ++ List.replicate 9 127).map fun x => { x := x, excl := false }

/-- Rules R131 and R164 on one block, computed from R125 to R131 by a transcription apart from the model: the range fit keeps
R164 with `(127, 41)` and error 72; the cluster fit's first of least error is `(128, 41)` with error 59, which decodes 127 to 128
(log entry 16). -/
theorem test_encBc3_transparent :
    [Fit.range, Fit.cluster].map (fun f =>
        ((fitChannel f nearThreshold).e0, (fitChannel f nearThreshold).e1, (fitChannel f nearThreshold).err)) =
      [(127, 41, 72), (128, 41, 59)] := by decide +kernel
/-- V-CMD-4. -/
theorem test_encBc4 : blockAfter 8 (runWord (pixState 0xFFFF fun i => tex (10 * i) 0 0 255) 0x08) =
    some ([0x96, 0x00, 0xC9, 0x6F, 0xB7, 0xE4, 0x26, 0x01], 578) := by decide +kernel
/-- B6: the six-value mode wins. -/
theorem test_encBc4_six : blockAfter 8 (runWord (pixState 0xFFFF fun i =>
      tex ([0, 255, 0, 255, 100, 110, 120, 130, 0, 255, 100, 110, 120, 130, 0, 255].getD i 0) 0 0 255) 0x08) =
    some ([0x64, 0x82, 0xBE, 0x8F, 0x31, 0x3E, 0xC6, 0xF8], 16) := by decide +kernel
/-- V-CMD-5, masked. -/
theorem test_encBc5 : blockAfter 16 (runWord (pixState 0x00FF fun i => tex (10 * i) (255 - 10 * i) 0 255) 0x0A) =
    some ([0x46, 0x00, 0xB9, 0xCB, 0x09, 0x00, 0x00, 0x00, 0xFF, 0xB9, 0xD0, 0x58, 0x3F, 0x49, 0x92, 0x24], 0) := by
  decide +kernel

/-! ### The decode commands, one step each (B8) -/

/-- V-CMD-7: three-color mode. -/
theorem test_decBc1 : pixelsAfter (runWord (blkState [0x1F, 0, 0, 0xF8, 0xE4, 0xE4, 0xE4, 0xE4]) 0x03) =
    some ((List.replicate 4 [0xFFFF0000, 0xFF0000FF, 0xFF7F007F, 0x00000000]).flatten) := by decide +kernel
/-- V-CMD-7: four-color although `c0 < c1`. -/
theorem test_decBc2 : pixelsAfter (runWord (blkState [0, 0, 0, 0, 0, 0, 0, 0, 0x1F, 0, 0, 0xF8, 0xE4, 0xE4, 0xE4, 0xE4]) 0x05) =
    some ((List.replicate 4 [0x00FF0000, 0x000000FF, 0x00AA0055, 0x005500AA]).flatten) := by decide +kernel
/-- V-CMD-3: the alphas. -/
theorem test_decBc3 : (pixelsAfter (runWord (blkState
      [0xFF, 0x00, 0xC9, 0x6F, 0xB7, 0xE4, 0x26, 0x01, 0x00, 0xF8, 0x1F, 0x00, 0x00, 0x00, 0x55, 0x55]) 0x07)).map
      (fun ws => ws.map (· / 16777216)) =
    some [0, 0, 36, 36, 72, 72, 109, 109, 145, 145, 182, 182, 218, 218, 255, 255] := by decide +kernel
/-- V-CMD-7: the six-value palette. -/
theorem test_decBc4 : pixelsAfter (runWord (blkState [0x00, 0xFF, 0x88, 0xC6, 0xFA, 0x88, 0xC6, 0xFA]) 0x09) =
    some ((List.replicate 2 ([0, 255, 51, 102, 153, 204, 0, 255].map (0xFF000000 + ·))).flatten) := by decide +kernel
/-- V-CMD-5: texels 0 and 15. -/
theorem test_decBc5 : (pixelsAfter (runWord (blkState
      [0x96, 0x00, 0xC9, 0x6F, 0xB7, 0xE4, 0x26, 0x01, 0xFF, 0x69, 0x80, 0xB4, 0x91, 0xAD, 0xFD, 0x27]) 0x0B)).map
      (fun ws => (ws.getD 0 0, ws.getD 15 0)) = some (0xFF00FF00, 0xFF006996) := by decide +kernel

/-! ### The window and the driver's errors (B10, B11) -/

/-- What a read of a word answers. -/
def readOf (r : Except Fault (Word × State)) : Except Fault Nat := r.map fun p => p.1.toNat

theorem test_reset_registers : [0x0, 0x4, 0x8, 0xC].map (fun a => (readOf (memRead a 4 State.reset)).toOption) =
    [some 0, some 0, some 0xFFFF, some 0] := by decide
theorem test_uninit : faultOf (step { State.reset with pending := [.read 0x40 4 "x"] }) = some .uninit := by decide
theorem test_uninit_command : faultOf (runWord State.reset 0x02) = some .uninit := by decide
theorem test_bus_errors : [(0x10, 4), (0x90, 4), (0xFC, 4), (0x42, 4), (0x40, 2)].map
      (fun p => faultOf (step { State.reset with pending := [.read p.1 p.2 "x"] })) =
    [some (.busError 0x10 4), some (.busError 0x90 4), some (.busError 0xFC 4), some (.busError 0x42 4),
     some (.busError 0x40 2)] := by decide
theorem test_mask_write : ((memWrite 0x08 4 0xABCD1234 State.reset).toOption.map fun s => (maskWord s).toNat) = some 0x1234 := by
  decide
theorem test_busy_write : ((memWrite 0x40 4 0 (accept 0x02 (pixState 0xFFFF redBlue))).toOption.map fun s =>
      (s.status.word.toNat, (s.mem.read 0x40).map (·.toNat))) = some (0x101, some 0xFF) := by decide +kernel
theorem test_driver_errors :
    compress State.reset [] 0 6 1 false false = .error .invalidDimensions ∧
    compress State.reset [] 4 6 7 false false = .error .unsupportedFormat ∧
    compress State.reset (List.replicate 23 (tex 0 0 0 0)) 4 6 1 false false = .error .truncatedInput ∧
    decompress State.reset [] 0 6 9 = .error .invalidDimensions ∧
    decompress State.reset [] 4 6 9 = .error .unsupportedFormat := by decide

/-! ### Witnesses: for each obligation with hypotheses, values that meet them -/

/-- A state with every buffer byte valued; texels 0 and 15 are punch-through in BC1. -/
def full : State :=
  { State.reset with
    mem := Memory.writeBytes
      (Memory.writeBytes [] 0x40 (pixBytes ((List.range 16).map fun i =>
        if i = 0 then tex 255 0 0 127 else if i < 15 then redBlue i else tex 0 0 255 0)))
      0x80 (List.replicate 16 0xE4) }

theorem full_pixReady : PixReady full := readPix_isSome_iff.1 ⟨_, rfl⟩
theorem full_blkReady8 : BlkReady 8 full := readBlk_isSome_iff.1 ⟨_, rfl⟩
theorem full_blkReady16 : BlkReady 16 full := readBlk_isSome_iff.1 ⟨_, rfl⟩

theorem witness_ResetGivesEveryRegisterItsValue : nextTurn { accept 0x03 full with sched := [.reset] } = .reset := rfl

theorem witness_EveryStepKeepsTheInvariant : CoreInvariant (accept 0x03 full) ∧ ∃ t, step (accept 0x03 full) = .next t :=
  ⟨⟨by decide +kernel, by decide, by decide, by decide, fun _ => rfl, fun _ => rfl, by decide⟩, _, rfl⟩

theorem witness_BusyIsSetByAcceptanceAndClearedByCompletion :
    (∃ t, step { full with pending := [.write 0 4 0x03] } = .next t ∧ full.status.busy = false ∧ t.status.busy = true) ∧
    (∃ t, step (accept 0x03 full) = .next t ∧ (accept 0x03 full).status.busy = true ∧ t.status.busy = false) ∧
    ∃ t, step { accept 0x03 full with sched := [.host] } = .next t ∧ t.status.busy = true :=
  ⟨⟨_, rfl, rfl, rfl⟩, ⟨_, rfl, rfl, rfl⟩, _, rfl, rfl⟩

theorem witness_DoneIsSetByCompletionAndClearedByAcceptance :
    (∃ t, step (accept 0x03 full) = .next t ∧ (accept 0x03 full).status.done = false ∧ t.status.done = true) ∧
    (∃ t, step { raise .none full with pending := [.write 0 4 0x03] } = .next t ∧ t.status.done = false) ∧
    ∃ t, step { raise .none full with sched := [.reset] } = .next t ∧ t.status.done = false :=
  ⟨⟨_, rfl, rfl, rfl⟩, ⟨_, rfl, rfl⟩, _, rfl, rfl⟩

theorem witness_ErrHoldsTheCodeOfTheOutcome :
    (∃ t, step (accept 0x03 full) = .next t ∧ nextTurn (accept 0x03 full) = .core ∧ (accept 0x03 full).lcmd = some 0x03) ∧
    (∃ t, step (accept 0x0C full) = .next t ∧ commandCheck 0x0C = .unsupportedFormat) ∧
    (∃ t, step (accept 0x13 full) = .next t ∧ commandCheck 0x13 = .invalidCommand) ∧
    (∃ t, step full = .next t ∧ nextTurn full ≠ .core) ∧
    (∃ t, step { raise .invalidCommand full with sched := [.reset] } = .next t ∧ t.status.err = .none) ∧
    ∃ t, step { raise .invalidCommand full with pending := [.write 0 4 0x03] } = .next t ∧
      nextTurn { raise .invalidCommand full with pending := [.write 0 4 0x03] } = .host ∧ t.status.busy = true ∧
      t.status.err = .none :=
  ⟨⟨_, rfl, rfl, rfl⟩, ⟨_, rfl, by decide⟩, ⟨_, rfl, by decide⟩, ⟨_, rfl, by decide⟩, ⟨_, rfl, rfl⟩, _, rfl, rfl, rfl, rfl⟩

theorem witness_BusyWriteIsDroppedAndWerrIsSticky :
    (accept 0x03 full).status.busy = true ∧
    (∀ a ∈ [0x00, 0x08, 0x40, 0x8C], a % 4 = 0 ∧ (a = 0x00 ∨ a = 0x08 ∨ (0x40 ≤ a ∧ a < 0x90))) ∧
    (∃ t, step { raise .none full with
        status := { busy := false, done := true, err := .none, werr := true }, pending := [.write 0 4 0x03] } = .next t ∧
      t.status.werr = false) ∧
    ∃ t, step { full with
        status := { busy := true, done := false, err := .none, werr := true }, sched := [.reset] } = .next t ∧
      t.status.werr = false :=
  ⟨rfl, by decide, ⟨_, rfl, rfl⟩, _, rfl, rfl⟩

theorem witness_CmdWriteAcceptsAnyValue : full.status.busy = false ∧ (accept 0x03 full).status.busy = true := ⟨rfl, rfl⟩

theorem witness_MaskKeepsSixteenBitsAndDecodeIgnoresIt :
    full.status.busy = false ∧ Instr.isDecode .decBc3 = true ∧ ∃ t, exec .decBc3 full = .next t := ⟨rfl, rfl, _, rfl⟩

theorem witness_BufferWordIsStoredLittleEndian :
    full.status.busy = false ∧ (∀ a ∈ [0x40, 0x7C, 0x80, 0x8C], a % 4 = 0 ∧ 0x40 ≤ a ∧ a < 0x90) ∧
    (0x40 = 0x40 + 4 * 0 ∧ 0 < 16) ∧ (0x7C = 0x40 + 4 * 15 ∧ 15 < 16) := by decide

theorem witness_BadAccessIsABusError :
    (∀ p ∈ [(0x00, 1), (0x00, 8), (0x42, 4), (0x10, 4), (0x3C, 4), (0x90, 4), (0xFC, 4)],
      p.2 ≠ 4 ∨ p.1 % 4 ≠ 0 ∨ (0x10 ≤ p.1 ∧ p.1 < 0x40) ∨ 0x90 ≤ p.1) ∧
    nextTurn { full with pending := [.read 0x10 4 "x"] } = .host ∧ nextTurn { full with pending := [.write 0x10 4 0] } = .host ∧
    (∀ a ∈ [0x00, 0x0C, 0x40, 0x8C], a % 4 = 0 ∧ (a < 0x10 ∨ (0x40 ≤ a ∧ a < 0x90))) := by decide

theorem witness_ReadingNoValueIsUninit :
    State.reset.status.busy = false ∧ (∀ a ∈ [0x40, 0x8C], a % 4 = 0 ∧ 0x40 ≤ a ∧ a < 0x90) ∧
    memRead 0x40 4 State.reset = .error .uninit ∧ (∃ p, memRead 0x8C 4 full = .ok p) ∧
    exec (.encBc1 .range false) State.reset = .fault .uninit ∧ CommandReady (.encBc1 .range false) full ∧
    (nextTurn { State.reset with pending := [.read 0x8C 4 "x"] } = .host ∧
      memRead 0x8C 4 { State.reset with pending := [.read 0x8C 4 "x"] } = .error .uninit) ∧
    (nextTurn (accept 0x02 State.reset) = .core ∧ decode 0x02 = .ok (.encBc1 .range false) ∧
      ¬ CommandReady (.encBc1 .range false) (accept 0x02 State.reset)) := by
  refine ⟨rfl, by decide, rfl, ⟨_, rfl⟩, rfl, full_pixReady, ⟨rfl, rfl⟩, rfl, by decide, ?_⟩
  intro h
  obtain ⟨tx, h⟩ := readPix_isSome_iff.2 h
  exact nomatch (show readPix (accept 0x02 State.reset).mem = none from rfl).symm.trans h

theorem witness_ReadsHaveNoSideEffectAndAreExactWhenIdle :
    (∃ p, memRead 0x40 4 full = .ok p) ∧ full.status.busy = false ∧ (∃ p, memRead 0x40 4 (accept 0x03 full) = .ok p) ∧
    (accept 0x03 full).status.busy = true ∧
    (∀ a ∈ [0x0C, 0x40, 0x8C], a % 4 = 0 ∧ (a = 0x0C ∨ (0x40 ≤ a ∧ a < 0x90))) ∧
    ∀ p ∈ [(0x40, 0xFF, 0x00, 0x00, 0x7F), (0x8C, 0xE4, 0xE4, 0xE4, 0xE4)],
      full.mem.read p.1 = some p.2.1 ∧ full.mem.read (p.1 + 1) = some p.2.2.1 ∧
      full.mem.read (p.1 + 2) = some p.2.2.2.1 ∧ full.mem.read (p.1 + 3) = some p.2.2.2.2 :=
  ⟨⟨_, rfl⟩, rfl, ⟨_, rfl⟩, rfl, by decide, by decide⟩

/-- R75: a variable holds the value last read into it. -/
theorem test_host_variables :
    (hostVar "x" (observe "s" 0x04 2 (observe "x" 0x80 7 (observe "x" 0x0C 5 full)))).map (·.toNat) = some 7 := by decide

theorem witness_ValidityCheckOrder : ∃ t, exec (.encBc4 .range) full = .next t := ⟨_, rfl⟩

theorem test_spelling : parseCommand "enc.bc1.cluster.wba" = some (.encBc1 .cluster true) ∧ parseCommand "enc.bc4.wba" = none := by
  decide +kernel

theorem witness_CoreTurnRunsTheLatchedCommand :
    nextTurn (accept 0x03 full) = .core ∧ (accept 0x03 full).status.busy = true ∧ (accept 0x03 full).lcmd = some 0x03 ∧
    decode 0x03 = .ok .decBc1 ∧ nextTurn (accept 0x0C full) = .core ∧ decode 0x0C = .error .unsupportedFormat ∧
    nextTurn { full with sched := [.core] } = .core ∧ full.status.busy = false := by
  refine ⟨rfl, rfl, rfl, by decide, rfl, by decide, rfl, rfl⟩

theorem witness_HostTurnIssuesTheNextAccess :
    (nextTurn { full with pending := [.write 0x08 4 1] } = .host ∧
      ∃ t, memWrite 0x08 4 1 { useTurn { full with pending := [.write 0x08 4 1] } with pending := [] } = .ok t) ∧
    (nextTurn { full with pending := [.read 0x80 4 "x"] } = .host ∧
      ∃ p, memRead 0x80 4 { useTurn { full with pending := [.read 0x80 4 "x"] } with pending := [] } = .ok p) ∧
    (nextTurn { full with pending := [.poll] } = .host ∧
      nextTurn { accept 0x03 full with pending := [.poll], sched := [.host] } = .host) ∧
    (nextTurn full = .host ∧ full.pending = []) :=
  ⟨⟨rfl, _, rfl⟩, ⟨rfl, _, rfl⟩, ⟨rfl, rfl⟩, rfl, rfl⟩

theorem witness_RejectedCommandChangesOnlyStatus :
    decode 0x0E = .error .unsupportedFormat ∧ decode 0x28 = .error .invalidCommand := by decide

/-- A core with `enc.bc1` in progress, two host turns ahead, and a host that polls and then reads the result. -/
def polling : State := { accept 0x02 full with pending := [.poll, .read 0x80 4 "w0", .read 0x84 4 "w1"], sched := [.host, .host] }

theorem witness_AcceptedCommandCompletes :
    polling.status.busy = true ∧ polling.lcmd = some 0x02 ∧ (∀ i, decode 0x02 = .ok i → CommandReady i polling) ∧
    (polling.pending = [] ∨ polling.pending.head? = some .poll) ∧ Turn.reset ∉ polling.sched := by
  refine ⟨rfl, rfl, ?_, by decide, by decide⟩
  intro i h
  rw [show decode 0x02 = .ok (.encBc1 .range false) by decide] at h
  cases h
  exact full_pixReady

theorem witness_ResultsDependOnTheInputsAlone :
    (Instr.isDecode (.encBc5 .range) = false ∧ ∃ t, exec (.encBc5 .range) full = .next t) ∧
    Instr.isDecode .decBc5 = true ∧ ∃ t, exec .decBc5 full = .next t := ⟨⟨rfl, _, rfl⟩, rfl, _, rfl⟩

theorem witness_EncBc1StoresTheChosenColorBlock : PixReady full := full_pixReady
theorem witness_EncBc2StoresExplicitAlphaAndColor : PixReady full := full_pixReady
theorem witness_EncBc3StoresAlphaChannelAndColor : PixReady full := full_pixReady
theorem witness_EncBc4StoresTheRedChannel : PixReady full := full_pixReady
theorem witness_EncBc5StoresRedAndGreen : PixReady full := full_pixReady

theorem witness_DecBc1ExpandsTheColorBlock : BlkReady 8 full ∧ 0 < 16 ∧ 15 < 16 := ⟨full_blkReady8, by decide⟩
theorem witness_DecBc2ExpandsExplicitAlphaAndColor : BlkReady 16 full ∧ 0 < 16 ∧ 15 < 16 := ⟨full_blkReady16, by decide⟩
theorem witness_DecBc3ExpandsAlphaChannelAndColor : BlkReady 16 full ∧ 0 < 16 ∧ 15 < 16 := ⟨full_blkReady16, by decide⟩
theorem witness_DecBc4ExpandsTheRedChannel : BlkReady 8 full ∧ 0 < 16 ∧ 15 < 16 := ⟨full_blkReady8, by decide⟩
theorem witness_DecBc5ExpandsRedAndGreen : BlkReady 16 full ∧ 0 < 16 ∧ 15 < 16 := ⟨full_blkReady16, by decide⟩

theorem witness_DecodeTwiceWritesTheSamePixels : Instr.isDecode .decBc2 = true ∧ ∃ t, exec .decBc2 full = .next t := ⟨rfl, _, rfl⟩

theorem witness_RoundTripErrorBc1 : PixReady full ∧ ∃ tx, readPix full.mem = some tx ∧
    ∀ i ∈ [0, 15], i < 16 ∧ maskBit full.texelMask i = true ∧ (texelAt tx i).a.toNat < 128 :=
  ⟨full_pixReady, _, rfl, by decide⟩
theorem witness_RoundTripErrorBc2AndBc3 : PixReady full ∧ 15 < 16 ∧
    PixReady (pixState 0xFFFF fun i => tex 1 2 3 (112 + i)) ∧ Fit.range = .range ∧
    (pixState 0xFFFF fun i => tex 1 2 3 (112 + i)).texelMask = 0xFFFF ∧
    ∃ tx, readPix (pixState 0xFFFF fun i => tex 1 2 3 (112 + i)).mem = some tx ∧
      ∀ i, i < 16 → (texelAt tx i).a.toNat < 128 :=
  ⟨full_pixReady, by decide, readPix_isSome_iff.1 ⟨_, rfl⟩, rfl, by decide, _, rfl, by decide⟩
theorem witness_RoundTripErrorBc4AndBc5 : PixReady full := full_pixReady

theorem witness_QuantizerRoundsAndExpanderReplicates :
    (255 : Nat) ≤ 255 ∧ (0 : Rat) ≤ 255 / 2 ∧ (255 : Rat) / 2 ≤ 255 ∧ 31 < 32 ∧ 63 < 64 := by decide +kernel
theorem witness_ChannelPaletteEntriesByMode :
    (150 > 0 ∧ 2 ≤ 2 ∧ 2 ≤ 7 ∧ 2 ≤ 7 ∧ 7 ≤ 7) ∧ (0 ≤ 150 ∧ 100 ≤ 100 ∧ 2 ≤ 2 ∧ 2 ≤ 5 ∧ 5 ≤ 5) := by decide
theorem witness_PalettesAreMonotonic : (255 > 0) ∧ (100 ≤ 100) ∧ ∃ ch : Vec3 Nat → Nat, ch = (·.r) ∨ ch = (·.g) ∨ ch = (·.b) :=
  ⟨by decide, by decide, _, .inl rfl⟩
theorem witness_EqualEndpointsGiveIndexZero :
    (3 < 4 ∧ (true = true ∨ 3 ≠ 3)) ∧ (2 < 4 ∧ (false = true ∨ 2 ≠ 3)) ∧ (5 < 6) ∧
    (sampleOf Config.thisHardware .bc1 false 0xFFFF 1 (redBlue 1)).punch = false := by decide

/-- Two colors, one of them twice, and an excluded texel. -/
def someSamples : List Sample :=
  samplesOf Config.thisHardware .bc1 false 0xFFFF [redBlue 0, redBlue 15, redBlue 1, tex 9 9 9 0]

theorem witness_ColorSetIsTheWeightedDistinctColors :
    ({ val := { r := 255, g := 0, b := 0 }, wt := 2 } : Point (Vec3 Nat)) ∈ colorPoints someSamples := by decide
theorem witness_ExclusionAndWeights :
    punched Config.thisHardware .bc1 0xFFFF 0 (tex 1 2 3 127) = true ∧ punched Config.thisHardware .bc1 0xFFFF 0 (tex 1 2 3 128) = false ∧
    excluded Config.thisHardware .bc3 true 0xFFFF 15 (tex 1 2 3 127) = true ∧
    excluded Config.thisHardware .bc3 false 0x7FFF 15 (tex 1 2 3 255) = true ∧ threeColor someSamples = true := by decide
/-- A point of weight 1. -/
def onePoint (r g b : Nat) : Point (Vec3 Nat) := { val := { r := r, g := g, b := b }, wt := 1 }

theorem witness_AxisIsNeverZero :
    (([] : List (Point (Vec3 Nat))).length ≤ 1 ∧ [onePoint 1 2 3].length ≤ 1) ∧
    2 ≤ [onePoint 10 20 30, onePoint 20 40 50].length ∧
    ∀ q ∈ [onePoint 10 20 30, onePoint 20 40 50], ∃ m ∈ [(0 : Int), 1],
      (q.val.r : Int) = 10 + m * 10 ∧ (q.val.g : Int) = 20 + m * 20 ∧ (q.val.b : Int) = 30 + m * 20 := by decide
theorem witness_RangeFitTakesTheExtremeProjections :
    [onePoint 1 2 3][0]? = some (onePoint 1 2 3) ∧ colorPoints someSamples ≠ [] ∧ ∀ q ∈ colorPoints someSamples, q.val.r ≤ 255 ∧ q.val.g ≤ 255 ∧ q.val.b ≤ 255 := by decide
theorem witness_PartitionsAreEnumeratedInOrder :
    1 ≤ 1 ∧ 1 ≤ 4 ∧ [0, 2, 2] ∈ partitions 2 4 ∧ ([0, 2, 2] : List Nat).Pairwise (· ≤ ·) ∧
    [clusterOf [0, 2, 2] 0, clusterOf [0, 2, 2] 1, clusterOf [0, 2, 2] 2] = [1, 1, 3] := by decide

/-- Two points in different clusters, and the same two in one. -/
def apart : List Member := [{ k := 0, wt := 1, x := 0 }, { k := 3, wt := 2, x := 255 }]
def together : List Member := [{ k := 2, wt := 1, x := 0 }, { k := 2, wt := 2, x := 255 }]

theorem witness_DeterminantIsZeroForOneClusterOnly :
    1 ≤ 3 ∧ (∀ m ∈ apart, 1 ≤ m.wt) ∧ (∀ m ∈ together, 1 ≤ m.wt) ∧ lsDet 3 apart = 162 ∧ lsDet 3 together = 0 := by decide
theorem witness_LeastSquaresEndpointsAreOptimal : 1 ≤ 3 ∧ lsDet 3 apart ≠ 0 := by decide
theorem witness_FirstLeastColorCandidateIsChosen :
    (colorPoints [sampleOf Config.thisHardware .bc2 false 0xFFFF 0 (redBlue 0)]).length ≤ 1 ∧
    (colorPoints ([] : List Sample)).length ≤ 1 ∧
    threeColor someSamples = true ∧ threeColor ([] : List Sample) = false ∧
    [onePoint 0 0 0, onePoint 9 9 9][1]? = some (onePoint 9 9 9) ∧
    lsDet 3 (membersOf [0, 0, 0] (·.r) [onePoint 0 0 0, onePoint 9 9 9]) = 0 ∧
    lsDet 3 (membersOf [1, 1, 1] (·.r) [onePoint 0 0 0, onePoint 9 9 9]) ≠ 0 := by decide
theorem witness_StoredColorBlockIsItsOwnEvaluation :
    [redBlue 0, tex 9 9 9 0][1]? = some (tex 9 9 9 0) ∧
    (∃ e c, e = (evaluate .bc1 someSamples c).block) ∧
    (∃ e P n, e = encodeColor Config.thisHardware .bc1 .range false 0xFFFF [redBlue 0, tex 9 9 9 0] ∧
      P = colorPalette (fourColorMode .bc1 e.c0 e.c1) e.c0 e.c1 ∧ n = (if fourColorMode .bc1 e.c0 e.c1 then 4 else 3)) ∧
    threeColor (samplesOf Config.thisHardware .bc1 false 0xFFFF [redBlue 0, tex 9 9 9 0]) = true ∧
    threeColor (samplesOf Config.thisHardware .bc2 false 0xFFFF [redBlue 0, tex 9 9 9 0]) = false ∧
    (∃ t, (samplesOf Config.thisHardware .bc1 false 0xFFFF [redBlue 0, tex 9 9 9 0])[1]? = some t ∧ t.punch = true) ∧
    ∃ t, (samplesOf Config.thisHardware .bc1 false 0xFFFF [redBlue 0, tex 9 9 9 0])[0]? = some t ∧ t.punch = false :=
  ⟨rfl, ⟨_, ⟨{ r := 0, g := 0, b := 0 }, { r := 9, g := 9, b := 9 }⟩, rfl⟩, ⟨_, _, _, rfl, rfl, rfl⟩, by decide, by decide,
    ⟨_, rfl, rfl⟩, _, rfl, rfl⟩
theorem witness_StoredChannelBlockIsItsOwnEvaluation :
    (∃ e V, e = encodeChannel (·.g) .range 0x0001 [redBlue 0, tex 9 9 9 0] ∧ V = channelPalette e.e0 e.e1) ∧
    (∃ e, e = evaluateChannel .six [{ x := 3, excl := false }] (0, 9)) ∧
    [redBlue 0, tex 9 9 9 0][1]? = some (tex 9 9 9 0) := ⟨⟨_, _, rfl, rfl⟩, ⟨_, rfl⟩, rfl⟩
theorem witness_FirstLeastChannelCandidateIsChosen :
    fittedValues .six [{ val := 0, wt := 1 }, { val := 1, wt := 1 }, { val := 254, wt := 1 }, { val := 255, wt := 1 }] ≠ [] ∧
    ([{ val := 1, wt := 1 }, { val := 254, wt := 1 }] : List (Point Nat))[1]? = some { val := 254, wt := 1 } ∧
    lsDet 5 (membersOf [0, 0, 0, 0, 0] (fun x => x) [{ val := 1, wt := 1 }, { val := 254, wt := 1 }]) = 0 ∧
    lsDet 5 (membersOf [1, 1, 1, 1, 1] (fun x => x) [{ val := 1, wt := 1 }, { val := 254, wt := 1 }]) ≠ 0 := by decide
theorem witness_ChannelCornerCasesAreExact :
    (∀ t ∈ channelSamples (·.r) 0 [redBlue 0], t.excl = true) ∧
    (∀ t ∈ channelSamples (·.r) 0xFFFF [redBlue 0, redBlue 15], t.excl = false → t.x = 0 ∨ t.x = 255) ∧
    (255 ≤ 255 ∧ (∃ t ∈ channelSamples (·.r) 0xFFFF [redBlue 0], t.excl = false) ∧
      ∀ t ∈ channelSamples (·.r) 0xFFFF [redBlue 0], t.excl = false → t.x = 255) := by decide
theorem witness_DriverErrorsInOrder :
    (0 = 0 ∨ 6 = 0) ∧ (4 ≠ 0 ∧ 6 ≠ 0) ∧ (0 = 0 ∨ 5 < 0) ∧ (6 = 0 ∨ 5 < 6) ∧ (1 ≤ 1 ∧ 1 ≤ 5 ∧ 5 ≤ 5) ∧
    (List.replicate 23 (tex 0 0 0 0)).length < 4 * 6 ∧ formatOfTag 5 = some .bc5 ∧
    (List.replicate 31 (0 : Byte)).length < blockCount 4 6 * Format.bc5.blockBytes := by decide
theorem witness_BlocksTileTheImage :
    (pixelX 5 0 3 < 5 ∧ pixelY 5 0 3 < 6) ∧ (5 ≤ pixelX 5 1 1 ∧ pixelY 5 1 1 < 6) ∧ (pixelX 5 2 8 < 5 ∧ 6 ≤ pixelY 5 2 8) ∧
    (5 ≤ pixelX 5 3 15 ∧ 6 ≤ pixelY 5 3 15) ∧ (4 < 5 ∧ 5 < 6 ∧ 4 ∈ insideTexels 5 6 3) := by decide

/-- Two blocks on two cores, the second block first. -/
def somePlan : List Job := [{ block := 1, core := 0, delay := 3 }, { block := 0, core := 1, delay := 0 }]

theorem somePlan_complete : CompletePlan 2 [State.reset, full].length somePlan := by
  refine ⟨?_, by decide⟩
  exact List.Perm.swap 0 1 []

theorem someCores_idle : AllIdle [State.reset, full] := by
  intro c hc
  simp at hc
  rcases hc with rfl | rfl <;> rfl

/-- Twenty-four pixels of a 4×6 image, and 32 bytes of its two BC5 blocks. -/
def somePixels : List Texel := (List.range 24).map fun i => tex i 0 0 255
def someBytes : List Byte := (List.range 32).map (BitVec.ofNat 8)

/-- The lower block of `somePixels` in `PIX`, its missing rows replicated. -/
def lowerBlock : State := pixState 0xFFFF fun i => tex (16 + (if i < 4 then i else 4 + i % 4)) 0 0 255

theorem witness_CompressDoesNotDependOnThePlan :
    4 ≠ 0 ∧ 6 ≠ 0 ∧ formatOfTag 4 = some .bc4 ∧ 4 * 6 ≤ somePixels.length ∧ blockCount 4 6 = 2 ∧
    AllIdle [State.reset, full] ∧ CompletePlan 2 [State.reset, full].length somePlan ∧
    (0 < (4 + 3) / 4 ∧ 1 < (6 + 3) / 4) ∧ lowerBlock.texelMask = 0xFFFF ∧
    (∀ i, i < 16 → readTexel lowerBlock.mem i = somePixels[min (4 * 1 + i / 4) (6 - 1) * 4 + min (4 * 0 + i % 4) (4 - 1)]?) ∧
    ∃ t, perform (BitVec.ofNat 32 (2 * 4 + 0 + 0)) lowerBlock = .next t :=
  ⟨by decide, by decide, by decide, by decide, by decide, someCores_idle, somePlan_complete, by decide, by decide,
    by decide +kernel, _, rfl⟩
theorem witness_DecompressDoesNotDependOnThePlan :
    4 ≠ 0 ∧ 6 ≠ 0 ∧ formatOfTag 5 = some .bc5 ∧ blockCount 4 6 * Format.bc5.blockBytes ≤ someBytes.length ∧
    AllIdle [State.reset, full] ∧ CompletePlan 2 [State.reset, full].length somePlan ∧ (3 < 4 ∧ 5 < 6) ∧
    (∀ j, j < Format.bc5.blockBytes → (blkState ((List.range 16).map (16 + ·))).mem.read (0x80 + j) =
      someBytes[(5 / 4 * ((4 + 3) / 4) + 3 / 4) * Format.bc5.blockBytes + j]?) ∧
    ∃ t, perform (BitVec.ofNat 32 (2 * 5 + 1)) (blkState ((List.range 16).map (16 + ·))) = .next t :=
  ⟨by decide, by decide, by decide, by decide, someCores_idle, somePlan_complete, by decide, by decide +kernel, _, rfl⟩

end Sys2Proof.Tests
end

section
/-! The control registers `CMD`, `LCMD` and `STATUS`: how a host write reaches a register, and, said once, all that a step can do
to the three; then the obligations about them (rules R16 to R21). -/

namespace Sys2Proof.Machine

/-! ### A host write to a register (rules R16, R21, R42) -/

@[simp] theorem unlessBusy_of_busy {s : State} (hb : s.status.busy = true) (k : State → State) :
    unlessBusy s k = { s with status := s.status.writeDropped } := if_pos hb

@[simp] theorem unlessBusy_of_idle {s : State} (hb : s.status.busy = false) (k : State → State) :
    unlessBusy s k = k s := if_neg (by simp [hb])

/-- An aligned write to a mapped offset is a write of the register there. -/
theorem memWrite_of_slotAt {a : Nat} {sl : Slot} (h : slotAt a = some sl) (v : Word) (s : State) :
    memWrite a 4 v s = .ok (slotWrite sl a v s) := by
  simp [memWrite, slotFor, h]

/-- The registers whose writes are dropped while busy (rule R21). -/
def Slot.heldWhileBusy : Slot → Bool
  | .status | .errMetric => false
  | .cmd | .mask | .pix _ | .blkw _ => true

/-- The other two registers are at 0x04 and 0x0C (rule R51). -/
theorem slotAt_not_heldWhileBusy {a : Nat} {sl : Slot} (h : slotAt a = some sl) (hsl : sl.heldWhileBusy = false) :
    a = 0x04 ∨ a = 0x0C := by
  cases sl with
  | cmd | mask | pix _ | blkw _ => cases hsl
  | status | errMetric =>
    unfold slotAt at h
    repeat' split at h
    all_goals cases h
    omega

/-- The offsets of the registers whose writes are dropped while busy. -/
theorem slotAt_heldWhileBusy {a : Nat} (h4 : a % 4 = 0) (h : a = 0x00 ∨ a = 0x08 ∨ (0x40 ≤ a ∧ a < 0x90)) :
    ∃ sl, slotAt a = some sl ∧ sl.heldWhileBusy = true := by
  obtain ⟨sl, hs⟩ := Option.isSome_iff_exists.1 (slotAt_isSome.2 ⟨h4, by omega⟩)
  refine ⟨sl, hs, by_contra fun hsl => ?_⟩
  have := slotAt_not_heldWhileBusy hs (by simpa using hsl)
  omega

/-- While busy, a write to such a register sets `WERR` and does nothing else. -/
theorem slotWrite_of_busy {sl : Slot} {s : State} (hsl : sl.heldWhileBusy = true) (hb : s.status.busy = true) (a : Nat)
    (v : Word) : slotWrite sl a v s = { s with status := s.status.writeDropped } := by
  cases sl with
  | status | errMetric => cases hsl
  | cmd | mask | pix _ | blkw _ => simp [slotWrite, hb]

/-- While busy, the bus drops a write to such a register. -/
theorem memWrite_of_busy {a : Nat} {s : State} (hb : s.status.busy = true) (h4 : a % 4 = 0)
    (h : a = 0x00 ∨ a = 0x08 ∨ (0x40 ≤ a ∧ a < 0x90)) (v : Word) :
    memWrite a 4 v s = .ok { s with status := s.status.writeDropped } := by
  obtain ⟨sl, hs, hheld⟩ := slotAt_heldWhileBusy h4 h
  rw [memWrite_of_slotAt hs, slotWrite_of_busy hheld hb]

/-- While idle, a write to `CMD` is the acceptance of the word written. -/
theorem memWrite_cmd_of_idle {s : State} (hb : s.status.busy = false) (v : Word) :
    memWrite 0x00 4 v s = .ok (accept v s) := by
  rw [memWrite_of_slotAt (sl := .cmd) rfl, slotWrite, unlessBusy_of_idle hb]

/-! ### The outcome of a command (rules R135, R170, R171) -/

theorem commandCheck_of_ok {w : Word} {i : Instr} (h : decode w = .ok i) : commandCheck w = .none := by
  simp [commandCheck, h]

theorem commandCheck_of_error {w : Word} {e : ErrCode} (h : decode w = .error e) : commandCheck w = e := by
  simp [commandCheck, h]

/-- The check of a word has one of three codes (rules R20, R171). -/
theorem commandCheck_code (w : Word) :
    (commandCheck w).code = 0 ∨ (commandCheck w).code = 2 ∨ (commandCheck w).code = 4 := by
  cases hd : decode w with
  | ok i => exact .inl (by rw [commandCheck_of_ok hd]; rfl)
  | error e =>
    rw [commandCheck_of_error hd]
    rcases decode_error hd with rfl | rfl
    · exact .inr (.inl rfl)
    · exact .inr (.inr rfl)

/-- The core's move keeps `CMD` and `LCMD`, and it either keeps `STATUS` or completes the latched word with its code. -/
theorem coreMove_control {s t : State} (h : coreMove s = .next t) :
    (t.cmd = s.cmd ∧ t.lcmd = s.lcmd) ∧
    ((t.status = s.status ∧ (s.status.busy = false ∨ s.lcmd = none)) ∨
      (s.status.busy = true ∧ ∃ w, s.lcmd = some w ∧ t.status = s.status.completed (commandCheck w))) := by
  rcases coreMove_next h with ⟨rfl, hidle⟩ | ⟨hb, w, hw, ⟨i, hd, hi⟩ | ⟨e, hd, rfl⟩⟩
  · exact ⟨⟨rfl, rfl⟩, .inl ⟨rfl, hidle⟩⟩
  · rcases exec_next hi with ⟨bs, e, -, rfl⟩ | ⟨bs, -, rfl⟩ <;>
      exact ⟨⟨rfl, rfl⟩, .inr ⟨hb, w, hw, by simp [commandCheck_of_ok hd]⟩⟩
  · exact ⟨⟨rfl, rfl⟩, .inr ⟨hb, w, hw, by simp [commandCheck_of_error hd]⟩⟩

/-! ### What a step does to the control registers -/

/-- Everything a step from `s` to `t` can do to `CMD`, `LCMD` and `STATUS`. -/
inductive ControlStep (s t : State) : Prop where
  /-- The core completes the latched command with the code of its check (rules R18 to R20). -/
  | completed (w : Word) (turn : nextTurn s = .core) (busy : s.status.busy = true) (latched : s.lcmd = some w)
      (cmd : t.cmd = s.cmd) (lcmd : t.lcmd = s.lcmd) (status : t.status = s.status.completed (commandCheck w))
  /-- The host's write to `CMD` is accepted (rule R16). -/
  | accepted (v : Word) (rest : List HostOp) (turn : nextTurn s = .host) (idle : s.status.busy = false)
      (access : s.pending = .write 0 4 v :: rest)
      (cmd : t.cmd = v) (lcmd : t.lcmd = some v) (status : t.status = Status.accepted)
  /-- A write of the host is dropped (rule R21). -/
  | dropped (turn : nextTurn s = .host) (busy : s.status.busy = true)
      (cmd : t.cmd = s.cmd) (lcmd : t.lcmd = s.lcmd) (status : t.status = s.status.writeDropped)
  /-- A reset arrives (rule R190). -/
  | reset (turn : nextTurn s = .reset) (cmd : t.cmd = 0) (lcmd : t.lcmd = none) (status : t.status = Status.reset)
  /-- The three stay; the core had nothing to perform, if the turn was its own. -/
  | kept (turn : nextTurn s ≠ .reset) (unlatched : nextTurn s = .core → s.status.busy = true → s.lcmd = none)
      (cmd : t.cmd = s.cmd) (lcmd : t.lcmd = s.lcmd) (status : t.status = s.status)

/-- A move of the host that keeps the three. -/
theorem ControlStep.kept_of_host {s t : State} (hturn : nextTurn s = .host) (hcmd : t.cmd = s.cmd)
    (hlcmd : t.lcmd = s.lcmd) (hst : t.status = s.status) : ControlStep s t :=
  .kept (by simp [hturn]) (by simp [hturn]) hcmd hlcmd hst

/-- The core's turn: it completes the latched command, or nothing changes. -/
theorem controlStep_of_coreMove {s t : State} (hturn : nextTurn s = .core) (h : coreMove (useTurn s) = .next t) :
    ControlStep s t := by
  obtain ⟨⟨hcmd, hlcmd⟩, ⟨hst, hidle⟩ | ⟨hb, w, hw, hst⟩⟩ := coreMove_control h
  · exact .kept (by simp [hturn]) (fun _ hb => hidle.resolve_left (by simp [hb])) hcmd hlcmd hst
  · exact .completed w hturn hb hw hcmd hlcmd hst

/-- The host's turn: a write may be accepted or dropped; every other access keeps the control registers. -/
theorem controlStep_of_hostMove {s t : State} (hturn : nextTurn s = .host) (h : hostMove (useTurn s) = .next t) :
    ControlStep s t := by
  rcases hostMove_next h with ⟨-, rfl⟩ | ⟨a, n, v, rest, hp, hw⟩ | ⟨a, n, x, rest, v, s', -, hr, rfl⟩ |
    ⟨rest, -, rfl | rfl⟩
  · exact .kept_of_host hturn rfl rfl rfl
  · rcases memWrite_ok hw with rfl | ⟨hb, rfl⟩ | ⟨hb, ⟨rfl, rfl, rfl⟩ | rfl | ⟨-, -, rfl⟩⟩
    · exact .kept_of_host hturn rfl rfl rfl
    · exact .dropped hturn hb rfl rfl rfl
    · exact .accepted v rest hturn hb hp rfl rfl rfl
    · exact .kept_of_host hturn rfl rfl rfl
    · exact .kept_of_host hturn rfl rfl rfl
  · rcases memRead_ok hr with rfl | ⟨-, rfl⟩ <;> exact .kept_of_host hturn rfl rfl rfl
  · exact .kept_of_host hturn rfl rfl rfl
  · exact .kept_of_host hturn rfl rfl rfl

/-- Every step is one of the five. -/
theorem step_control {s t : State} (h : step s = .next t) : ControlStep s t := by
  rcases step_cases s with ⟨hturn, hs⟩ | ⟨hturn, hs⟩ | ⟨hturn, hs⟩ <;> rw [hs] at h
  · exact controlStep_of_coreMove hturn h
  · exact controlStep_of_hostMove hturn h
  · cases h
    exact .reset hturn rfl rfl rfl

/-! ### The obligations -/

/-- Settles O5: of the five things a step can do, only the acceptance sets `BUSY`, only the completion and the reset clear it, and
the acceptance, which alone writes a word to `CMD` and `LCMD`, needs an idle core. -/
theorem busyIsSetByAcceptanceAndClearedByCompletion :
    Obligations.BusyIsSetByAcceptanceAndClearedByCompletion := by
  unfold Obligations.BusyIsSetByAcceptanceAndClearedByCompletion
  intro s t h
  cases step_control h with
  | completed _ turn busy latched _ _ status => simp [turn, busy, latched, status]
  | accepted _ _ turn idle access cmd lcmd _ => simp [turn, idle, access, cmd, lcmd]
  | dropped _ busy cmd lcmd status => simp [busy, cmd, lcmd, status]
  | reset turn _ _ status => simp [turn, status]
  | kept _ _ cmd lcmd status => simp +contextual [cmd, lcmd, status]

/-- Settles O6: the completion turns `BUSY` into `DONE`, the acceptance turns `DONE` into `BUSY`, the reset clears both, and no
other step touches either of them or `LCMD`. -/
theorem doneIsSetByCompletionAndClearedByAcceptance :
    Obligations.DoneIsSetByCompletionAndClearedByAcceptance := by
  unfold Obligations.DoneIsSetByCompletionAndClearedByAcceptance
  intro s t h
  cases step_control h with
  | completed _ turn busy _ _ _ status => simp [turn, busy, status]
  | accepted _ _ turn idle _ _ _ status => simp [turn, idle, status]
  | dropped turn busy _ _ status => simp [turn, busy, status]
  | reset turn _ lcmd status => simp [turn, lcmd, status]
  | kept turn _ _ lcmd status => simp +contextual [turn, lcmd, status]

/-- Settles O7: the completion writes the code of the latched word's check, the acceptance and the reset write 0, and no other step
touches `ERR`. -/
theorem errHoldsTheCodeOfTheOutcome : Obligations.ErrHoldsTheCodeOfTheOutcome := by
  unfold Obligations.ErrHoldsTheCodeOfTheOutcome
  intro s t h
  cases step_control h with
  | completed w turn busy latched _ _ status =>
    have hcode := commandCheck_code w
    simpa [turn, busy, latched, status] using hcode
  | accepted _ _ turn idle _ _ _ status => simp [turn, idle, status]
  | dropped turn busy _ _ status => simp [turn, busy, status]
  | reset turn _ _ status => simp [turn, status]
  | kept turn unlatched _ _ status =>
    refine ⟨fun w hcore hb hl => ?_, fun _ => .inl (by rw [status]), ?_, ?_⟩
    · simp [unlatched hcore hb] at hl
    · rintro (hreset | ⟨-, idle, hb⟩)
      · exact absurd hreset turn
      · simp [status, idle] at hb
    · rintro (idle | herr) hb
      · simp [status, idle] at hb
      · rw [status, herr]

/-- Settles O8: a write to one of the four registers is dropped while busy, `STATUS` and `ERRMETRIC` ignore writes, and of the five
things a step can do only the acceptance and the reset clear `WERR`. -/
theorem busyWriteIsDroppedAndWerrIsSticky : Obligations.BusyWriteIsDroppedAndWerrIsSticky := by
  unfold Obligations.BusyWriteIsDroppedAndWerrIsSticky
  refine ⟨fun s a v hb h4 ha => memWrite_of_busy hb h4 ha v, ?_, fun s t h hw hw' => ?_⟩
  · rintro s a v (rfl | rfl)
    · exact memWrite_of_slotAt (sl := .status) rfl v s
    · exact memWrite_of_slotAt (sl := .errMetric) rfl v s
  · cases step_control h with
    | completed _ _ _ _ _ _ status => simp [status, hw] at hw'
    | accepted v rest turn idle access _ _ status =>
      exact .inr ⟨turn, idle, by rw [status, Status.accepted_busy], v, rest, access⟩
    | dropped _ _ _ _ status => simp [status] at hw'
    | reset turn _ _ _ => exact .inl turn
    | kept _ _ _ _ status => simp [status, hw] at hw'

/-- Settles O9: the write is the acceptance while idle and is dropped while busy. -/
theorem cmdWriteAcceptsAnyValue : Obligations.CmdWriteAcceptsAnyValue := by
  unfold Obligations.CmdWriteAcceptsAnyValue
  refine ⟨rfl, fun s v hb => memWrite_cmd_of_idle hb v, fun s => rfl, fun s v hb => ?_⟩
  exact ⟨_, memWrite_of_busy hb rfl (.inl rfl) v, rfl, rfl⟩

end Sys2Proof.Machine
end

section
/-! The quantizer and the expander (rules R9, R66, R113 to R115): a quantized value in range is the one level whose half-open
interval of width 1 holds it, and the integer formulas, the fields and the bit replication follow; then the obligation. -/

namespace Sys2Proof.Machine

/-! ### Rounding to a level (rule R9) -/

/-- A value is rounded to the integer whose interval, closed below, holds it: the nearest one, a tie upward. -/
theorem roundHalfUp_eq_iff (x : Rat) (n : Int) : roundHalfUp x = n ↔ (n : Rat) - 1 / 2 ≤ x ∧ x < (n : Rat) + 1 / 2 := by
  have hfloor : roundHalfUp x = ⌊x + 1 / 2⌋ := rfl
  rw [hfloor, Int.floor_eq_iff, sub_le_iff_le_add]
  refine and_congr_right fun _ => ?_
  constructor <;> intro h <;> linarith

theorem clampNat_eq_self {v : Int} {hi : Nat} (h0 : 0 ≤ v) (h1 : v ≤ hi) : (clampNat v hi : Int) = v := by
  rw [clampNat, if_neg h0.not_gt, if_neg h1.not_gt, Int.toNat_of_nonneg h0]

theorem roundHalfUp_mem {x : Rat} {hi : Nat} (h0 : 0 ≤ x) (h1 : x ≤ hi) : 0 ≤ roundHalfUp x ∧ roundHalfUp x ≤ hi := by
  obtain ⟨hle, hlt⟩ := (roundHalfUp_eq_iff x _).1 rfl
  have hpos : (-1 : Rat) < roundHalfUp x := by linarith
  have htop : (roundHalfUp x : Rat) < hi + 1 := by linarith
  norm_cast at hpos htop
  omega

/-- In range the clamp cuts nothing, so the level is the nearest one, a tie upward. -/
theorem clampNat_roundHalfUp_eq_iff {x : Rat} {hi : Nat} (h0 : 0 ≤ x) (h1 : x ≤ hi) (n : Nat) :
    clampNat (roundHalfUp x) hi = n ↔ (n : Rat) - 1 / 2 ≤ x ∧ x < (n : Rat) + 1 / 2 := by
  obtain ⟨hlo, hhi⟩ := roundHalfUp_mem h0 h1
  rw [← Int.natCast_inj, clampNat_eq_self hlo hhi, roundHalfUp_eq_iff, Int.cast_natCast]

/-! ### The quantizer (rules R113, R114) -/

theorem quant5_eq_iff {t : Rat} (h0 : 0 ≤ t) (h1 : t ≤ 255) (n : Nat) :
    quant5 t = n ↔ (n : Rat) - 1 / 2 ≤ t * 31 / 255 ∧ t * 31 / 255 < (n : Rat) + 1 / 2 :=
  clampNat_roundHalfUp_eq_iff (by positivity) (by push_cast; linarith) n

theorem quant6_eq_iff {t : Rat} (h0 : 0 ≤ t) (h1 : t ≤ 255) (n : Nat) :
    quant6 t = n ↔ (n : Rat) - 1 / 2 ≤ t * 63 / 255 ∧ t * 63 / 255 < (n : Rat) + 1 / 2 :=
  clampNat_roundHalfUp_eq_iff (by positivity) (by push_cast; linarith) n

theorem quant8_eq_iff {t : Rat} (h0 : 0 ≤ t) (h1 : t ≤ 255) (n : Nat) :
    quant8 t = n ↔ (n : Rat) - 1 / 2 ≤ t ∧ t < (n : Rat) + 1 / 2 :=
  clampNat_roundHalfUp_eq_iff h0 (by exact_mod_cast h1) n

theorem quant5_le (t : Rat) : quant5 t ≤ 31 := clampNat_le _ _

theorem quant6_le (t : Rat) : quant6 t ≤ 63 := clampNat_le _ _

/-- The quotient `n` of rule R113's integer formulas has `510·n ≤ 2·a + 255 < 510·n + 510`, so it is the integer nearest to `a/255`,
a tie upward. -/
theorem div_510_nearest (a : Nat) :
    (((2 * a + 255) / 510 : Nat) : Rat) - 1 / 2 ≤ a / 255 ∧ (a : Rat) / 255 < ((2 * a + 255) / 510 : Nat) + 1 / 2 := by
  have hle : 510 * ((2 * a + 255) / 510) ≤ 2 * a + 255 := Nat.mul_div_le _ _
  have hlt : 2 * a + 255 < 510 * ((2 * a + 255) / 510) + 510 := by omega
  generalize (2 * a + 255) / 510 = n at hle hlt ⊢
  qify at hle hlt
  constructor <;> linarith

theorem quant5_natCast {t : Nat} (h : t ≤ 255) : quant5 (t : Rat) = (62 * t + 255) / 510 := by
  have hdouble : 62 * t = 2 * (t * 31) := by omega
  rw [quant5_eq_iff t.cast_nonneg (by exact_mod_cast h), hdouble]
  exact_mod_cast div_510_nearest (t * 31)

theorem quant6_natCast {t : Nat} (h : t ≤ 255) : quant6 (t : Rat) = (126 * t + 255) / 510 := by
  have hdouble : 126 * t = 2 * (t * 63) := by omega
  rw [quant6_eq_iff t.cast_nonneg (by exact_mod_cast h), hdouble]
  exact_mod_cast div_510_nearest (t * 63)

/-! ### The expander (rules R66, R115) -/

/-- The top three bits of a 5-bit level fit below the shifted level, so the sum is bit replication. -/
theorem expand5_eq_or {q : Nat} (h : q < 32) : expand5 q = q <<< 3 ||| q >>> 2 := by
  have htop : q >>> 2 < 2 ^ 3 := by rw [Nat.shiftRight_eq_div_pow]; omega
  rw [← Nat.shiftLeft_add_eq_or_of_lt htop, Nat.shiftLeft_eq, Nat.shiftRight_eq_div_pow]
  rfl

/-- The top two bits of a 6-bit level fit below the shifted level. -/
theorem expand6_eq_or {q : Nat} (h : q < 64) : expand6 q = q <<< 2 ||| q >>> 4 := by
  have htop : q >>> 4 < 2 ^ 2 := by rw [Nat.shiftRight_eq_div_pow]; omega
  rw [← Nat.shiftLeft_add_eq_or_of_lt htop, Nat.shiftLeft_eq, Nat.shiftRight_eq_div_pow]
  rfl

/-- The three fields of an RGB565 word are read back (rule R66). -/
theorem expand565_fields {r g b : Nat} (hr : r < 32) (hg : g < 64) (hb : b < 32) :
    expand565 (r * 2048 + g * 32 + b) = { r := expand5 r, g := expand6 g, b := expand5 b } := by
  have hR : bitField (r * 2048 + g * 32 + b) 11 5 = r := by rw [bitField_eq]; omega
  have hG : bitField (r * 2048 + g * 32 + b) 5 6 = g := by rw [bitField_eq]; omega
  have hB : bitField (r * 2048 + g * 32 + b) 0 5 = b := by rw [bitField_eq]; omega
  rw [expand565, hR, hG, hB]

/-! ### The obligation -/

/-- Settles O38: each quantizer gives the nearest level by its characterization, the formulas on 8-bit values are its case for
integers, and the expander's clauses are the lemmas above. -/
theorem quantizerRoundsAndExpanderReplicates : Obligations.QuantizerRoundsAndExpanderReplicates := by
  unfold Obligations.QuantizerRoundsAndExpanderReplicates
  refine ⟨fun t h => ⟨quant5_natCast h, quant6_natCast h⟩, fun t h0 h1 => ?_, fun _ => rfl,
    fun q h => ⟨rfl, expand5_eq_or h, expand5_le h⟩, fun q h => ⟨rfl, expand6_eq_or h, expand6_le h⟩,
    rfl, rfl, rfl, rfl, fun r g b => expand565_fields⟩
  obtain ⟨h5le, h5lt⟩ := (quant5_eq_iff h0 h1 _).1 rfl
  obtain ⟨h6le, h6lt⟩ := (quant6_eq_iff h0 h1 _).1 rfl
  obtain ⟨h8le, h8lt⟩ := (quant8_eq_iff h0 h1 _).1 rfl
  exact ⟨⟨h5le, h5lt, quant5_le t⟩, ⟨h6le, h6lt, quant6_le t⟩, h8le, h8lt, quant8_le t⟩

end Sys2Proof.Machine
end

section
/-! The ColorSet (rules R82 to R87). One pass of `addPoint` over a list of weighted values keeps the distinct values in order of
first appearance, each with the weight of all its appearances; the points of a block are such a pass. Then the obligations. -/

namespace Sys2Proof.Machine

/-! ### One step of the pass (rule R84) -/

@[simp] theorem totalWeight_cons {α : Type} (q : Point α) (qs : List (Point α)) :
    totalWeight (q :: qs) = q.wt + totalWeight qs :=
  List.sum_cons

section AddPoint
variable {α : Type} [DecidableEq α]

theorem addPoint_vals (ps : List (Point α)) (c : α) (w : Nat) :
    (addPoint ps c w).map (·.val) = if c ∈ ps.map (·.val) then ps.map (·.val) else ps.map (·.val) ++ [c] := by
  induction ps with
  | nil => rfl
  | cons q qs ih =>
    by_cases hq : q.val = c
    · simp [addPoint, hq]
    · have hmem : c ∈ q.val :: qs.map (·.val) ↔ c ∈ qs.map (·.val) := by simp [Ne.symm hq]
      rw [addPoint, if_neg hq, List.map_cons, List.map_cons, ih, if_congr hmem rfl rfl]
      split <;> rfl

theorem totalWeight_addPoint (ps : List (Point α)) (c : α) (w : Nat) :
    totalWeight (addPoint ps c w) = totalWeight ps + w := by
  induction ps with
  | nil => simp [addPoint, totalWeight]
  | cons q qs ih =>
    rw [addPoint]
    split
    · simp only [totalWeight_cons]; omega
    · simp only [totalWeight_cons, ih]; omega

/-- The weight that a list of points gives to the value `c`. -/
def weightAt (ps : List (Point α)) (c : α) : Nat :=
  totalWeight (ps.filter fun q => decide (q.val = c))

theorem weightAt_cons (q : Point α) (qs : List (Point α)) (c : α) :
    weightAt (q :: qs) c = (if q.val = c then q.wt else 0) + weightAt qs c := by
  by_cases h : q.val = c <;> simp [weightAt, h]

theorem weightAt_addPoint (ps : List (Point α)) (c d : α) (w : Nat) :
    weightAt (addPoint ps c w) d = weightAt ps d + if c = d then w else 0 := by
  induction ps with
  | nil => rw [addPoint, weightAt_cons, Nat.add_comm]
  | cons q qs ih =>
    rw [addPoint]
    split
    · next hq =>
      subst hq
      simp only [weightAt_cons]
      split <;> omega
    · simp only [weightAt_cons, ih]; omega

theorem weightAt_eq_zero {ps : List (Point α)} {c : α} (h : c ∉ ps.map (·.val)) : weightAt ps c = 0 := by
  have hnone : ps.filter (fun q => decide (q.val = c)) = [] := by simpa using h
  rw [weightAt, hnone]
  rfl

/-- Among points of distinct values the weight at a point's value is that point's own. -/
theorem weightAt_of_mem {ps : List (Point α)} (hnd : (ps.map (·.val)).Nodup) {q : Point α} (hq : q ∈ ps) :
    weightAt ps q.val = q.wt := by
  induction ps with
  | nil => cases hq
  | cons p ps ih =>
    rw [List.map_cons, List.nodup_cons] at hnd
    obtain ⟨hp, hnd⟩ := hnd
    rw [weightAt_cons]
    rcases List.mem_cons.1 hq with rfl | hq
    · rw [if_pos rfl, weightAt_eq_zero hp, Nat.add_zero]
    · have hne : p.val ≠ q.val := fun h => hp (h ▸ List.mem_map_of_mem hq)
      rw [if_neg hne, Nat.zero_add, ih hnd hq]

/-! ### The whole pass -/

/-- The pass of rule R84 over a list of values with their weights. -/
def weightedPoints (cs : List (α × Nat)) : List (Point α) :=
  cs.foldl (fun ps c => addPoint ps c.1 c.2) []

theorem weightedPoints_concat (cs : List (α × Nat)) (c : α × Nat) :
    weightedPoints (cs ++ [c]) = addPoint (weightedPoints cs) c.1 c.2 := by
  simp [weightedPoints]

/-- Read backwards, the first appearances are the last ones, and those are what `dedup` keeps. -/
theorem weightedPoints_vals (cs : List (α × Nat)) :
    (weightedPoints cs).map (·.val) = (cs.map (·.1)).reverse.dedup.reverse := by
  induction cs using List.reverseRecOn with
  | nil => rfl
  | append_singleton cs c ih =>
    have hmem : c.1 ∈ (weightedPoints cs).map (·.val) ↔ c.1 ∈ (cs.map (·.1)).reverse := by simp [ih]
    rw [weightedPoints_concat, addPoint_vals, List.map_append, List.map_singleton, List.reverse_concat, List.dedup_cons,
      apply_ite List.reverse, List.reverse_cons, ← ih]
    exact if_congr hmem rfl rfl

theorem weightedPoints_vals_nodup (cs : List (α × Nat)) : ((weightedPoints cs).map (·.val)).Nodup := by
  rw [weightedPoints_vals, List.nodup_reverse]
  exact List.nodup_dedup _

theorem totalWeight_weightedPoints (cs : List (α × Nat)) : totalWeight (weightedPoints cs) = (cs.map (·.2)).sum := by
  induction cs using List.reverseRecOn with
  | nil => rfl
  | append_singleton cs c ih => simp [weightedPoints_concat, totalWeight_addPoint, ih]

theorem weightAt_weightedPoints (cs : List (α × Nat)) (d : α) :
    weightAt (weightedPoints cs) d = ((cs.filter fun c => decide (c.1 = d)).map (·.2)).sum := by
  induction cs using List.reverseRecOn with
  | nil => rfl
  | append_singleton cs c ih =>
    rw [weightedPoints_concat, weightAt_addPoint, ih, List.filter_append]
    by_cases hc : c.1 = d <;> simp [hc]

theorem wt_of_mem_weightedPoints {cs : List (α × Nat)} {q : Point α} (hq : q ∈ weightedPoints cs) :
    q.wt = ((cs.filter fun c => decide (c.1 = q.val)).map (·.2)).sum := by
  rw [← weightAt_weightedPoints, weightAt_of_mem (weightedPoints_vals_nodup cs) hq]

theorem weightedPoints_length_le (cs : List (α × Nat)) : (weightedPoints cs).length ≤ cs.length := by
  have hlen := congrArg List.length (weightedPoints_vals cs)
  have hsub := (List.dedup_sublist (cs.map (·.1)).reverse).length_le
  simp only [List.length_map, List.length_reverse] at hlen hsub
  omega

theorem weightedPoints_eq_nil {cs : List (α × Nat)} : weightedPoints cs = [] ↔ cs = [] := by
  rw [← List.map_eq_nil_iff (f := Point.val), weightedPoints_vals]
  simp

end AddPoint

/-! ### The points of a block (rules R84 to R86) -/

/-- The samples that are not excluded, as the values and weights of the pass. -/
def includedColors (sm : List Sample) : List (Vec3 Nat × Nat) :=
  (sm.filter fun t => !t.excl).map fun t => (t.rgb, t.weight)

theorem colorPoints_eq_weightedPoints (sm : List Sample) : colorPoints sm = weightedPoints (includedColors sm) := by
  rw [weightedPoints, includedColors, List.foldl_map, List.foldl_filter, colorPoints]
  congr
  funext ps t
  cases t.excl <;> rfl

/-- Settles O43: the points are one pass over the included samples, so each clause is the fact about such a pass. -/
theorem colorSetIsTheWeightedDistinctColors : Obligations.ColorSetIsTheWeightedDistinctColors := by
  unfold Obligations.ColorSetIsTheWeightedDistinctColors
  intro sm
  rw [colorPoints_eq_weightedPoints]
  refine ⟨?_, fun q hq => ?_, ?_, ?_, ?_⟩
  · rw [weightedPoints_vals, includedColors, List.map_map]; rfl
  · rw [wt_of_mem_weightedPoints hq, includedColors, List.filter_map, List.map_map, List.filter_filter]
    simp [Function.comp_def, Bool.and_comm]
  · rw [totalWeight_weightedPoints, includedColors, List.map_map]; rfl
  · calc (weightedPoints (includedColors sm)).length ≤ (includedColors sm).length := weightedPoints_length_le _
      _ ≤ sm.length := by simpa [includedColors] using List.length_filter_le _ sm
  · simp [weightedPoints_eq_nil, includedColors]

/-! ### Exclusion and weights (rules R82, R83, R87) -/

@[simp] theorem belowThreshold_thisHardware (t : Texel) :
    belowThreshold Config.thisHardware t = true ↔ t.a.toNat < 128 := decide_eq_true_iff

theorem punched_iff (p : Params) (fmt : Format) (mask : BitVec 16) (i : Nat) (t : Texel) :
    punched p fmt mask i t = true ↔ fmt = .bc1 ∧ maskBit mask i = true ∧ belowThreshold p t = true := by
  simp [punched, and_assoc]

theorem excluded_iff (p : Params) (fmt : Format) (wba : Bool) (mask : BitVec 16) (i : Nat) (t : Texel) :
    excluded p fmt wba mask i t = true ↔
      maskBit mask i = false ∨ punched p fmt mask i t = true ∨ (wba = true ∧ belowThreshold p t = true) := by
  simp [excluded, or_assoc]

theorem threeColor_samplesOf (p : Params) (fmt : Format) (wba : Bool) (mask : BitVec 16) (tx : List Texel) :
    threeColor (samplesOf p fmt wba mask tx) = true ↔ ∃ i t, tx[i]? = some t ∧ punched p fmt mask i t = true := by
  simp only [threeColor, List.any_eq_true, List.mem_iff_getElem?, samplesOf, List.getElem?_mapIdx, Option.map_eq_some_iff]
  constructor
  · rintro ⟨-, ⟨i, t, ht, rfl⟩, hp⟩
    exact ⟨i, t, ht, hp⟩
  · rintro ⟨i, t, ht, hp⟩
    exact ⟨_, ⟨i, t, ht, rfl⟩, hp⟩

/-- Settles O44: the flags are read by their conditions at the threshold 128, and the weight is an alpha of 8 bits plus 1. -/
theorem exclusionAndWeights : Obligations.ExclusionAndWeights := by
  unfold Obligations.ExclusionAndWeights
  refine ⟨fun fmt mask i t => ?_, fun fmt wba mask i t => ?_, fun t => ?_, fun fmt wba mask tx => ?_⟩
  · rw [punched_iff, belowThreshold_thisHardware]
  · rw [excluded_iff, punched_iff, belowThreshold_thisHardware]
  · exact ⟨rfl, rfl, texelWeight_pos true t, texelWeight_le true t⟩
  · simp only [threeColor_samplesOf, punched_iff, belowThreshold_thisHardware]
    constructor
    · rintro ⟨i, t, ht, hfmt, hp⟩
      exact ⟨hfmt, i, t, ht, hp⟩
    · rintro ⟨hfmt, i, t, ht, hp⟩
      exact ⟨i, t, ht, hfmt, hp⟩

end Sys2Proof.Machine
end

section
/-! The range fit (rules R101, R102): `firstMin` over a list of points finds the number of the first point of least key, and the
clamp keeps 8-bit colors; then the obligation. -/

namespace Sys2Proof.Machine

/-! ### Points and their projections -/

theorem pointAt_of_getElem? {ps : List (Point (Vec3 Nat))} {j : Nat} {q : Point (Vec3 Nat)} (h : ps[j]? = some q) :
    pointAt ps j = q := by
  simp [pointAt, h]

theorem pointAt_of_lt {ps : List (Point (Vec3 Nat))} {j : Nat} (hj : j < ps.length) : pointAt ps j = ps[j] :=
  pointAt_of_getElem? (List.getElem?_eq_getElem hj)

/-- The place where `firstMin` splits the list is the number of the first point of least key (rule R101's tie rule). -/
theorem firstMin_eq_pointAt {β : Type} [LinearOrder β] [DecidableLT β] (key : Point (Vec3 Nat) → β) (q : Point (Vec3 Nat))
    (qs : List (Point (Vec3 Nat))) :
    ∃ j, j < (q :: qs).length ∧ firstMin key q qs = pointAt (q :: qs) j ∧
      (∀ i, i < (q :: qs).length → key (pointAt (q :: qs) j) ≤ key (pointAt (q :: qs) i)) ∧
      ∀ i, i < j → key (pointAt (q :: qs) j) < key (pointAt (q :: qs) i) := by
  obtain ⟨pre, post, hsplit, hpre, -⟩ := firstMin_split key q qs
  have hj : pointAt (q :: qs) pre.length = firstMin key q qs := pointAt_of_getElem? (by simp [hsplit])
  refine ⟨pre.length, by simp [hsplit], hj.symm, fun i hi => ?_, fun i hi => ?_⟩
  · rw [hj, pointAt_of_lt hi]
    exact firstMin_le key q qs (List.getElem_mem hi)
  · have hpoint : pointAt (q :: qs) i = pre[i] :=
      pointAt_of_getElem? (by rw [hsplit, List.getElem?_append_left hi, List.getElem?_eq_getElem hi])
    rw [hj, hpoint]
    exact hpre _ (List.getElem_mem hi)

/-! ### The clamp (rule R102) -/

theorem clampChannel_natCast {n : Nat} (h : n ≤ 255) : clampChannel (n : Rat) = n := by
  rw [clampChannel_eq, min_eq_right (by exact_mod_cast h), max_eq_right n.cast_nonneg]

theorem clampColor_toRats {c : Vec3 Nat} (h : c.r ≤ 255 ∧ c.g ≤ 255 ∧ c.b ≤ 255) : clampColor (toRats c) = toRats c := by
  obtain ⟨hr, hg, hb⟩ := h
  simp [clampColor, toRats, clampChannel_natCast, hr, hg, hb]

/-! ### The obligation -/

/-- Settles O46: the greatest projection is the least of the negated ones, so both endpoints are first points of least key. -/
theorem rangeFitTakesTheExtremeProjections : Obligations.RangeFitTakesTheExtremeProjections := by
  unfold Obligations.RangeFitTakesTheExtremeProjections
  refine ⟨fun ps v j q hq => ?_, fun v => rfl, fun v ps hne h255 => ?_⟩
  · have hpoint := pointAt_of_getElem? hq
    exact ⟨hpoint, by rw [projection, hpoint]; rfl, rfl⟩
  · obtain ⟨q, qs, rfl⟩ := List.exists_cons_of_ne_nil hne
    obtain ⟨jmin, hmin, hminEq, hle, hlt⟩ := firstMin_eq_pointAt (fun p => dot (toInts p.val) v) q qs
    obtain ⟨jmax, hmax, hmaxEq, hge, hgt⟩ := firstMin_eq_pointAt (fun p => -dot (toInts p.val) v) q qs
    have hclamp : ∀ j, j < (q :: qs).length →
        clampColor (toRats (pointAt (q :: qs) j).val) = toRats (pointAt (q :: qs) j).val := fun j hj =>
      clampColor_toRats (h255 _ (pointAt_of_lt hj ▸ List.getElem_mem hj))
    refine ⟨jmin, jmax, hmin, hmax, ?_, fun j hj => ⟨hle j hj, neg_le_neg_iff.1 (hge j hj)⟩, hlt,
      fun j hj => neg_lt_neg_iff.1 (hgt j hj)⟩
    rw [rangeCandidate, hminEq, hmaxEq, hclamp jmin hmin, hclamp jmax hmax]

end Sys2Proof.Machine
end

section
/-! The partitions (rule R105): which tuples `cutTuples` lists, their order and their number; and how the rising cuts at or below
a position give its cluster. Then the obligation. -/

namespace Sys2Proof.Machine

/-! ### The tuples of cuts -/

theorem mem_cutTuples {m lo n : Nat} {β : List Nat} :
    β ∈ cutTuples m lo n ↔ β.length = m ∧ β.Pairwise (· ≤ ·) ∧ ∀ b ∈ β, lo ≤ b ∧ b ≤ n := by
  induction m generalizing lo β with
  | zero => cases β <;> simp [cutTuples]
  | succ m ih =>
    cases β with
    | nil => simp [cutTuples]
    | cons b bs =>
      have hcons : b :: bs ∈ cutTuples (m + 1) lo n ↔ (lo ≤ b ∧ b ≤ n) ∧ bs ∈ cutTuples m b n := by
        have hrange : lo ≤ b ∧ b < lo + (n + 1 - lo) ↔ lo ≤ b ∧ b ≤ n := by omega
        simp [cutTuples, hrange]
      rw [hcons, ih, List.length_cons, Nat.succ_inj, List.pairwise_cons, List.forall_mem_cons]
      constructor
      · rintro ⟨⟨hlo, hn⟩, hlen, hrise, hbs⟩
        exact ⟨hlen, ⟨fun c hc => (hbs c hc).1, hrise⟩, ⟨hlo, hn⟩, fun c hc => ⟨hlo.trans (hbs c hc).1, (hbs c hc).2⟩⟩
      · rintro ⟨hlen, ⟨hb, hrise⟩, hbn, hbs⟩
        exact ⟨hbn, hlen, hrise, fun c hc => ⟨hb c hc, (hbs c hc).2⟩⟩

/-- Tuples with the same first cut are ordered by the rest, the others by their first cuts. -/
theorem cutTuples_pairwise_lex (m lo n : Nat) : (cutTuples m lo n).Pairwise (List.Lex (· < ·)) := by
  induction m generalizing lo with
  | zero => exact List.pairwise_singleton _ _
  | succ m ih =>
    rw [cutTuples, List.pairwise_flatMap]
    constructor
    · intro b _
      exact (ih b).map _ fun _ _ h => .cons h
    · refine (List.pairwise_lt_range' (s := lo) (step := 1)).imp fun hbc => ?_
      simp only [List.mem_map]
      rintro _ ⟨β, -, rfl⟩ _ ⟨γ, -, rfl⟩
      exact .rel hbc

/-- The tuples whose first cut is `lo` stand before the others. -/
theorem cutTuples_succ {lo n : Nat} (m : Nat) (h : lo ≤ n) :
    cutTuples (m + 1) lo n = (cutTuples m lo n).map (lo :: ·) ++ cutTuples (m + 1) (lo + 1) n := by
  have hlen : n + 1 - lo = (n + 1 - (lo + 1)) + 1 := by omega
  rw [cutTuples, hlen, List.range'_succ, List.flatMap_cons, cutTuples]

/-- By Pascal's rule on the first cut. -/
theorem cutTuples_length (m lo d : Nat) : (cutTuples m lo (lo + d)).length = (d + m).choose m := by
  induction m generalizing lo d with
  | zero => simp [cutTuples]
  | succ m ihm =>
    induction d generalizing lo with
    | zero =>
      have hempty : cutTuples (m + 1) (lo + 1) lo = [] := by simp [cutTuples]
      have hfirst := ihm lo 0
      rw [Nat.add_zero] at hfirst ⊢
      simp [cutTuples_succ, hempty, hfirst]
    | succ d ihd =>
      have hend : lo + (d + 1) = lo + 1 + d := by omega
      have hpoints : d + (m + 1) = d + 1 + m := by omega
      rw [cutTuples_succ m (by omega), List.length_append, List.length_map, ihm, hend, ihd, hpoints, ← Nat.add_assoc (d + 1),
        Nat.choose_succ_succ']

theorem partitions_length {n K : Nat} (hK : 1 ≤ K) : (partitions n K).length = (n + K - 1).choose (K - 1) := by
  rw [Nat.add_sub_assoc hK, ← cutTuples_length (K - 1) 0 n, Nat.zero_add, partitions]

/-- The number of partitions grows with the number of points. -/
theorem partitions_length_le {n N K : Nat} (hK : 1 ≤ K) (h : n ≤ N) :
    (partitions n K).length ≤ (N + K - 1).choose (K - 1) := by
  rw [partitions_length hK]
  exact Nat.choose_le_choose _ (by omega)

/-! ### The cluster of a position -/

theorem clusterOf_le_length (β : List Nat) (p : Nat) : clusterOf β p ≤ β.length :=
  List.length_filter_le _ _

/-- Among rising cuts the ones at or below `p` are the first ones, as many as the number of `p`'s cluster. -/
theorem lt_clusterOf_iff {β : List Nat} (hβ : β.Pairwise (· ≤ ·)) {p i b : Nat} (hb : β[i]? = some b) :
    i < clusterOf β p ↔ b ≤ p := by
  induction β generalizing i with
  | nil => simp at hb
  | cons c cs ih =>
    rw [List.pairwise_cons] at hβ
    obtain ⟨hc, hcs⟩ := hβ
    by_cases hcp : c ≤ p
    · have hcount : clusterOf (c :: cs) p = clusterOf cs p + 1 := by simp [clusterOf, hcp]
      cases i with
      | zero =>
        obtain rfl : c = b := by simpa using hb
        simp [hcount, hcp]
      | succ i => rw [hcount, Nat.succ_lt_succ_iff, ih hcs (by simpa using hb)]
    · have hcb : c ≤ b := by
        rcases List.mem_cons.1 (List.mem_of_getElem? hb) with rfl | hmem
        · exact le_rfl
        · exact hc b hmem
      have hnone : clusterOf (c :: cs) p = 0 := by
        simp only [clusterOf, List.length_eq_zero_iff, List.filter_eq_nil_iff, decide_eq_true_eq, List.forall_mem_cons]
        exact ⟨hcp, fun d hd hdp => hcp ((hc d hd).trans hdp)⟩
      omega

/-- Position `p` lies between the cut before its cluster and the cut after it. -/
theorem clusterOf_eq_iff {β : List Nat} (hβ : β.Pairwise (· ≤ ·)) (p k : Nat) :
    clusterOf β p = k ↔
      (k = 0 ∨ (∃ b, β[k - 1]? = some b ∧ b ≤ p)) ∧ ∀ b, β[k]? = some b → p < b := by
  have hlen := clusterOf_le_length β p
  constructor
  · rintro rfl
    refine ⟨or_iff_not_imp_left.2 fun h0 => ?_, fun b hb => ?_⟩
    · have hb := List.getElem?_eq_getElem (show clusterOf β p - 1 < β.length by omega)
      exact ⟨_, hb, (lt_clusterOf_iff hβ hb).1 (by omega)⟩
    · have := lt_clusterOf_iff hβ (p := p) hb
      omega
  · rintro ⟨hbelow, habove⟩
    apply le_antisymm
    · by_contra hlt
      have hb := List.getElem?_eq_getElem (show k < β.length by omega)
      have hle := (lt_clusterOf_iff hβ (p := p) hb).1 (by omega)
      have hgt := habove _ hb
      omega
    · rcases hbelow with rfl | ⟨b, hb, hbp⟩
      · exact Nat.zero_le _
      · have := (lt_clusterOf_iff hβ hb).2 hbp
        omega

/-! ### The obligation -/

/-- Settles O48: the partitions are the tuples of `K - 1` cuts from 0, and each clause is the fact about those. -/
theorem partitionsAreEnumeratedInOrder : Obligations.PartitionsAreEnumeratedInOrder := by
  unfold Obligations.PartitionsAreEnumeratedInOrder
  refine ⟨fun n K _ β => ?_, fun n K => cutTuples_pairwise_lex _ _ _, fun n K hK => partitions_length hK, fun n hn => ?_,
    fun β p k hβ => ⟨clusterOf_eq_iff hβ p k, clusterOf_le_length β p⟩⟩
  · simp [partitions, mem_cutTuples]
  · exact ⟨partitions_length_le (K := 4) (by decide) hn, partitions_length_le (K := 3) (by decide) hn⟩

end Sys2Proof.Machine
end

section
/-! The palettes: every interpolated entry is a weighted mean of the two endpoints, whose laws are stated once; then what each
entry is, that the entries are monotonic, and what equal endpoints give (rules R116, R117, R121, R122). -/

namespace Sys2Proof.Machine

/-! ### The weighted mean of two endpoints -/

/-- The integer part of the mean of `p` with weight `d - w` and `q` with weight `w`: the form of every interpolated entry. -/
def interpolated (d p q w : Nat) : Nat :=
  ((d - w) * p + w * q) / d

/-- The mean lies the fraction `w/d` of the way from the lower endpoint to the upper one. -/
theorem interpolated_add {d w : Nat} (hd : 0 < d) (hw : w ≤ d) (p k : Nat) :
    interpolated d p (p + k) w = p + w * k / d := by
  have hsum : (d - w) * p + w * (p + k) = w * k + d * p := by
    obtain ⟨v, rfl⟩ := Nat.exists_eq_add_of_le hw
    rw [Nat.add_sub_cancel_left]
    ring
  rw [interpolated, hsum, Nat.add_mul_div_left _ _ hd, Nat.add_comm]

theorem interpolated_self {d w : Nat} (hd : 0 < d) (hw : w ≤ d) (p : Nat) : interpolated d p p w = p := by
  simpa using interpolated_add hd hw p 0

theorem interpolated_mono {d p q w v : Nat} (hd : 0 < d) (hpq : p ≤ q) (hwv : w ≤ v) (hv : v ≤ d) :
    interpolated d p q w ≤ interpolated d p q v := by
  obtain ⟨k, rfl⟩ := Nat.exists_eq_add_of_le hpq
  rw [interpolated_add hd (hwv.trans hv), interpolated_add hd hv]
  gcongr

/-- Read from the other endpoint, the mean has the other weight. -/
theorem interpolated_swap {d w : Nat} (hw : w ≤ d) (p q : Nat) : interpolated d p q w = interpolated d q p (d - w) := by
  rw [interpolated, interpolated, Nat.sub_sub_self hw, Nat.add_comm]

theorem interpolated_anti {d p q w v : Nat} (hd : 0 < d) (hqp : q ≤ p) (hwv : w ≤ v) (hv : v ≤ d) :
    interpolated d p q v ≤ interpolated d p q w := by
  rw [interpolated_swap hv, interpolated_swap (hwv.trans hv)]
  exact interpolated_mono hd hqp (Nat.sub_le_sub_left hwv d) (Nat.sub_le d w)

/-- The means of all weights, from the first endpoint to the second. -/
def interpolations (d p q : Nat) : List Nat :=
  (List.range (d + 1)).map (interpolated d p q)

/-- What holds of the means of every two weights, the lower one first, holds of the sequence. -/
theorem interpolations_pairwise {d p q : Nat} {R : Nat → Nat → Prop}
    (h : ∀ {w v}, w ≤ v → v ≤ d → R (interpolated d p q w) (interpolated d p q v)) :
    (interpolations d p q).Pairwise R := by
  refine List.pairwise_map.2 (List.pairwise_lt_range.imp_of_mem fun _ hv hwv => ?_)
  exact h hwv.le (Nat.lt_succ_iff.1 (List.mem_range.1 hv))

theorem interpolations_le {d p q : Nat} (hd : 0 < d) (hpq : p ≤ q) : (interpolations d p q).Pairwise (· ≤ ·) :=
  interpolations_pairwise (interpolated_mono hd hpq)

theorem interpolations_ge {d p q : Nat} (hd : 0 < d) (hqp : q ≤ p) : (interpolations d p q).Pairwise (· ≥ ·) :=
  interpolations_pairwise (interpolated_anti hd hqp)

/-! ### The color palettes (rule R116) -/

@[simp] theorem colorAt_zero (four : Bool) (c0 c1 : Nat) :
    colorAt (colorPalette four c0 c1) 0 = { rgb := expand565 c0, alpha := 255 } := by
  cases four <;> rfl

@[simp] theorem colorAt_one (four : Bool) (c0 c1 : Nat) :
    colorAt (colorPalette four c0 c1) 1 = { rgb := expand565 c1, alpha := 255 } := by
  cases four <;> rfl

@[simp] theorem colorAt_two_of_four (c0 c1 : Nat) :
    colorAt (colorPalette true c0 c1) 2 = blend 2 1 3 (expand565 c0) (expand565 c1) := rfl

@[simp] theorem colorAt_three_of_four (c0 c1 : Nat) :
    colorAt (colorPalette true c0 c1) 3 = blend 1 2 3 (expand565 c0) (expand565 c1) := rfl

@[simp] theorem colorAt_two_of_three (c0 c1 : Nat) :
    colorAt (colorPalette false c0 c1) 2 = blend 1 1 2 (expand565 c0) (expand565 c1) := rfl

@[simp] theorem colorAt_three_of_three (c0 c1 : Nat) : colorAt (colorPalette false c0 c1) 3 = transparentBlack := rfl

/-- Settles O39: each entry as the palette lists it. -/
theorem colorPaletteEntriesByMode : Obligations.ColorPaletteEntriesByMode := by
  unfold Obligations.ColorPaletteEntriesByMode
  refine ⟨fun c0 c1 => ⟨by simp [fourColorMode], rfl, rfl⟩, fun four c0 c1 => ⟨colorAt_zero .., colorAt_one ..⟩,
    fun c0 c1 => ⟨?_, ?_⟩, fun c0 c1 => ⟨?_, colorAt_three_of_three c0 c1⟩⟩
  · simp [blend]
  · simp [blend]
  · simp [blend]

/-! ### The channel palettes (rule R117) -/

@[simp] theorem channelAt_zero (e0 e1 : Nat) : channelAt (channelPalette e0 e1) 0 = e0 := by
  unfold channelPalette
  split <;> rfl

@[simp] theorem channelAt_one (e0 e1 : Nat) : channelAt (channelPalette e0 e1) 1 = e1 := by
  unfold channelPalette
  split <;> rfl

/-- Eight-value mode: after the endpoints come the means of the weights 1 to 6 over 7. -/
theorem channelPalette_eight {e0 e1 : Nat} (h : e1 < e0) :
    channelPalette e0 e1 = e0 :: e1 :: (List.range' 1 6).map (interpolated 7 e0 e1) := if_pos h

/-- Six-value mode: after the endpoints come the means of the weights 1 to 4 over 5, then 0 and 255. -/
theorem channelPalette_six {e0 e1 : Nat} (h : e0 ≤ e1) :
    channelPalette e0 e1 = e0 :: e1 :: ((List.range' 1 4).map (interpolated 5 e0 e1) ++ [0, 255]) := if_neg h.not_gt

theorem channelAt_eight {e0 e1 j : Nat} (h : e1 < e0) (hj : 2 ≤ j) (hj' : j ≤ 7) :
    channelAt (channelPalette e0 e1) j = interpolated 7 e0 e1 (j - 1) := by
  rw [channelPalette_eight h]
  interval_cases j <;> rfl

theorem channelAt_six {e0 e1 j : Nat} (h : e0 ≤ e1) (hj : 2 ≤ j) (hj' : j ≤ 5) :
    channelAt (channelPalette e0 e1) j = interpolated 5 e0 e1 (j - 1) := by
  rw [channelPalette_six h]
  interval_cases j <;> rfl

theorem channelAt_six_zero {e0 e1 : Nat} (h : e0 ≤ e1) : channelAt (channelPalette e0 e1) 6 = 0 := by
  rw [channelPalette_six h]
  rfl

theorem channelAt_six_max {e0 e1 : Nat} (h : e0 ≤ e1) : channelAt (channelPalette e0 e1) 7 = 255 := by
  rw [channelPalette_six h]
  rfl

/-- Settles O40: entry `j` of each mode is the mean of weight `j - 1`. -/
theorem channelPaletteEntriesByMode : Obligations.ChannelPaletteEntriesByMode := by
  unfold Obligations.ChannelPaletteEntriesByMode
  refine fun e0 e1 => ⟨channelAt_zero e0 e1, channelAt_one e0 e1, fun h j hj hj' => ?_,
    fun h => ⟨fun j hj hj' => ?_, channelAt_six_zero h, channelAt_six_max h⟩⟩
  · rw [channelAt_eight h hj hj', interpolated, show 7 - (j - 1) = 8 - j by omega]
  · rw [channelAt_six h hj hj', interpolated, show 5 - (j - 1) = 6 - j by omega]

/-! ### Monotonic entries (rule R121) -/

/-- In either mode a channel runs through the means of all weights. -/
theorem colorAt_sequence (four : Bool) (c0 c1 : Nat) {ch : Vec3 Nat → Nat} (hch : ch = (·.r) ∨ ch = (·.g) ∨ ch = (·.b)) :
    ((if four then [0, 2, 3, 1] else [0, 2, 1]).map fun k => ch (colorAt (colorPalette four c0 c1) k).rgb) =
      interpolations (if four then 3 else 2) (ch (expand565 c0)) (ch (expand565 c1)) := by
  have hblend (wa wb d : Nat) (p q : Vec3 Nat) : ch (blend wa wb d p q).rgb = (wa * ch p + wb * ch q) / d := by
    rcases hch with rfl | rfl | rfl <;> rfl
  cases four
  · simp [hblend, interpolations, interpolated, List.range_succ]
  · simp [hblend, interpolations, interpolated, List.range_succ]

theorem channelAt_sequence_eight {e0 e1 : Nat} (h : e1 < e0) :
    [0, 2, 3, 4, 5, 6, 7, 1].map (channelAt (channelPalette e0 e1)) = interpolations 7 e0 e1 := by
  simp [channelPalette_eight h, channelAt, interpolations, interpolated, List.range_succ, List.range'_succ]

theorem channelAt_sequence_six {e0 e1 : Nat} (h : e0 ≤ e1) :
    [0, 2, 3, 4, 5, 1].map (channelAt (channelPalette e0 e1)) = interpolations 5 e0 e1 := by
  simp [channelPalette_six h, channelAt, interpolations, interpolated, List.range_succ, List.range'_succ]

/-- Settles O41: each sequence is the means of all weights in order, which rise or fall as the endpoints do. -/
theorem palettesAreMonotonic : Obligations.PalettesAreMonotonic := by
  unfold Obligations.PalettesAreMonotonic
  refine ⟨fun four c0 c1 ch hch => ?_, fun e0 e1 => ⟨fun h => ?_, fun h => ?_⟩⟩
  · rw [colorAt_sequence four c0 c1 hch]
    have hd : 0 < if four then 3 else 2 := by split <;> decide
    exact (le_total _ _).imp (interpolations_le hd) (interpolations_ge hd)
  · rw [channelAt_sequence_eight h]
    exact interpolations_ge (by decide) h.le
  · rw [channelAt_sequence_six h]
    exact interpolations_le (by decide) h

/-! ### Equal endpoints (rule R122) -/

theorem blend_self {d w : Nat} (hd : 0 < d) (hw : w ≤ d) (p : Vec3 Nat) : (blend (d - w) w d p p).rgb = p := by
  have hmean (x : Nat) : ((d - w) * x + w * x) / d = x := interpolated_self hd hw x
  simp [blend, hmean]

/-- With equal endpoints every color entry is the endpoint, but for transparent black. -/
theorem colorAt_self {four : Bool} {k : Nat} (hk : k < 4) (h : four = true ∨ k ≠ 3) (c : Nat) :
    (colorAt (colorPalette four c c) k).rgb = expand565 c := by
  interval_cases k
  · rw [colorAt_zero]
  · rw [colorAt_one]
  · cases four
    · exact blend_self (d := 2) (w := 1) (by decide) (by decide) _
    · exact blend_self (d := 3) (w := 1) (by decide) (by decide) _
  · obtain rfl : four = true := h.resolve_right fun h3 => h3 rfl
    exact blend_self (d := 3) (w := 2) (by decide) (by decide) _

/-- With equal endpoints every channel entry before the constants 0 and 255 is the endpoint. -/
theorem channelAt_self {k : Nat} (hk : k < 6) (e : Nat) : channelAt (channelPalette e e) k = e := by
  match k with
  | 0 => exact channelAt_zero e e
  | 1 => exact channelAt_one e e
  | k + 2 => rw [channelAt_six le_rfl (by omega) (by omega), interpolated_self (by decide) (by omega)]

/-- The nearest index is 0 exactly when no entry is nearer than entry 0: ties go to the lower index (rule R118). -/
theorem nearestIndex_eq_zero_iff {dist : Nat → Nat} {n : Nat} (hn : 0 < n) :
    nearestIndex dist n = 0 ↔ ∀ k, k < n → dist 0 ≤ dist k := by
  constructor
  · intro h k hk
    exact h ▸ nearestIndex_le dist hk
  · intro h
    by_contra hne
    exact (nearestIndex_first dist (Nat.pos_of_ne_zero hne)).not_ge (h _ (nearestIndex_lt dist hn))

/-- All color entries a texel may take are equal, so the first of them is nearest. -/
theorem sampleIndex_self (four : Bool) (c : Nat) {t : Sample} (ht : t.punch = false) :
    sampleIndex (colorPalette four c c) four t = 0 := by
  have hn : 0 < if four then 4 else 3 := by split <;> decide
  rw [sampleIndex, if_neg (by simp [ht]), nearestIndex_eq_zero_iff hn]
  intro k hk
  have hentry : k < 4 ∧ (four = true ∨ k ≠ 3) := by
    cases four with
    | true => exact ⟨hk, .inl rfl⟩
    | false =>
      have hk3 : k < 3 := hk
      exact ⟨by omega, .inr (by omega)⟩
  rw [colorAt_zero, colorAt_self hentry.1 hentry.2]

/-- Only the constants 0 and 255 can be nearer to a channel texel than the endpoint. -/
theorem channelSampleIndex_self_iff (e : Nat) (t : ChannelSample) :
    channelSampleIndex (channelPalette e e) t = 0 ↔ sqDiff t.x e ≤ sqDiff t.x 0 ∧ sqDiff t.x e ≤ sqDiff t.x 255 := by
  rw [channelSampleIndex, nearestIndex_eq_zero_iff (by decide), channelAt_zero]
  constructor
  · intro h
    have h6 := h 6 (by decide)
    have h7 := h 7 (by decide)
    rw [channelAt_six_zero le_rfl] at h6
    rw [channelAt_six_max le_rfl] at h7
    exact ⟨h6, h7⟩
  · rintro ⟨h0, h255⟩ k hk
    obtain hk | rfl | rfl : k < 6 ∨ k = 6 ∨ k = 7 := by omega
    · rw [channelAt_self hk]
    · rw [channelAt_six_zero le_rfl]
      exact h0
    · rw [channelAt_six_max le_rfl]
      exact h255

/-- Settles O42: the entries by the laws of the mean, the indices by the choice of the first nearest entry. -/
theorem equalEndpointsGiveIndexZero : Obligations.EqualEndpointsGiveIndexZero := by
  unfold Obligations.EqualEndpointsGiveIndexZero
  exact ⟨fun four c k hk h => colorAt_self hk h c, fun four c t ht => sampleIndex_self four c ht,
    fun e => ⟨fun k hk => channelAt_self hk e, channelAt_six_zero le_rfl, channelAt_six_max le_rfl⟩,
    channelSampleIndex_self_iff⟩

end Sys2Proof.Machine
end

section
/-! The encode of two sub-blocks: the bytes of each are read back from its own half of the block. Then what `enc.bc5` computes, and
the obligation about it (rules R133, R141). -/

namespace Sys2Proof.Machine

/-! ### A block of two sub-blocks (rules R70, R135) -/

/-- The first sub-block starts at `BLK[0]`. -/
theorem completeEncode_read_fst {s : State} {bs bs' : List Byte} {e k : Nat} (hk : k < bs.length) :
    (completeEncode (bs ++ bs') e s).mem.read (0x80 + k) = bs[k]? := by
  rw [completeEncode_read (by rw [List.length_append]; omega), List.getElem?_append_left hk]

/-- Behind a first sub-block of eight bytes, the second one starts at `BLK[8]`. -/
theorem completeEncode_read_snd {s : State} {bs bs' : List Byte} {e k : Nat} (hbs : bs.length = 8) (hk : k < bs'.length) :
    (completeEncode (bs ++ bs') e s).mem.read (0x88 + k) = bs'[k]? := by
  rw [show 0x88 + k = 0x80 + (bs.length + k) by omega, completeEncode_read (by rw [List.length_append]; omega),
    List.getElem?_append_right (Nat.le_add_right _ _), Nat.add_sub_cancel_left]

/-! ### enc.bc5 (rules R133, R141) -/

/-- With the texels readable, `enc.bc5` completes with the red sub-block before the green one and the sum of the two errors. -/
theorem exec_encBc5_of_readPix {s : State} {tx : List Texel} (h : readPix s.mem = some tx) (fit : Fit) :
    exec (.encBc5 fit) s = .next (completeEncode
      ((encodeChannel (·.r) fit s.texelMask tx).bytes ++ (encodeChannel (·.g) fit s.texelMask tx).bytes)
      ((encodeChannel (·.r) fit s.texelMask tx).err + (encodeChannel (·.g) fit s.texelMask tx).err) s) :=
  withPix_of_some h _

/-- The errors of any two channels of a block of sixteen texels add up to a number of 32 bits (rule R25). -/
theorem encodeChannel_err_add_lt (ch ch' : Texel → Byte) (fit : Fit) (mask : BitVec 16) {tx : List Texel}
    (h : tx.length = 16) : (encodeChannel ch fit mask tx).err + (encodeChannel ch' fit mask tx).err < 2 ^ 32 := by
  have hch := encodeChannel_err_le ch fit mask h
  have hch' := encodeChannel_err_le ch' fit mask h
  omega

/-- Settles O28: the two sub-blocks fill the two halves of the sixteen bytes, which are all that the command writes in the buffers,
and the sum of the errors fits in `ERRMETRIC`. -/
theorem encBc5StoresRedAndGreen : Obligations.EncBc5StoresRedAndGreen := by
  unfold Obligations.EncBc5StoresRedAndGreen
  intro fit s hs
  obtain ⟨tx, htx⟩ := hs.readPix
  refine ⟨_, tx, htx, exec_encBc5_of_readPix htx fit, completeEncode_frame (by simp), fun k hk => ?_, fun k hk => ?_, ?_⟩
  · exact completeEncode_read_fst (by simpa using hk)
  · exact completeEncode_read_snd (ChannelBlock.bytes_length _) (by simpa using hk)
  · exact completeEncode_errMetric_toNat (encodeChannel_err_add_lt _ _ fit _ (readPix_length htx))

end Sys2Proof.Machine
end

section
/-! The decode of a block: the sub-block decoders in terms of the raw block bytes and, said once for the five commands, that a decode
completes with its frame and the texels it expands; then the obligations (rules R142 to R148). -/

namespace Sys2Proof.Machine

/-! ### The fields of a block, by its bytes (rules R67 to R69) -/

theorem blockByte_le (bs : List Byte) (k : Nat) : blockByte bs k ≤ 255 :=
  Nat.le_of_lt_succ (bs.getD k 0).isLt

@[simp] theorem blockField_zero (bs : List Byte) (o : Nat) : blockField bs o 0 = 0 := by
  rw [blockField, List.take_zero, leNat]

/-- The lowest byte of a field is its first one; bytes behind the end of the list count as 0 on both sides. -/
theorem blockField_succ (bs : List Byte) (o n : Nat) :
    blockField bs o (n + 1) = blockByte bs o + 256 * blockField bs (o + 1) n := by
  by_cases ho : o < bs.length
  · rw [blockField, List.drop_eq_getElem_cons ho, List.take_succ_cons, leNat, blockByte, List.getD_eq_getElem bs 0 ho, blockField]
  · have hlen : bs.length ≤ o := Nat.le_of_not_lt ho
    rw [blockField, blockByte, blockField, List.drop_eq_nil_of_le hlen, List.drop_eq_nil_of_le (Nat.le_succ_of_le hlen),
      List.take_nil, List.take_nil, List.getD_eq_default bs 0 hlen]
    rfl

/-- Byte `k` of a field is byte `k` after the field's offset. -/
theorem blockField_div_mod (bs : List Byte) {k n : Nat} (hk : k < n) (o : Nat) :
    blockField bs o n / 256 ^ k % 256 = blockByte bs (o + k) := by
  induction k generalizing o n with
  | zero =>
    obtain ⟨m, rfl⟩ := Nat.exists_eq_add_of_lt hk
    have hbyte := blockByte_le bs o
    rw [blockField_succ, pow_zero, Nat.div_one, Nat.add_zero o]
    omega
  | succ k ih =>
    obtain ⟨m, rfl⟩ := Nat.exists_eq_add_of_lt hk
    have hbyte := blockByte_le bs o
    have hdiv : (blockByte bs o + 256 * blockField bs (o + 1) (k + 1 + m)) / 256 = blockField bs (o + 1) (k + 1 + m) := by omega
    rw [blockField_succ, pow_succ', ← Nat.div_div_eq_div_mul, hdiv, ih (by omega), Nat.add_right_comm, Nat.add_assoc]

/-! ### The index of a texel (rule R71) -/

theorem colorIndex_eq (w i : Nat) : colorIndex w i = w / 4 ^ i % 4 := by
  rw [colorIndex, bitField_eq, pow_mul, show (2 : Nat) ^ 2 = 4 from rfl]

theorem channelIndex_eq (w i : Nat) : channelIndex w i = w / 8 ^ i % 8 := by
  rw [channelIndex, bitField_eq, pow_mul, show (2 : Nat) ^ 3 = 8 from rfl]

/-- Two texels share a byte of the explicit alpha, the even one in its low nibble. -/
theorem alphaNibble_blockField (bs : List Byte) {i : Nat} (hi : i < 16) :
    alphaNibble (blockField bs 0 8) i = blockByte bs (i / 2) / (if i % 2 = 0 then 1 else 16) % 16 := by
  have hbyte := blockField_div_mod bs (k := i / 2) (n := 8) (by omega) 0
  rw [Nat.zero_add] at hbyte
  have hpow : 2 ^ (4 * i) = 256 ^ (i / 2) * 16 ^ (i % 2) := by
    rw [show 4 * i = 8 * (i / 2) + 4 * (i % 2) by omega, pow_add, pow_mul, pow_mul, show (2 : Nat) ^ 8 = 256 from rfl,
      show (2 : Nat) ^ 4 = 16 from rfl]
  rw [alphaNibble, bitField_eq, hpow, ← Nat.div_div_eq_div_mul, ← hbyte]
  rcases Nat.mod_two_eq_zero_or_one i with h | h <;> rw [h]
  · simp only [pow_zero, if_true]
    omega
  · simp only [pow_one, one_ne_zero, if_false]
    omega

/-! ### The mode of a color sub-block (rule R116) -/

theorem fourColorMode_bc1 (c0 c1 : Nat) : fourColorMode .bc1 c0 c1 = decide (c1 < c0) := by
  simp [fourColorMode]

theorem fourColorMode_of_ne_bc1 {fmt : Format} (h : fmt ≠ .bc1) (c0 c1 : Nat) : fourColorMode fmt c0 c1 = true := by
  simp [fourColorMode, h]

/-! ### The sub-block decoders, by the raw bytes (rules R143, R147, R148) -/

/-- Texel `i` of a color sub-block is the palette entry its two index bits name (rule R147). -/
theorem decodeColor_getElem? (fmt : Format) {o c0 c1 w i : Nat} {bs : List Byte}
    (h0 : c0 = blockByte bs o + 256 * blockByte bs (o + 1)) (h1 : c1 = blockByte bs (o + 2) + 256 * blockByte bs (o + 3))
    (hw : w = blockByte bs (o + 4) + 256 * blockByte bs (o + 5) + 65536 * blockByte bs (o + 6) + 16777216 * blockByte bs (o + 7))
    (hi : i < 16) :
    (decodeColor fmt o bs)[i]? = some (colorAt (colorPalette (fourColorMode fmt c0 c1) c0 c1) (w / 4 ^ i % 4)) := by
  have hc0 : blockField bs o 2 = c0 := by simp [blockField_succ, h0]
  have hc1 : blockField bs (o + 2) 2 = c1 := by simp [blockField_succ, h1]
  have hidx : blockField bs (o + 4) 4 = w := by
    simp only [blockField_succ, blockField_zero, Nat.add_assoc, Nat.reduceAdd]
    omega
  simp [decodeColor, hc0, hc1, hidx, hi, colorIndex_eq]

/-- Texel `i` of a channel sub-block is the palette entry its three index bits name (rule R148). -/
theorem decodeChannel_getElem? {o j i : Nat} {bs : List Byte}
    (hj : j = blockByte bs (o + 2) + 2 ^ 8 * blockByte bs (o + 3) + 2 ^ 16 * blockByte bs (o + 4) +
      2 ^ 24 * blockByte bs (o + 5) + 2 ^ 32 * blockByte bs (o + 6) + 2 ^ 40 * blockByte bs (o + 7)) (hi : i < 16) :
    (decodeChannel o bs)[i]? = some (channelAt (channelPalette (blockByte bs o) (blockByte bs (o + 1))) (j / 8 ^ i % 8)) := by
  have hend (k : Nat) : blockField bs k 1 = blockByte bs k := by simp [blockField_succ]
  have hidx : blockField bs (o + 2) 6 = j := by
    simp only [blockField_succ, blockField_zero, Nat.add_assoc, Nat.reduceAdd]
    omega
  simp [decodeChannel, hend, hidx, hi, channelIndex_eq]

/-- Texel `i` of the explicit alpha is its nibble, expanded (rule R143). -/
theorem decodeAlpha_getElem? (bs : List Byte) {i : Nat} (hi : i < 16) :
    (decodeAlpha bs)[i]? = some (17 * (blockByte bs (i / 2) / (if i % 2 = 0 then 1 else 16) % 16)) := by
  simp [decodeAlpha, hi, alphaNibble_blockField]

/-! ### The texel of decoded values: none of them is cut (rules R142 to R146) -/

theorem hasChannels_texelOfNats {r g b a : Nat} (hr : r ≤ 255) (hg : g ≤ 255) (hb : b ≤ 255) (ha : a ≤ 255) :
    HasChannels (texelOfNats r g b a) r g b a :=
  have uncut {v : Nat} (hv : v ≤ 255) : (BitVec.ofNat 8 v).toNat = v := Nat.mod_eq_of_lt (Nat.lt_succ_of_le hv)
  ⟨uncut hr, uncut hg, uncut hb, uncut ha⟩

theorem hasChannels_entryWithAlpha (four : Bool) (c0 c1 k : Nat) {a : Nat} (ha : a ≤ 255) :
    HasChannels (entryWithAlpha (colorAt (colorPalette four c0 c1) k) a) (colorAt (colorPalette four c0 c1) k).rgb.r
      (colorAt (colorPalette four c0 c1) k).rgb.g (colorAt (colorPalette four c0 c1) k).rgb.b a := by
  obtain ⟨hr, hg, hb, -⟩ := colorAt_le four c0 c1 k
  exact hasChannels_texelOfNats hr hg hb ha

theorem hasChannels_entryTexel (four : Bool) (c0 c1 k : Nat) :
    HasChannels (entryTexel (colorAt (colorPalette four c0 c1) k)) (colorAt (colorPalette four c0 c1) k).rgb.r
      (colorAt (colorPalette four c0 c1) k).rgb.g (colorAt (colorPalette four c0 c1) k).rgb.b
      (colorAt (colorPalette four c0 c1) k).alpha := by
  obtain ⟨hr, hg, hb, ha⟩ := colorAt_le four c0 c1 k
  exact hasChannels_texelOfNats hr hg hb ha

/-! ### A decode completes (rules R135, R136) -/

/-- With its block bytes valued, a command that expands them to sixteen texels completes with those texels in `PIX` and the frame of
a decode. -/
theorem exec_decode_of_blkReady {i : Instr} {n : Nat} {s : State} {expand : List Byte → List Texel} (hs : BlkReady n s)
    (hexec : exec i s = withBlk n s fun bs => .next (completeDecode (pixBytes (expand bs)) s))
    (hlen : ∀ bs, (expand bs).length = 16) :
    ∃ t bs, readBlk s.mem n = some bs ∧ exec i s = .next t ∧ DecodeFrame s t ∧
      ∀ k, k < 16 → readTexel t.mem k = (expand bs)[k]? := by
  obtain ⟨bs, hbs⟩ := hs.readBlk
  refine ⟨_, bs, hbs, hexec.trans (withBlk_of_some hbs _), completeDecode_frame (pixBytes_length (hlen bs)), fun k hk => ?_⟩
  have hk' : k < (expand bs).length := by rw [hlen]; exact hk
  rw [List.getElem?_eq_getElem hk']
  exact (readPix_eq_some.1 (completeDecode_readPix (hlen bs))).2 k hk'

/-! ### The obligations -/

/-- Settles O29: every texel is the color entry its index names, with the entry's own alpha. -/
theorem decBc1ExpandsTheColorBlock : Obligations.DecBc1ExpandsTheColorBlock := by
  unfold Obligations.DecBc1ExpandsTheColorBlock
  refine ⟨rfl, fun s hs => ?_⟩
  obtain ⟨t, bs, hblk, hexec, hframe, hread⟩ := exec_decode_of_blkReady (i := .decBc1) hs rfl expandBc1_length
  refine ⟨t, bs, hblk, hexec, hframe, fun c0 c1 w h0 h1 hw i hi => ?_⟩
  have hcolor := decodeColor_getElem? .bc1 (o := 0) h0 h1 hw hi
  rw [fourColorMode_bc1] at hcolor
  refine ⟨_, ?_, hasChannels_entryTexel _ _ _ _⟩
  rw [hread i hi, expandBc1, List.getElem?_map, hcolor, Option.map_some]

/-- Settles O30: every texel is a four-color entry with the alpha of its nibble. -/
theorem decBc2ExpandsExplicitAlphaAndColor : Obligations.DecBc2ExpandsExplicitAlphaAndColor := by
  unfold Obligations.DecBc2ExpandsExplicitAlphaAndColor
  refine ⟨rfl, fun s hs => ?_⟩
  obtain ⟨t, bs, hblk, hexec, hframe, hread⟩ := exec_decode_of_blkReady (i := .decBc2) hs rfl expandBc2_length
  refine ⟨t, bs, hblk, hexec, hframe, fun c0 c1 w h0 h1 hw i hi => ?_⟩
  have hcolor := decodeColor_getElem? .bc2 (o := 8) h0 h1 hw hi
  rw [fourColorMode_of_ne_bc1 (by decide)] at hcolor
  refine ⟨_, (hread i hi).trans ?_, hasChannels_entryWithAlpha _ _ _ _ (by omega)⟩
  exact List.getElem?_zipWith_eq_some.2 ⟨_, _, hcolor, decodeAlpha_getElem? bs hi, rfl⟩

/-- Settles O31: every texel is a four-color entry with the channel entry of the alpha sub-block. -/
theorem decBc3ExpandsAlphaChannelAndColor : Obligations.DecBc3ExpandsAlphaChannelAndColor := by
  unfold Obligations.DecBc3ExpandsAlphaChannelAndColor
  refine ⟨rfl, fun s hs => ?_⟩
  obtain ⟨t, bs, hblk, hexec, hframe, hread⟩ := exec_decode_of_blkReady (i := .decBc3) hs rfl expandBc3_length
  refine ⟨t, bs, hblk, hexec, hframe, fun c0 c1 w j h0 h1 hw hj i hi => ?_⟩
  have hcolor := decodeColor_getElem? .bc3 (o := 8) h0 h1 hw hi
  rw [fourColorMode_of_ne_bc1 (by decide)] at hcolor
  have halpha := decodeChannel_getElem? (o := 0) hj hi
  refine ⟨_, (hread i hi).trans ?_, hasChannels_entryWithAlpha _ _ _ _ (channelAt_le (blockByte_le bs 0) (blockByte_le bs 1) _)⟩
  exact List.getElem?_zipWith_eq_some.2 ⟨_, _, hcolor, halpha, rfl⟩

/-- Settles O32: every texel has the channel entry its index names as its red. -/
theorem decBc4ExpandsTheRedChannel : Obligations.DecBc4ExpandsTheRedChannel := by
  unfold Obligations.DecBc4ExpandsTheRedChannel
  refine ⟨rfl, fun s hs => ?_⟩
  obtain ⟨t, bs, hblk, hexec, hframe, hread⟩ := exec_decode_of_blkReady (i := .decBc4) hs rfl expandBc4_length
  refine ⟨t, bs, hblk, hexec, hframe, fun j hj i hi => ?_⟩
  have hred := decodeChannel_getElem? (o := 0) hj hi
  refine ⟨_, ?_, hasChannels_texelOfNats (channelAt_le (blockByte_le bs 0) (blockByte_le bs 1) _) (Nat.zero_le _)
    (Nat.zero_le _) le_rfl⟩
  rw [hread i hi, expandBc4, List.getElem?_map, hred, Option.map_some]

/-- Settles O33: every texel has its red from the first channel sub-block and its green from the second one. -/
theorem decBc5ExpandsRedAndGreen : Obligations.DecBc5ExpandsRedAndGreen := by
  unfold Obligations.DecBc5ExpandsRedAndGreen
  refine ⟨rfl, fun s hs => ?_⟩
  obtain ⟨t, bs, hblk, hexec, hframe, hread⟩ := exec_decode_of_blkReady (i := .decBc5) hs rfl expandBc5_length
  refine ⟨t, bs, hblk, hexec, hframe, fun jr jg hjr hjg i hi => ?_⟩
  have hred := decodeChannel_getElem? (o := 0) hjr hi
  have hgreen := decodeChannel_getElem? (o := 8) hjg hi
  refine ⟨_, (hread i hi).trans ?_, hasChannels_texelOfNats (channelAt_le (blockByte_le bs 0) (blockByte_le bs 1) _)
    (channelAt_le (blockByte_le bs 8) (blockByte_le bs 9) _) (Nat.zero_le _) le_rfl⟩
  exact List.getElem?_zipWith_eq_some.2 ⟨_, _, hred, hgreen, rfl⟩

end Sys2Proof.Machine
end

section
/-! The host-level errors of the image driver: which tags name a format, and what each operation answers when one of its checks
fails, in the order of the checks; then the obligation about them (rules R151, R153). -/

namespace Sys2Proof.Machine

/-! ### Format tags (rules R151, R159) -/

/-- The tags 1 to 5 name a format and no other tag does. -/
theorem formatOfTag_eq_none_iff {tag : Nat} : formatOfTag tag = none ↔ tag = 0 ∨ 5 < tag := by
  by_cases h8 : tag < 8
  · have hcodes : ∀ n < 8, Format.ofCode (BitVec.ofNat 3 n) = none ↔ n = 0 ∨ 5 < n := by decide
    rw [formatOfTag, if_pos h8, hcodes tag h8]
  · exact iff_of_true (if_neg h8) (by omega)

theorem exists_formatOfTag_eq_some {tag : Nat} (h1 : 1 ≤ tag) (h5 : tag ≤ 5) : ∃ fmt, formatOfTag tag = some fmt := by
  refine Option.ne_none_iff_exists'.1 fun hnone => ?_
  have := formatOfTag_eq_none_iff.1 hnone
  omega

/-! ### The checks, in order (rule R153) -/

section Checks
variable {W H tag : Nat} {fmt : Format}

theorem compressOn_of_zero_dimension (hdim : W = 0 ∨ H = 0) (cores : List State) (plan : List Job) (pixels : List Texel)
    (tag : Nat) (high weighted : Bool) :
    compressOn cores plan pixels W H tag high weighted = .error .invalidDimensions :=
  if_pos hdim

theorem decompressOn_of_zero_dimension (hdim : W = 0 ∨ H = 0) (cores : List State) (plan : List Job) (bytes : List Byte)
    (tag : Nat) : decompressOn cores plan bytes W H tag = .error .invalidDimensions :=
  if_pos hdim

theorem compressOn_of_no_format (hW : W ≠ 0) (hH : H ≠ 0) (htag : formatOfTag tag = none) (cores : List State)
    (plan : List Job) (pixels : List Texel) (high weighted : Bool) :
    compressOn cores plan pixels W H tag high weighted = .error .unsupportedFormat := by
  rw [compressOn, if_neg (not_or.2 ⟨hW, hH⟩), htag]

theorem decompressOn_of_no_format (hW : W ≠ 0) (hH : H ≠ 0) (htag : formatOfTag tag = none) (cores : List State)
    (plan : List Job) (bytes : List Byte) : decompressOn cores plan bytes W H tag = .error .unsupportedFormat := by
  rw [decompressOn, if_neg (not_or.2 ⟨hW, hH⟩), htag]

theorem compressOn_of_short_input {pixels : List Texel} (hW : W ≠ 0) (hH : H ≠ 0) (htag : formatOfTag tag = some fmt)
    (hlen : pixels.length < W * H) (cores : List State) (plan : List Job) (high weighted : Bool) :
    compressOn cores plan pixels W H tag high weighted = .error .truncatedInput := by
  simp only [compressOn, if_neg (not_or.2 ⟨hW, hH⟩), htag, if_pos hlen]

theorem decompressOn_of_short_input {bytes : List Byte} (hW : W ≠ 0) (hH : H ≠ 0) (htag : formatOfTag tag = some fmt)
    (hlen : bytes.length < blockCount W H * fmt.blockBytes) (cores : List State) (plan : List Job) :
    decompressOn cores plan bytes W H tag = .error .truncatedInput := by
  simp only [decompressOn, if_neg (not_or.2 ⟨hW, hH⟩), htag, if_pos hlen]

end Checks

/-- Settles O57: each check of rule R153, once the ones before it have passed, answers its own error for both operations. -/
theorem driverErrorsInOrder : Obligations.DriverErrorsInOrder := by
  unfold Obligations.DriverErrorsInOrder
  refine ⟨?dimC, ?dimD, ?formatC, ?formatD, ?lengthC, ?lengthD⟩
  case dimC => exact fun cores plan pixels _ _ tag high weighted hdim =>
    compressOn_of_zero_dimension hdim cores plan pixels tag high weighted
  case dimD => exact fun cores plan bytes _ _ tag hdim => decompressOn_of_zero_dimension hdim cores plan bytes tag
  case formatC => exact fun cores plan pixels _ _ _ high weighted hW hH htag =>
    compressOn_of_no_format hW hH (formatOfTag_eq_none_iff.2 htag) cores plan pixels high weighted
  case formatD => exact fun cores plan bytes _ _ _ hW hH htag =>
    decompressOn_of_no_format hW hH (formatOfTag_eq_none_iff.2 htag) cores plan bytes
  case lengthC =>
    intro cores plan pixels _ _ _ high weighted hW hH h1 h5 hlen
    obtain ⟨_, hfmt⟩ := exists_formatOfTag_eq_some h1 h5
    exact compressOn_of_short_input hW hH hfmt hlen cores plan high weighted
  case lengthD => exact fun cores plan _ _ _ _ _ hW hH hfmt hlen => decompressOn_of_short_input hW hH hfmt hlen cores plan

end Sys2Proof.Machine
end

section
/-! The validity check by the bits of the word, what passes it and what a rejected word does (rules R60, R170 to R173): each field
is read as a number, each outcome of the decoder is stated once, and the obligations follow. -/

namespace Sys2Proof.Machine

/-! ### The fields of a word as numbers (rule R60) -/

/-- `FMT` is bits 3:1. -/
theorem fieldsOf_fmt_toNat (w : Word) : (fieldsOf w).fmt.toNat = w.toNat / 2 % 8 := by
  rw [fieldsOf, BitVec.extractLsb'_toNat, Nat.shiftRight_eq_div_pow]

/-- The reserved field is bits 31:6. -/
theorem fieldsOf_rsvd_eq_zero_iff (w : Word) : (fieldsOf w).rsvd = 0 ↔ w.toNat / 64 = 0 := by
  have hrsvd : (fieldsOf w).rsvd.toNat = w.toNat / 64 % 2 ^ 26 := by
    rw [fieldsOf, BitVec.extractLsb'_toNat, Nat.shiftRight_eq_div_pow]
  have hcut : w.toNat / 64 < 2 ^ 26 := Nat.div_lt_of_lt_mul w.isLt
  rw [← BitVec.toNat_inj, hrsvd, Nat.mod_eq_of_lt hcut]
  rfl

theorem getLsbD_iff_div_mod (w : Word) (k : Nat) : w.getLsbD k = true ↔ w.toNat / 2 ^ k % 2 = 1 := by
  rw [BitVec.getLsbD, Nat.testBit_eq_decide_div_mod_eq, decide_eq_true_iff]

/-- `DIR` is bit 0. -/
theorem fieldsOf_dir_iff (w : Word) : (fieldsOf w).dir = true ↔ w.toNat % 2 = 1 := by
  simpa [fieldsOf] using getLsbD_iff_div_mod w 0

/-- `FIT` is bit 4. -/
theorem fieldsOf_fit_iff (w : Word) : (fieldsOf w).fit = true ↔ w.toNat / 16 % 2 = 1 :=
  getLsbD_iff_div_mod w 4

/-- `WBA` is bit 5. -/
theorem fieldsOf_wba_iff (w : Word) : (fieldsOf w).wba = true ↔ w.toNat / 32 % 2 = 1 :=
  getLsbD_iff_div_mod w 5

/-- The codes 0, 6 and 7 name no format. -/
theorem ofCode_eq_none_iff (c : BitVec 3) : Format.ofCode c = none ↔ c.toNat = 0 ∨ 5 < c.toNat := by
  revert c
  decide

/-- Of the five formats the codes name, the last two, 4 and 5, have no color sub-block. -/
theorem hasColor_of_ofCode {c : BitVec 3} {fmt : Format} (h : Format.ofCode c = some fmt) :
    fmt.hasColor = false ↔ 4 ≤ c.toNat := by
  revert c
  cases fmt <;> decide

/-! ### The check, by the format (rule R171) -/

theorem commandCheck_of_no_format {w : Word} (h : Format.ofCode (fieldsOf w).fmt = none) :
    commandCheck w = .unsupportedFormat :=
  commandCheck_of_error (by rw [decode, h])

/-- With a format named, the three remaining conditions are asked in order, and a word that meets none of them is a command. -/
theorem commandCheck_of_format {w : Word} {fmt : Format} (h : Format.ofCode (fieldsOf w).fmt = some fmt) :
    commandCheck w =
      if (fieldsOf w).rsvd ≠ 0 then .invalidCommand
      else if (fieldsOf w).dir = true ∧ ((fieldsOf w).fit = true ∨ (fieldsOf w).wba = true) then .invalidCommand
      else if ¬ (fieldsOf w).dir = true ∧ fmt.hasColor = false ∧ (fieldsOf w).wba = true then .invalidCommand
      else .none := by
  rw [commandCheck, decode, h]
  simp only [Bool.and_eq_true, Bool.or_eq_true, Bool.not_eq_true', and_assoc, Bool.not_eq_true]
  split_ifs <;> rfl

/-! ### The outcome of performing a word (rules R170, R173) -/

/-- A command that completes leaves `ERR` at `NONE` (rule R170). -/
theorem exec_status_err {i : Instr} {s t : State} (h : exec i s = .next t) : t.status.err = .none := by
  rcases exec_next h with ⟨bs, e, -, rfl⟩ | ⟨bs, -, rfl⟩
  · rw [completeEncode_status, Status.completed_err]
  · rw [completeDecode_status, Status.completed_err]

/-- A rejected word raises its code in the state as it is. -/
theorem perform_of_error {w : Word} {e : ErrCode} (h : decode w = .error e) (s : State) :
    perform w s = .next (raise e s) := by
  rw [perform, h]

/-! ### The obligations -/

/-- Settles O18: the check asks about the format first, and each of its conditions on the fields is the one on the bits. -/
theorem validityCheckOrder : Obligations.ValidityCheckOrder := by
  unfold Obligations.ValidityCheckOrder
  refine ⟨fun w => ?_, fun _ _ _ => exec_status_err⟩
  have hnone := ofCode_eq_none_iff (fieldsOf w).fmt
  rw [fieldsOf_fmt_toNat] at hnone
  cases hfmt : Format.ofCode (fieldsOf w).fmt with
  | none => rw [commandCheck_of_no_format hfmt, if_pos (hnone.1 hfmt)]
  | some fmt =>
    have hnamed : ¬ (w.toNat / 2 % 8 = 0 ∨ 5 < w.toNat / 2 % 8) := by simp [← hnone, hfmt]
    rw [commandCheck_of_format hfmt, if_neg hnamed]
    simp only [ne_eq, fieldsOf_rsvd_eq_zero_iff, fieldsOf_dir_iff, fieldsOf_fit_iff, fieldsOf_wba_iff,
      hasColor_of_ofCode hfmt, fieldsOf_fmt_toNat, Nat.mod_two_not_eq_one]

/-- Settles O21: the decoder rejects with one of the core's two codes, and raising one writes `STATUS` alone. -/
theorem rejectedCommandChangesOnlyStatus : Obligations.RejectedCommandChangesOnlyStatus := by
  unfold Obligations.RejectedCommandChangesOnlyStatus
  exact fun s w e hdec => ⟨decode_error hdec, perform_of_error hdec s⟩

end Sys2Proof.Machine
end

section
/-! The reset (rules R29, R190, R192): the words of `STATUS` and `MASK` after it; then the obligation, for which the state at
power-on is the result of a reset like any other. -/

namespace Sys2Proof.Machine

@[simp] theorem Status.reset_word : Status.reset.word = 0 := rfl

@[simp] theorem maskWord_resetCore (s : State) : maskWord (resetCore s) = 0x0000FFFF := rfl

/-- A reset sets every piece of the core's state, whatever it was (rule R190). -/
theorem resetCore_atReset (s : State) : AtReset (resetCore s) := by
  simp [AtReset]

/-- There is one kind of reset: a reset right after power-on changes nothing (rule R192). -/
theorem resetCore_reset : resetCore State.reset = State.reset := rfl

/-- A reset turn is the reset of the core and nothing else. -/
theorem step_reset {s : State} (h : nextTurn s = .reset) : step s = .next (resetCore (useTurn s)) := by
  rw [step, h, move]

/-! ### The obligation -/

/-- Settles O1: power-on and the reset turn both give the result of `resetCore`, which is at reset for every state. -/
theorem resetGivesEveryRegisterItsValue : Obligations.ResetGivesEveryRegisterItsValue := by
  unfold Obligations.ResetGivesEveryRegisterItsValue
  refine ⟨?powerOn, fun s hturn => ?turn⟩
  case powerOn => exact resetCore_reset ▸ resetCore_atReset State.reset
  case turn => exact ⟨_, step_reset hturn, resetCore_atReset _⟩

end Sys2Proof.Machine
end

section
/-! The invariant of reachable states (rules R16 to R20, R26): the memory's form and the control registers are kept apart. -/

namespace Sys2Proof.Machine

/-- The check of a word has one of the core's own codes (rules R20, R171). -/
theorem commandCheck_core_codes (w : Word) :
    commandCheck w = .none ∨ commandCheck w = .unsupportedFormat ∨ commandCheck w = .invalidCommand := by
  cases hd : decode w with
  | ok i => exact .inl (commandCheck_of_ok hd)
  | error e => exact .inr (by rw [commandCheck_of_error hd]; exact decode_error hd)

/-- Every step keeps the memory's form: a command and a host write do, a reset empties it, and nothing else touches it. -/
theorem step_keeps_mem_wf {s t : State} (hm : s.mem.wf = true) (h : step s = .next t) : t.mem.wf = true := by
  rcases step_cases s with ⟨-, hs⟩ | ⟨-, hs⟩ | ⟨-, hs⟩ <;> rw [hs] at h
  · rcases coreMove_next h with ⟨rfl, -⟩ | ⟨-, w, -, ⟨i, -, hi⟩ | ⟨e, -, rfl⟩⟩
    · exact hm
    · exact exec_keeps_mem_wf (s := useTurn s) hm hi
    · exact hm
  · rcases hostMove_next h with ⟨-, rfl⟩ | ⟨a, n, v, rest, -, hw⟩ | ⟨a, n, x, rest, v, s', -, hr, rfl⟩ |
      ⟨rest, -, rfl | rfl⟩
    · exact hm
    · exact memWrite_keeps_mem_wf (s := { useTurn s with pending := rest }) hm hw
    · rcases memRead_ok hr with rfl | ⟨-, rfl⟩ <;> exact hm
    · exact hm
    · exact hm
  · cases h
    exact Memory.wf_nil

/-- Settles O3: the memory's form is kept by every step, and each of the five things a step can do to the control registers keeps
the rest: a completion leaves the word of the busy core latched, an acceptance latches the word it writes, a dropped write touches
`WERR` of a busy core alone, and a reset clears all. -/
theorem everyStepKeepsTheInvariant : Obligations.EveryStepKeepsTheInvariant := by
  unfold Obligations.EveryStepKeepsTheInvariant
  intro s t hs h
  have hmem := step_keeps_mem_wf hs.mem_wf h
  cases step_control h with
  | completed w _ busy _ cmd lcmd status =>
    have hlatched := hs.busy_latched busy
    have hcode := commandCheck_core_codes w
    exact { mem_wf := hmem, busy_not_done := by simp [status], busy_no_error := by simp [status],
            core_codes := by simpa [status] using hcode, busy_latched := by simp [status],
            done_latched := by simp [cmd, lcmd, hlatched], idle_clean := by simp [status] }
  | accepted v _ _ _ _ cmd lcmd status =>
    exact { mem_wf := hmem, busy_not_done := by simp [status], busy_no_error := by simp [status],
            core_codes := by simp [status], busy_latched := by simp [cmd, lcmd],
            done_latched := by simp [cmd, lcmd], idle_clean := by simp [status] }
  | dropped _ busy cmd lcmd status =>
    exact { mem_wf := hmem, busy_not_done := by simpa [status] using hs.busy_not_done,
            busy_no_error := by simpa [status] using hs.busy_no_error,
            core_codes := by simpa [status] using hs.core_codes,
            busy_latched := by simpa [cmd, lcmd, status] using hs.busy_latched,
            done_latched := by simpa [cmd, lcmd, status] using hs.done_latched,
            idle_clean := by simp [status, busy] }
  | reset _ _ lcmd status =>
    exact { mem_wf := hmem, busy_not_done := by simp [status], busy_no_error := by simp [status],
            core_codes := by simp [status], busy_latched := by simp [status],
            done_latched := by simp [status], idle_clean := by simp [status, lcmd] }
  | kept _ _ cmd lcmd status =>
    exact { mem_wf := hmem, busy_not_done := by simpa [status] using hs.busy_not_done,
            busy_no_error := by simpa [status] using hs.busy_no_error,
            core_codes := by simpa [status] using hs.core_codes,
            busy_latched := by simpa [cmd, lcmd, status] using hs.busy_latched,
            done_latched := by simpa [cmd, lcmd, status] using hs.done_latched,
            idle_clean := by simpa [lcmd, status] using hs.idle_clean }

/-- Settles O2: the memory is empty, and with `STATUS` and `LCMD` cleared every clause about them is immediate. -/
theorem resetSatisfiesTheInvariant : Obligations.ResetSatisfiesTheInvariant := by
  unfold Obligations.ResetSatisfiesTheInvariant
  exact { mem_wf := Memory.wf_nil, busy_not_done := fun _ => rfl, busy_no_error := fun _ => rfl, core_codes := .inl rfl,
          busy_latched := nofun, done_latched := nofun, idle_clean := fun _ _ => ⟨rfl, rfl, rfl⟩ }

end Sys2Proof.Machine
end

section
/-! The command word: a word and its fields determine each other, so the decoder and the encoder are inverse to each other on the
fields; then which words are legal (rules R60 to R65). -/

namespace Sys2Proof.Machine

/-! ### A word and its fields (rule R60) -/

theorem toNat_append_eq_add {m n : Nat} (x : BitVec m) (y : BitVec n) : (x ++ y).toNat = 2 ^ n * x.toNat + y.toNat := by
  rw [BitVec.toNat_append, ← Nat.shiftLeft_add_eq_or_of_lt y.isLt, Nat.shiftLeft_eq, Nat.mul_comm]

/-- The number of a word, by its fields. -/
theorem word_toNat (f : CmdFields) :
    f.word.toNat = 64 * f.rsvd.toNat + (32 * f.wba.toNat + (16 * f.fit.toNat + (2 * f.fmt.toNat + f.dir.toNat))) := by
  rw [CmdFields.word]
  simp only [toNat_append_eq_add, BitVec.toNat_ofBool]
  norm_num

/-- Bit `k` as a number. -/
theorem toNat_getLsbD (w : Word) (k : Nat) : (w.getLsbD k).toNat = w.toNat / 2 ^ k % 2 := by
  rw [BitVec.getLsbD, Nat.testBit_eq_decide_div_mod_eq]
  rcases Nat.mod_two_eq_zero_or_one (w.toNat / 2 ^ k) with h | h <;> rw [h] <;> rfl

/-- The number of each field of a word. -/
theorem fieldsOf_toNat (w : Word) :
    (fieldsOf w).dir.toNat = w.toNat % 2 ∧ (fieldsOf w).fmt.toNat = w.toNat / 2 % 8 ∧
    (fieldsOf w).fit.toNat = w.toNat / 16 % 2 ∧ (fieldsOf w).wba.toNat = w.toNat / 32 % 2 ∧
    (fieldsOf w).rsvd.toNat = w.toNat / 64 := by
  have hrsvd : w.toNat / 64 < 2 ^ 26 := Nat.div_lt_of_lt_mul w.isLt
  refine ⟨?_, fieldsOf_fmt_toNat w, toNat_getLsbD w 4, toNat_getLsbD w 5, ?_⟩
  · simpa [fieldsOf] using toNat_getLsbD w 0
  · rw [fieldsOf, BitVec.extractLsb'_toNat, Nat.shiftRight_eq_div_pow]
    exact Nat.mod_eq_of_lt hrsvd

theorem bool_eq_of_toNat_eq : ∀ {a b : Bool}, a.toNat = b.toNat → a = b := by
  decide

/-- Fields are equal when their numbers are. -/
theorem cmdFields_eq_of_toNat {f g : CmdFields} (hdir : f.dir.toNat = g.dir.toNat) (hfmt : f.fmt.toNat = g.fmt.toNat)
    (hfit : f.fit.toNat = g.fit.toNat) (hwba : f.wba.toNat = g.wba.toNat) (hrsvd : f.rsvd.toNat = g.rsvd.toNat) : f = g := by
  obtain ⟨dir, fmt, fit, wba, rsvd⟩ := f
  obtain ⟨dir', fmt', fit', wba', rsvd'⟩ := g
  rw [CmdFields.mk.injEq]
  exact ⟨bool_eq_of_toNat_eq hdir, BitVec.eq_of_toNat_eq hfmt, bool_eq_of_toNat_eq hfit, bool_eq_of_toNat_eq hwba,
    BitVec.eq_of_toNat_eq hrsvd⟩

/-- A word is the word of its fields. -/
theorem word_fieldsOf (w : Word) : (fieldsOf w).word = w := by
  obtain ⟨hdir, hfmt, hfit, hwba, hrsvd⟩ := fieldsOf_toNat w
  refine BitVec.eq_of_toNat_eq ?_
  rw [word_toNat, hdir, hfmt, hfit, hwba, hrsvd]
  omega

/-- The fields are those of their word. -/
theorem fieldsOf_word (f : CmdFields) : fieldsOf f.word = f := by
  obtain ⟨hdir, hfmt, hfit, hwba, hrsvd⟩ := fieldsOf_toNat f.word
  have hw := word_toNat f
  have ldir := f.dir.toNat_lt
  have lfmt := f.fmt.isLt
  have lfit := f.fit.toNat_lt
  have lwba := f.wba.toNat_lt
  apply cmdFields_eq_of_toNat <;> omega

/-! ### The decoder and the encoder, on the fields (rules R61 to R64) -/

theorem ofCode_code (fmt : Format) : Format.ofCode fmt.code = some fmt := by
  cases fmt <;> rfl

theorem code_of_ofCode {c : BitVec 3} {fmt : Format} (h : Format.ofCode c = some fmt) : c = fmt.code := by
  revert c
  cases fmt <;> decide

theorem ofBit_bit (fit : Fit) : Fit.ofBit fit.bit = fit := by
  cases fit <;> rfl

theorem bit_ofBit (b : Bool) : (Fit.ofBit b).bit = b := by
  cases b <;> rfl

/-- An encode word decodes to its command, if it asks for no `WBA` of a format without color. -/
theorem decode_encodeFields {fmt : Format} {wba : Bool} (fit : Fit) (h : fmt.hasColor = true ∨ wba = false) :
    decode (encodeFields fmt fit wba).word = .ok (encodeCommand fmt fit wba) := by
  rw [decode, fieldsOf_word]
  rcases h with h | h <;> simp [encodeFields, ofCode_code, ofBit_bit, h]

/-- A decode word decodes to its command. -/
theorem decode_decodeFields (fmt : Format) : decode (decodeFields fmt).word = .ok (decodeCommand fmt) := by
  rw [decode, fieldsOf_word]
  simp [decodeFields, ofCode_code]

/-- Every command's word decodes to it. -/
theorem decode_encode (i : Instr) : decode (encode i) = .ok i := by
  cases i with
  | encBc1 fit wba | encBc2 fit wba | encBc3 fit wba => exact decode_encodeFields fit (.inl rfl)
  | encBc4 fit | encBc5 fit => exact decode_encodeFields fit (.inr rfl)
  | decBc1 | decBc2 | decBc3 | decBc4 | decBc5 => exact decode_decodeFields _

theorem encodeCommand_fields {fmt : Format} {wba : Bool} (fit : Fit) (h : fmt.hasColor = true ∨ wba = false) :
    (encodeCommand fmt fit wba).fields = encodeFields fmt fit wba := by
  cases fmt with
  | bc1 | bc2 | bc3 => rfl
  | bc4 | bc5 => rw [h.resolve_left (by decide)]; rfl

theorem decodeCommand_fields (fmt : Format) : (decodeCommand fmt).fields = decodeFields fmt := by
  cases fmt <;> rfl

/-- A word that decodes has the fields of its command: each check it passed fixes the fields the command leaves no choice for. -/
theorem fieldsOf_of_decode {w : Word} {i : Instr} (h : decode w = .ok i) : fieldsOf w = i.fields := by
  unfold decode at h
  generalize fieldsOf w = f at h ⊢
  obtain ⟨dir, c, fit, wba, rsvd⟩ := f
  cases hfmt : Format.ofCode c with
  | none => simp [hfmt] at h
  | some fmt =>
    have hc : c = fmt.code := code_of_ofCode hfmt
    simp only [hfmt] at h
    split_ifs at h with hrsvd hopt hwba hdir <;> cases h
    · rw [decodeCommand_fields]
      simp_all [decodeFields]
    · rw [encodeCommand_fields _ (by simpa [hdir, or_iff_not_imp_left] using hwba)]
      simp_all [encodeFields, bit_ofBit]

/-! ### The obligations -/

/-- Settles O16: every command's word decodes to it, and a word that decodes to a command has its fields, which give back the word. -/
theorem decodeAndEncodeAgree : Obligations.DecodeAndEncodeAgree := by
  unfold Obligations.DecodeAndEncodeAgree
  refine fun w i => ⟨fun h => ?_, fun h => h ▸ decode_encode i⟩
  rw [encode, ← fieldsOf_of_decode h, word_fieldsOf]

theorem commandCheck_eq_none_iff (w : Word) : commandCheck w = .none ↔ ∃ i, decode w = .ok i := by
  cases hd : decode w with
  | ok i => simp [commandCheck_of_ok hd]
  | error e => rcases decode_error hd with rfl | rfl <;> simp [commandCheck_of_error hd]

theorem mem_all (i : Instr) : i ∈ Instr.all := by
  cases i with
  | encBc1 fit wba | encBc2 fit wba | encBc3 fit wba => cases fit <;> cases wba <;> decide
  | encBc4 fit | encBc5 fit => cases fit <;> decide
  | decBc1 | decBc2 | decBc3 | decBc4 | decBc5 => decide

theorem encode_injective : Function.Injective encode := fun i j h =>
  Except.ok.inj ((decode_encode i).symm.trans (h ▸ decode_encode j))

/-- Settles O17: the legal words are those that pass the check, which is read by the bits; their commands are listed without
repetition, and no two commands share a word. -/
theorem legalWordsAreTheTwentyOne : Obligations.LegalWordsAreTheTwentyOne := by
  unfold Obligations.LegalWordsAreTheTwentyOne
  refine ⟨fun w => ?_, fun i => ⟨Instr.wf_all i, mem_all i⟩, List.Nodup.map encode_injective (by decide), rfl⟩
  rw [← commandCheck_eq_none_iff, validityCheckOrder.1 w]
  split_ifs <;> simp only [false_iff, true_iff] <;> omega

/-- Settles O15: each of the words is the word of its command. -/
theorem opcodeMapWordsDecode : Obligations.OpcodeMapWordsDecode := by
  unfold Obligations.OpcodeMapWordsDecode
  exact ⟨decode_encode (.encBc1 .range false), decode_encode (.encBc2 .cluster false), decode_encode (.encBc3 .range true),
    decode_encode (.encBc1 .cluster true), decode_encode (.encBc4 .range), decode_encode (.encBc5 .cluster),
    decode_encode .decBc1, decode_encode .decBc2, decode_encode .decBc3, decode_encode .decBc4, decode_encode .decBc5⟩

end Sys2Proof.Machine
end

section
/-! When a command completes (rules R27, R136, R179): exactly when every byte it reads has a value. With that, what a command
writes is a function of its inputs (rules R149, R201). -/

namespace Sys2Proof.Machine

/-! ### Completing and faulting (rules R136, R179) -/

theorem withPix_of_not_ready {s : State} (h : ¬ PixReady s) (k : List Texel → Host.Outcome State Fault Refusal) :
    withPix s k = .fault .uninit := by
  have hnone : readPix s.mem = none := by simpa [← readPix_isSome_iff, Option.eq_none_iff_forall_ne_some] using h
  rw [withPix, hnone]

theorem withBlk_of_not_ready {n : Nat} {s : State} (h : ¬ BlkReady n s)
    (k : List Byte → Host.Outcome State Fault Refusal) : withBlk n s k = .fault .uninit := by
  have hnone : readBlk s.mem n = none := by simpa [← readBlk_isSome_iff, Option.eq_none_iff_forall_ne_some] using h
  rw [withBlk, hnone]

/-- An encode reads `PIX`. -/
theorem commandReady_encode {i : Instr} (hi : i.isDecode = false) (s : State) : CommandReady i s ↔ PixReady s := by
  cases i with
  | encBc1 | encBc2 | encBc3 | encBc4 | encBc5 => exact Iff.rfl
  | decBc1 | decBc2 | decBc3 | decBc4 | decBc5 => cases hi

/-- A decode reads the bytes of its block. -/
theorem commandReady_decode {i : Instr} (hi : i.isDecode = true) (s : State) :
    CommandReady i s ↔ BlkReady i.format.blockBytes s := by
  cases i with
  | encBc1 | encBc2 | encBc3 | encBc4 | encBc5 => cases hi
  | decBc1 | decBc2 | decBc3 | decBc4 | decBc5 => exact Iff.rfl

/-- A command that reads a byte with no value faults. -/
theorem exec_of_not_ready {i : Instr} {s : State} (h : ¬ CommandReady i s) : exec i s = .fault .uninit := by
  cases i with
  | encBc1 | encBc2 | encBc3 | encBc4 | encBc5 => exact withPix_of_not_ready h _
  | decBc1 | decBc2 | decBc3 | decBc4 | decBc5 => exact withBlk_of_not_ready h _

/-- A command whose inputs have values completes. -/
theorem exec_of_ready {i : Instr} {s : State} (h : CommandReady i s) : ∃ t, exec i s = .next t := by
  cases hi : i.isDecode with
  | false =>
    obtain ⟨f, -, hf⟩ := exec_encode_form i hi
    obtain ⟨tx, htx⟩ := PixReady.readPix ((commandReady_encode hi s).1 h)
    exact ⟨_, hf s tx htx⟩
  | true =>
    obtain ⟨f, -, hf⟩ := exec_decode_form i hi
    obtain ⟨bs, hbs⟩ := BlkReady.readBlk ((commandReady_decode hi s).1 h)
    exact ⟨_, hf s bs hbs⟩

theorem ready_of_exec_next {i : Instr} {s t : State} (h : exec i s = .next t) : CommandReady i s := by
  by_contra hr
  simp [exec_of_not_ready hr] at h

theorem exec_eq_uninit_iff (i : Instr) (s : State) : exec i s = .fault .uninit ↔ ¬ CommandReady i s := by
  refine ⟨fun h hr => ?_, exec_of_not_ready⟩
  obtain ⟨t, ht⟩ := exec_of_ready hr
  simp [ht] at h

/-! ### A command as a function of its inputs (rule R201) -/

/-- The texels of a decode that completes are a function of the block's bytes. -/
theorem exec_decode_next {i : Instr} (hi : i.isDecode = true) : ∃ f : List Byte → List Texel, (∀ bs, (f bs).length = 16) ∧
    (∀ s t, exec i s = .next t → ∃ bs, readBlk s.mem i.format.blockBytes = some bs ∧ t = completeDecode (pixBytes (f bs)) s) ∧
    ∀ s bs, readBlk s.mem i.format.blockBytes = some bs → exec i s = .next (completeDecode (pixBytes (f bs)) s) := by
  obtain ⟨f, hlen, hf⟩ := exec_decode_form i hi
  refine ⟨f, hlen, fun s t h => ?_, hf⟩
  obtain ⟨bs, hbs⟩ := BlkReady.readBlk ((commandReady_decode hi s).1 (ready_of_exec_next h))
  exact ⟨bs, hbs, Host.Outcome.next.inj (h.symm.trans (hf s bs hbs))⟩

/-- A completed decode gives every byte of `PIX` a value of its own, whatever was in the buffers. -/
theorem completeDecode_read_pix {bs : List Byte} (h : bs.length = 64) (s : State) {a : Nat} (ha : 0x40 ≤ a) (ha' : a < 0x80) :
    (completeDecode bs s).mem.read a = bs[a - 0x40]? :=
  Memory.read_writeBytes_inside s.mem ha (by simp only [pixBase]; omega)

/-- Settles O23: the block and the error of an encode are one function of the mask and the texels, the texels of a decode are one
function of the block's bytes, and equal inputs read equal. -/
theorem resultsDependOnTheInputsAlone : Obligations.ResultsDependOnTheInputsAlone := by
  unfold Obligations.ResultsDependOnTheInputsAlone
  constructor
  · intro i s s' t hi h hmask hmem
    obtain ⟨f, hlen, hf⟩ := exec_encode_form i hi
    obtain ⟨tx, htx⟩ := PixReady.readPix ((commandReady_encode hi s).1 (ready_of_exec_next h))
    obtain rfl := Host.Outcome.next.inj (h.symm.trans (hf s tx htx))
    refine ⟨_, hf s' tx ((readPix_congr hmem).trans htx), by simp [hmask], fun k hk => ?_⟩
    rw [completeEncode_read (by simpa [hlen] using hk), completeEncode_read (by simpa [hlen] using hk), hmask]
  · intro i s s' t hi h hmem
    obtain ⟨f, hlen, hnext, hf⟩ := exec_decode_next hi
    obtain ⟨bs, hbs, rfl⟩ := hnext s t h
    refine ⟨_, hf s' bs ((readBlk_congr hmem).trans hbs), fun a ha ha' => ?_⟩
    rw [completeDecode_read_pix (pixBytes_length (hlen bs)) s' ha ha', completeDecode_read_pix (pixBytes_length (hlen bs)) s ha ha']

/-- Settles O34: a decode leaves its block bytes as they are, so that the second run reads what the first one read and writes the
same texels. -/
theorem decodeTwiceWritesTheSamePixels : Obligations.DecodeTwiceWritesTheSamePixels := by
  unfold Obligations.DecodeTwiceWritesTheSamePixels
  intro i hi s t h
  obtain ⟨f, hlen, hnext, hf⟩ := exec_decode_next hi
  obtain ⟨bs, hbs, rfl⟩ := hnext s t h
  have hpix := pixBytes_length (hlen bs)
  obtain ⟨-, -, hframe⟩ := completeDecode_frame (s := s) hpix
  have hbs' := (readBlk_congr (n := i.format.blockBytes) fun k _ => hframe (0x80 + k) (.inr (Nat.le_add_right _ _))).trans hbs
  refine ⟨_, hf _ bs hbs', fun a => ?_⟩
  obtain ⟨-, -, hframe'⟩ := completeDecode_frame (s := completeDecode (pixBytes (f bs)) s) hpix
  by_cases ha : a < 0x40 ∨ 0x80 ≤ a
  · exact hframe' a ha
  · rw [completeDecode_read_pix hpix _ (by omega) (by omega), completeDecode_read_pix hpix s (by omega) (by omega)]

end Sys2Proof.Machine
end

section
/-! The register window as the host sees it: the word of `STATUS`, the bits of `MASK`, the buffer words, bus errors, and what a
read answers (rules R15 to R25, R40 to R50, R178, R179). -/

namespace Sys2Proof.Machine

/-! ### Bits and fields of a word, by its number -/

theorem getLsbD_eq_of_toNat {w : Word} {k : Nat} {b : Bool} (h : w.toNat / 2 ^ k % 2 = b.toNat) : w.getLsbD k = b :=
  bool_eq_of_toNat_eq ((toNat_getLsbD w k).trans h)

theorem extractLsb'_eq_of_toNat {w : Word} {lo n : Nat} {x : BitVec n} (h : w.toNat / 2 ^ lo % 2 ^ n = x.toNat) :
    w.extractLsb' lo n = x :=
  BitVec.eq_of_toNat_eq (by rw [BitVec.extractLsb'_toNat, Nat.shiftRight_eq_div_pow, h])

/-- The number of the word of `STATUS` (rule R17). -/
theorem Status.word_toNat (st : Status) :
    st.word.toNat = st.busy.toNat + 2 * st.done.toNat + 16 * st.err.code.toNat + 256 * st.werr.toNat := by
  have hbusy := st.busy.toNat_lt
  have hdone := st.done.toNat_lt
  have herr := st.err.code.isLt
  have hwerr := st.werr.toNat_lt
  rw [Status.word, BitVec.toNat_ofNat]
  omega

/-- Settles O4: the fields stand at their places in the number of the word, and the register ignores writes. -/
theorem statusWordHasItsFourFields : Obligations.StatusWordHasItsFourFields := by
  unfold Obligations.StatusWordHasItsFourFields
  refine ⟨fun st => ?_, Status.reset_word, fun s v => memWrite_of_slotAt (sl := .status) rfl v s⟩
  have hw := st.word_toNat
  have hbusy := st.busy.toNat_lt
  have hdone := st.done.toNat_lt
  have herr := st.err.code.isLt
  have hwerr := st.werr.toNat_lt
  refine ⟨getLsbD_eq_of_toNat ?_, getLsbD_eq_of_toNat ?_, extractLsb'_eq_of_toNat ?_, extractLsb'_eq_of_toNat ?_,
    getLsbD_eq_of_toNat ?_, getLsbD_eq_of_toNat ?_, extractLsb'_eq_of_toNat ?_⟩ <;>
    simp only [hw, BitVec.toNat_zero, Bool.toNat_false, BitVec.ofNat_eq_ofNat] <;> omega

/-! ### `MASK` (rules R24, R52) -/

/-- A decode does not look at `MASK`. -/
theorem exec_decode_mask {i : Instr} (hi : i.isDecode = true) {s t : State} (h : exec i s = .next t) (m : BitVec 16) :
    exec i { s with texelMask := m } = .next { t with texelMask := m } := by
  obtain ⟨f, -, hnext, hf⟩ := exec_decode_next hi
  obtain ⟨bs, hbs, rfl⟩ := hnext s t h
  exact hf { s with texelMask := m } bs hbs

/-- Keeping the low half of a word is cutting off the high one. -/
theorem setWidth_setWidth_16 (v : Word) : (v.setWidth 16).setWidth 32 = v &&& 0x0000FFFF := by
  refine BitVec.eq_of_toNat_eq ?_
  have hcut : v.toNat % 2 ^ 16 < 2 ^ 32 := by omega
  rw [BitVec.toNat_setWidth, BitVec.toNat_setWidth, Nat.mod_eq_of_lt hcut]
  exact (Nat.and_two_pow_sub_one_eq_mod v.toNat 16).symm

/-- Settles O10: the low half of the word written is stored and is what a read extends by zeros. -/
theorem maskKeepsSixteenBitsAndDecodeIgnoresIt : Obligations.MaskKeepsSixteenBitsAndDecodeIgnoresIt := by
  unfold Obligations.MaskKeepsSixteenBitsAndDecodeIgnoresIt
  refine ⟨rfl, fun s v hb => ?_, fun i hi s t m h => exec_decode_mask hi h m⟩
  refine ⟨{ s with texelMask := v.setWidth 16 }, ?_, rfl, fun i hi => ?_, ?_⟩
  · rw [memWrite_of_slotAt (sl := .mask) rfl, slotWrite, unlessBusy_of_idle hb]
  · simp [maskBit, hi]
  · exact congrArg (fun w => Except.ok (w, _)) (setWidth_setWidth_16 v)

/-! ### The words of the buffers (rules R22, R23, R45 to R47) -/

/-- At the offsets of the buffers a read is a read of the buffer. -/
theorem memRead_buffer {a : Nat} (h4 : a % 4 = 0) (h : 0x40 ≤ a) (h' : a < 0x90) (s : State) :
    memRead a 4 s = bufferRead a s := by
  obtain ⟨sl, hsl⟩ := Option.isSome_iff_exists.1 (slotAt_isSome.2 ⟨h4, .inr ⟨h, h'⟩⟩)
  cases sl with
  | pix i | blkw i => simp only [memRead, slotFor, if_true, hsl, slotRead]
  | cmd | status | mask | errMetric =>
    unfold slotAt at hsl
    repeat' split at hsl
    all_goals cases hsl
    all_goals omega

/-- Settles O11: the word is written where `slotFor_word` says, and reading the four bytes back gives it again. -/
theorem bufferWordIsStoredLittleEndian : Obligations.BufferWordIsStoredLittleEndian := by
  unfold Obligations.BufferWordIsStoredLittleEndian
  intro s a v hb h4 ha ha'
  obtain ⟨sl, hsl, hwrite⟩ := slotFor_word h4 ha ha'
  have hread := memRead_word (s := { s with mem := s.mem.writeWord a v }) h4 ha ha' hb (Memory.readWord_writeWord _ _ _)
  refine ⟨_, ?_, hread, rfl, fun j hj => read_writeWord_inside s.mem a v hj, fun x hx => read_writeWord_outside s.mem a v hx, ?_⟩
  · simp only [memWrite, hsl, hwrite v s hb]
  · rintro i rfl -
    exact readTexel_writeWord s.mem i v

/-! ### Bus errors (rules R43, R44, R178) -/

/-- An access of another width or at an offset of no register reaches none. -/
theorem slotFor_of_bad {a n : Nat} (h : n ≠ 4 ∨ a % 4 ≠ 0 ∨ (0x10 ≤ a ∧ a < 0x40) ∨ 0x90 ≤ a) : slotFor a n = none := by
  unfold slotFor
  split
  · refine Option.not_isSome_iff_eq_none.1 fun hs => ?_
    have := slotAt_isSome.1 hs
    omega
  · rfl

/-- The step of a host whose write faults. -/
theorem step_host_write_fault {s : State} {a n : Nat} {v : Word} {f : Fault} {rest : List HostOp} (h : nextTurn s = .host)
    (hp : s.pending = .write a n v :: rest) (hm : memWrite a n v { useTurn s with pending := rest } = .error f) :
    step s = .fault f := by
  simp only [step, h, move, hostMove, useTurn_pending, hp, hm]

/-- Settles O12: such an access reaches no register, in any state, and the faults are what the host's step passes on. -/
theorem badAccessIsABusError : Obligations.BadAccessIsABusError := by
  unfold Obligations.BadAccessIsABusError
  refine ⟨fun s a n v h => ?_, fun s a v h4 h => ?_⟩
  · have hread : ∀ s, memRead a n s = .error (.busError a n) := fun s => by rw [memRead, slotFor_of_bad h]
    have hwrite : ∀ s, memWrite a n v s = .error (.busError a n) := fun s => by rw [memWrite, slotFor_of_bad h]
    exact ⟨hread s, hwrite s, fun x rest hturn hp => step_host_read_fault hturn hp (hread _),
      fun rest hturn hp => step_host_write_fault hturn hp (hwrite _)⟩
  · obtain ⟨sl, hsl⟩ := Option.isSome_iff_exists.1 (slotAt_isSome.2 ⟨h4, h⟩)
    exact ⟨_, memWrite_of_slotAt hsl v s⟩

/-! ### Reads (rules R27, R41, R49, R50, R179) -/

theorem bufferRead_of_busy {s : State} (hb : s.status.busy = true) (a : Nat) : bufferRead a s = drawRead s := if_pos hb

/-- An idle read of a buffer word faults exactly when a byte of it has no value. -/
theorem bufferRead_eq_uninit_iff {s : State} (hb : s.status.busy = false) (a : Nat) :
    bufferRead a s = .error .uninit ↔ ∃ j, j < 4 ∧ s.mem.read (a + j) = none := by
  rw [← Memory.readWord_eq_none, bufferRead, if_neg (by simp [hb])]
  cases s.mem.readWord a <;> simp

/-- What a read answers does not depend on the host or the scheduler, nor does its fault. -/
theorem memRead_error_host {s : State} {a n : Nat} {f : Fault} (h : memRead a n s = .error f) (rest : List HostOp) :
    memRead a n { useTurn s with pending := rest } = .error f := by
  have := memRead_host s a n rest (s.sched.drop 1)
  rw [h] at this
  exact this

/-- On the core's turn a busy core performs its latched word. -/
theorem step_core_of_busy {s : State} {w : Word} (hturn : nextTurn s = .core) (hb : s.status.busy = true)
    (hw : s.lcmd = some w) : step s = perform w (useTurn s) := by
  simp only [step, hturn, move, coreMove, useTurn_status, hb, if_true, useTurn_lcmd, hw]

/-- A legal word runs its command. -/
theorem perform_of_ok {w : Word} {i : Instr} (h : decode w = .ok i) (s : State) : perform w s = exec i s := by
  rw [perform, h]

/-- Using up a turn touches no byte. -/
theorem commandReady_useTurn (i : Instr) (s : State) : CommandReady i (useTurn s) ↔ CommandReady i s := by
  cases i with
  | encBc1 | encBc2 | encBc3 | encBc4 | encBc5 | decBc1 | decBc2 | decBc3 | decBc4 | decBc5 => exact Iff.rfl

/-- Settles O13: the host's read faults when its word has no value, a command when it is not ready, and the step of either passes
the fault on. -/
theorem readingNoValueIsUninit : Obligations.ReadingNoValueIsUninit := by
  unfold Obligations.ReadingNoValueIsUninit
  refine ⟨fun s a hb h4 ha ha' => ?_, exec_eq_uninit_iff, fun s a n x rest hturn hp h => ?_,
    fun s w i hturn hb hw hd hr => ?_⟩
  · rw [memRead_buffer h4 ha ha', bufferRead_eq_uninit_iff hb]
  · exact step_host_read_fault hturn hp (memRead_error_host h rest)
  · rw [step_core_of_busy hturn hb hw, perform_of_ok hd, exec_of_not_ready (by rwa [commandReady_useTurn])]

/-- While busy a read of `ERRMETRIC` or of a buffer word draws a free value. -/
theorem memRead_of_busy {s : State} {a : Nat} (hb : s.status.busy = true) (h4 : a % 4 = 0)
    (h : a = 0x0C ∨ (0x40 ≤ a ∧ a < 0x90)) : memRead a 4 s = drawRead s := by
  rcases h with rfl | ⟨ha, ha'⟩
  · exact if_pos hb
  · rw [memRead_buffer h4 ha ha', bufferRead_of_busy hb]

/-- The word of four bytes that have a value. -/
theorem readWord_of_reads {m : Memory} {a : Nat} {b0 b1 b2 b3 : Byte} (h0 : m.read a = some b0) (h1 : m.read (a + 1) = some b1)
    (h2 : m.read (a + 2) = some b2) (h3 : m.read (a + 3) = some b3) : m.readWord a =
      some (BitVec.ofNat 32 (b0.toNat + 256 * b1.toNat + 65536 * b2.toNat + 16777216 * b3.toNat)) := by
  rw [readWord_of_bytes (bs := [b0, b1, b2, b3]) rfl fun b hb => ?_]
  · congr 2
    simp only [leNat]
    omega
  · match b, hb with
    | 0, _ => exact h0
    | 1, _ => exact h1
    | 2, _ => exact h2
    | 3, _ => exact h3

/-- Settles O14: a read that succeeds changes at most the draw count, and that while busy alone; the control registers are read as
they stand, and a buffer word by its bytes. -/
theorem readsHaveNoSideEffectAndAreExactWhenIdle : Obligations.ReadsHaveNoSideEffectAndAreExactWhenIdle := by
  unfold Obligations.ReadsHaveNoSideEffectAndAreExactWhenIdle
  refine ⟨fun a n s v t h => ?_, fun s => ⟨rfl, rfl, rfl⟩, fun s a hb h4 ha => ⟨_, memRead_of_busy hb h4 ha⟩,
    fun s hb => if_neg (by simp [hb]), fun s a b0 b1 b2 b3 hb h4 ha ha' h0 h1 h2 h3 => ?_⟩
  · rcases memRead_ok h with rfl | ⟨hb, rfl⟩
    · exact ⟨rfl, fun _ => ⟨rfl, h⟩⟩
    · exact ⟨rfl, fun hidle => absurd hb (by simp [hidle])⟩
  · exact memRead_word h4 ha ha' hb (readWord_of_reads h0 h1 h2 h3)

end Sys2Proof.Machine
end

section
/-! The turns (rules R26, R53, R75, R135, R196): what the core does on its turn and what the host does on its own; then that an
accepted command completes within the scheduler's choices. -/

namespace Sys2Proof.Machine

/-! ### The core's turn (rules R26, R135, R185) -/

/-- Settles O19: the core's move performs the latched word of a busy core, and an idle core has no move. -/
theorem coreTurnRunsTheLatchedCommand : Obligations.CoreTurnRunsTheLatchedCommand := by
  unfold Obligations.CoreTurnRunsTheLatchedCommand
  refine ⟨fun s w i hturn hb hw hd => ?_, fun s w e hturn hb hw hd => ?_, fun s hturn hb => ?_, fun s => rfl⟩
  · rw [step_core_of_busy hturn hb hw, perform_of_ok hd]
  · rw [step_core_of_busy hturn hb hw, perform_of_error hd]
  · simp only [step, hturn, move, coreMove, useTurn_status, hb, Bool.false_eq_true, if_false]

/-! ### The host's turn (rules R53, R75) -/

/-- A read leaves the record of the host's reads as it was. -/
theorem memRead_observed {a n : Nat} {v : Word} {s t : State} (h : memRead a n s = .ok (v, t)) : t.observed = s.observed := by
  rcases memRead_ok h with rfl | ⟨-, rfl⟩ <;> rfl

/-- Recording a read sets its variable and no other. -/
theorem hostVar_observe {s t : State} (h : t.observed = s.observed) (x : String) (a : Nat) (v : Word) :
    hostVar x (observe x a v t) = some v ∧ ∀ y, y ≠ x → hostVar y (observe x a v t) = hostVar y s :=
  ⟨hostVar_observe_same x a v t, fun y hy => (hostVar_observe_other hy a v t).trans (hostVar_congr h y)⟩

/-- The step of a host that polls: it stays at the poll while the core is busy. -/
theorem step_host_poll {s : State} {rest : List HostOp} (hturn : nextTurn s = .host) (hp : s.pending = .poll :: rest) :
    step s = .next (observe pollName 0x04 s.status.word
      { useTurn s with pending := if s.status.busy then .poll :: rest else rest }) := by
  have hbit : s.status.word.getLsbD 0 = s.status.busy := status_word_busy s.status
  simp only [step, hturn, move, hostMove, useTurn_pending, hp, useTurn_status, hbit]
  cases s.status.busy with
  | true => rw [if_pos rfl, if_pos rfl, ← hp]; rfl
  | false => rfl

/-- Settles O20: the step issues the access and records what it read under the name it gives. -/
theorem hostTurnIssuesTheNextAccess : Obligations.HostTurnIssuesTheNextAccess := by
  unfold Obligations.HostTurnIssuesTheNextAccess
  refine ⟨fun s a n v rest t hturn hp hm => step_host_write hturn hp hm, fun s a n x rest v t hturn hp hm => ?_,
    fun s rest hturn hp => ?_, fun s hturn hp => ?_⟩
  · have hstep := step_host_read hturn hp hm
    have hobs : t.observed = s.observed := (memRead_observed hm).trans rfl
    refine ⟨by rw [hstep, observe, hobs], fun u hu => ?_⟩
    obtain rfl := Host.Outcome.next.inj (hstep.symm.trans hu)
    exact hostVar_observe hobs x a v
  · have hstep := step_host_poll hturn hp
    refine ⟨hstep, fun u hu => ?_⟩
    obtain rfl := Host.Outcome.next.inj (hstep.symm.trans hu)
    exact hostVar_observe rfl pollName 0x04 s.status.word
  · simp only [step, hturn, move, hostMove, useTurn_pending, hp]

/-! ### An accepted command completes (rule R196) -/

/-- Performing a word whose command is ready completes with the code of the word's check. -/
theorem perform_completes {w : Word} {s : State} (hr : ∀ i, decode w = .ok i → CommandReady i s) :
    ∃ t, perform w s = .next t ∧ t.status = s.status.completed (commandCheck w) := by
  cases hd : decode w with
  | error e => exact ⟨raise e s, perform_of_error hd s, by rw [commandCheck_of_error hd]; rfl⟩
  | ok i =>
    obtain ⟨t, ht⟩ := exec_of_ready (hr i hd)
    refine ⟨t, (perform_of_ok hd s).trans ht, ?_⟩
    rw [commandCheck_of_ok hd]
    rcases exec_next ht with ⟨bs, e, -, rfl⟩ | ⟨bs, -, rfl⟩ <;> rfl

/-- Being ready is a matter of the buffers alone. -/
theorem commandReady_congr {s t : State} (h : t.mem = s.mem) (i : Instr) : CommandReady i t ↔ CommandReady i s := by
  cases i with
  | encBc1 | encBc2 | encBc3 | encBc4 | encBc5 => simp only [CommandReady, PixReady, h]
  | decBc1 | decBc2 | decBc3 | decBc4 | decBc5 => simp only [CommandReady, BlkReady, h]

/-- A core in the middle of a command that can be completed: the host has nothing to do but to poll. -/
structure Completing (w : Word) (s : State) : Prop where
  busy : s.status.busy = true
  latched : s.lcmd = some w
  ready : ∀ i, decode w = .ok i → CommandReady i s
  polls : s.pending = [] ∨ s.pending.head? = some .poll

/-- The host's turn leaves such a core as it is. -/
theorem Completing.step_host {w : Word} {s : State} (h : Completing w s) (hturn : nextTurn s = .host) :
    ∃ t, step s = .next t ∧ Completing w t ∧ t.sched = s.sched.drop 1 := by
  rcases h.polls with hp | hp
  · exact ⟨useTurn s, hostTurnIssuesTheNextAccess.2.2.2 s hturn hp,
      ⟨h.busy, h.latched, fun i hd => (commandReady_congr rfl i).2 (h.ready i hd), .inl hp⟩, rfl⟩
  · obtain ⟨rest, hrest⟩ : ∃ rest, s.pending = .poll :: rest := List.head?_eq_some_iff.1 hp
    refine ⟨_, step_host_poll hturn hrest,
      ⟨h.busy, h.latched, fun i hd => (commandReady_congr rfl i).2 (h.ready i hd), .inr ?_⟩, rfl⟩
    simp [h.busy]

/-- The core's turn completes it. -/
theorem Completing.step_core {w : Word} {s : State} (h : Completing w s) (hturn : nextTurn s = .core) :
    ∃ t, step s = .next t ∧ t.status = s.status.completed (commandCheck w) := by
  rw [step_core_of_busy hturn h.busy h.latched]
  exact perform_completes (s := useTurn s) fun i hd => (commandReady_congr rfl i).2 (h.ready i hd)

theorem runSteps_succ {s t : State} (h : step s = .next t) (n : Nat) : runSteps (n + 1) s = runSteps n t := by
  rw [runSteps, h]

/-- On the core's turn one step is enough. -/
theorem Completing.completes_of_core {w : Word} {s : State} (h : Completing w s) (hturn : nextTurn s = .core) (n : Nat) :
    ∃ k t, k ≤ n + 1 ∧ runSteps k s = some t ∧ t.status.busy = false ∧ t.status.done = true ∧
      t.status.err = commandCheck w := by
  obtain ⟨t, hstep, hst⟩ := h.step_core hturn
  exact ⟨1, t, by omega, runSteps_succ hstep 0, by simp [hst], by simp [hst], by simp [hst]⟩

/-- The choices still to be used bound the steps to the completion. -/
theorem Completing.completes {w : Word} {sched : List Turn} (hreset : Turn.reset ∉ sched) {s : State} (hs : s.sched = sched)
    (h : Completing w s) : ∃ k t, k ≤ sched.length + 1 ∧ runSteps k s = some t ∧ t.status.busy = false ∧
      t.status.done = true ∧ t.status.err = commandCheck w := by
  induction sched generalizing s with
  | nil => exact h.completes_of_core (by simp [nextTurn, hs, h.busy]) 0
  | cons turn sched ih =>
    have hturn : nextTurn s = turn := by rw [nextTurn, hs]
    cases turn with
    | core => exact h.completes_of_core hturn _
    | reset => simp at hreset
    | host =>
      obtain ⟨u, hstep, hu, hsched⟩ := h.step_host hturn
      obtain ⟨k, t, hk, hrun, hdone⟩ := ih (by simpa using hreset) (hsched.trans (by rw [hs]; rfl)) hu
      exact ⟨k + 1, t, by simpa using hk, (runSteps_succ hstep k).trans hrun, hdone⟩

/-- Settles O22: by induction on the choices still to be used; each of the host's turns uses one up, and the core's turn, which comes
at the latest after the last of them, completes the command. -/
theorem acceptedCommandCompletes : Obligations.AcceptedCommandCompletes := by
  unfold Obligations.AcceptedCommandCompletes
  exact fun s w hb hw hr hp hreset => Completing.completes hreset rfl ⟨hb, hw, hr, hp⟩

end Sys2Proof.Machine
end

section
/-! The evaluation of a candidate (rules R118 to R120, R130): what a color block and a channel block hold for given endpoints, said
once, and that every stored block is such a block. -/

namespace Sys2Proof.Machine

/-! ### Squared distances (rule R10) -/

theorem sqDiff_cast (x y : Nat) : (sqDiff x y : Int) = ((x : Int) - y) ^ 2 := by
  rcases Nat.le_total x y with h | h <;>
    obtain ⟨k, rfl⟩ := Nat.exists_eq_add_of_le h <;> simp [sqDiff] <;> ring

theorem sqDist_cast (x y : Vec3 Nat) :
    (sqDist x y : Int) = ((x.r : Int) - y.r) ^ 2 + ((x.g : Int) - y.g) ^ 2 + ((x.b : Int) - y.b) ^ 2 := by
  simp only [sqDist, Nat.cast_add, sqDiff_cast]

/-! ### Color blocks (rules R119, R120) -/

@[simp] theorem samplesOf_length (p : Params) (fmt : Format) (wba : Bool) (mask : BitVec 16) (tx : List Texel) :
    (samplesOf p fmt wba mask tx).length = tx.length := List.length_mapIdx

theorem samplesOf_getElem? {tx : List Texel} {i : Nat} {t : Texel} (h : tx[i]? = some t) (p : Params) (fmt : Format)
    (wba : Bool) (mask : BitVec 16) : (samplesOf p fmt wba mask tx)[i]? = some (sampleOf p fmt wba mask i t) := by
  rw [samplesOf, List.getElem?_mapIdx, h, Option.map_some]

/-- The stored endpoints are in the order the mode needs (rule R119). -/
theorem storageOrder_le (three : Bool) (qa qb : Nat) :
    (three = true → (storageOrder three qa qb).1 ≤ (storageOrder three qa qb).2) ∧
    (three = false → (storageOrder three qa qb).2 ≤ (storageOrder three qa qb).1) := by
  cases three <;> simp [storageOrder]

/-- A block is what the evaluator gives for two 16-bit endpoints in storage order. -/
def IsColorEvaluation (fmt : Format) (sm : List Sample) (e : ColorBlock) : Prop :=
  ∃ qa qb, qa < 65536 ∧ qb < 65536 ∧
    e = colorBlockOf fmt sm (storageOrder (threeColor sm) qa qb).1 (storageOrder (threeColor sm) qa qb).2

theorem evaluate_isColorEvaluation (fmt : Format) (sm : List Sample) (c : Candidate) :
    IsColorEvaluation fmt sm (evaluate fmt sm c).block :=
  ⟨quant565 c.a, quant565 c.b, quant565_lt _, quant565_lt _, rfl⟩

theorem encodeColor_isColorEvaluation (p : Params) (fmt : Format) (fit : Fit) (wba : Bool) (mask : BitVec 16)
    (tx : List Texel) : IsColorEvaluation fmt (samplesOf p fmt wba mask tx) (encodeColor p fmt fit wba mask tx) :=
  encodeColor_eval p fmt fit wba mask tx

/-- The palette of a color block, as the decoder rebuilds it (rule R116). -/
def ColorBlock.palette (fmt : Format) (e : ColorBlock) : List Entry :=
  colorPalette (fourColorMode fmt e.c0 e.c1) e.c0 e.c1

/-- What a color block's endpoints, indices and error are. -/
theorem IsColorEvaluation.spec {fmt : Format} {sm : List Sample} {e : ColorBlock} (h : IsColorEvaluation fmt sm e) :
    (e.c0 < 65536 ∧ e.c1 < 65536) ∧ (threeColor sm = true → e.c0 ≤ e.c1) ∧ (threeColor sm = false → e.c1 ≤ e.c0) ∧
    e.idx = sm.map (sampleIndex (e.palette fmt) (fourColorMode fmt e.c0 e.c1)) ∧
    e.err = (List.zipWith (sampleError (e.palette fmt)) sm e.idx).sum := by
  obtain ⟨qa, qb, ha, hb, rfl⟩ := h
  obtain ⟨hthree, hfour⟩ := storageOrder_le (threeColor sm) qa qb
  refine ⟨storageOrder_lt ha hb, hthree, hfour, rfl, ?_⟩
  simp only [colorBlockOf, List.zipWith_map_right, List.zipWith_self, ColorBlock.palette]

/-- The index of a texel that is not punch-through is the least one of a nearest entry of the mode (rule R118). -/
theorem sampleIndex_nearest {t : Sample} (ht : t.punch = false) (P : List Entry) (four : Bool) :
    sampleIndex P four t < (if four then 4 else 3) ∧
    (∀ j, j < (if four then 4 else 3) →
      sqDist t.rgb (colorAt P (sampleIndex P four t)).rgb ≤ sqDist t.rgb (colorAt P j).rgb) ∧
    ∀ j, j < sampleIndex P four t →
      sqDist t.rgb (colorAt P (sampleIndex P four t)).rgb < sqDist t.rgb (colorAt P j).rgb := by
  have hn : 0 < if four then 4 else 3 := by cases four <;> decide
  simp only [sampleIndex, ht, Bool.false_eq_true, if_false]
  exact ⟨nearestIndex_lt _ hn, fun j hj => nearestIndex_le (fun k => sqDist t.rgb (colorAt P k).rgb) hj,
    fun j hj => nearestIndex_first (fun k => sqDist t.rgb (colorAt P k).rgb) hj⟩

theorem sampleIndex_of_punch {t : Sample} (ht : t.punch = true) (P : List Entry) (four : Bool) :
    sampleIndex P four t = 3 := if_pos ht

/-- Settles O53: a candidate's block and the stored one are evaluations, whose endpoints are in storage order and whose indices are
those of the samples. -/
theorem storedColorBlockIsItsOwnEvaluation : Obligations.StoredColorBlockIsItsOwnEvaluation := by
  unfold Obligations.StoredColorBlockIsItsOwnEvaluation
  refine ⟨sqDist_cast, fun p fmt wba mask tx => ⟨samplesOf_length p fmt wba mask tx, fun i t h =>
    samplesOf_getElem? h p fmt wba mask⟩, ?_⟩
  rintro fmt sm e P n he rfl rfl
  have heval : IsColorEvaluation fmt sm e := by
    rcases he with ⟨c, rfl⟩ | ⟨p, fit, wba, mask, tx, rfl, rfl⟩
    · exact evaluate_isColorEvaluation fmt sm c
    · exact encodeColor_isColorEvaluation p fmt fit wba mask tx
  obtain ⟨hlt, hthree, hfour, hidx, herr⟩ := heval.spec
  refine ⟨hlt, hthree, hfour, by rw [hidx, List.length_map], fun i t ht => ?_, herr⟩
  refine ⟨_, by rw [hidx, List.getElem?_map, ht, Option.map_some], fun hp => sampleIndex_of_punch hp _ _, fun hp => ?_⟩
  exact sampleIndex_nearest hp _ _

/-! ### Channel blocks (rules R129, R130) -/

@[simp] theorem channelSamples_length (ch : Texel → Byte) (mask : BitVec 16) (tx : List Texel) :
    (channelSamples ch mask tx).length = tx.length := List.length_mapIdx

theorem channelSamples_getElem? {tx : List Texel} {i : Nat} {t : Texel} (h : tx[i]? = some t) (ch : Texel → Byte)
    (mask : BitVec 16) : (channelSamples ch mask tx)[i]? = some { x := (ch t).toNat, excl := !maskBit mask i } := by
  rw [channelSamples, List.getElem?_mapIdx, h, Option.map_some]

/-- A block is what the evaluator gives for two 8-bit endpoints. -/
def IsChannelEvaluation (sm : List ChannelSample) (e : ChannelBlock) : Prop :=
  ∃ e0 e1, e0 ≤ 255 ∧ e1 ≤ 255 ∧ e = channelBlockOf sm e0 e1

/-- The palette of a channel block, as the decoder rebuilds it (rule R117). -/
def ChannelBlock.palette (e : ChannelBlock) : List Nat :=
  channelPalette e.e0 e.e1

/-- What a channel block's endpoints, indices and error are. -/
theorem IsChannelEvaluation.spec {sm : List ChannelSample} {e : ChannelBlock} (h : IsChannelEvaluation sm e) :
    (e.e0 ≤ 255 ∧ e.e1 ≤ 255) ∧ e.idx = sm.map (channelSampleIndex e.palette) ∧
    e.err = (List.zipWith (channelSampleError e.palette) sm e.idx).sum := by
  obtain ⟨e0, e1, h0, h1, rfl⟩ := h
  refine ⟨⟨h0, h1⟩, rfl, ?_⟩
  simp only [channelBlockOf, List.zipWith_map_right, List.zipWith_self, ChannelBlock.palette]

/-- The index of a texel is the least one of a nearest entry (rule R118). -/
theorem channelSampleIndex_nearest (V : List Nat) (t : ChannelSample) :
    channelSampleIndex V t < 8 ∧
    (∀ j, j < 8 → sqDiff t.x (channelAt V (channelSampleIndex V t)) ≤ sqDiff t.x (channelAt V j)) ∧
    ∀ j, j < channelSampleIndex V t → sqDiff t.x (channelAt V (channelSampleIndex V t)) < sqDiff t.x (channelAt V j) :=
  ⟨channelSampleIndex_lt V t, fun _ hj => nearestIndex_le (fun k => sqDiff t.x (channelAt V k)) hj,
    fun _ hj => nearestIndex_first (fun k => sqDiff t.x (channelAt V k)) hj⟩

/-- Settles O54: a candidate's block and the stored one are evaluations, whose indices are those of the samples. -/
theorem storedChannelBlockIsItsOwnEvaluation : Obligations.StoredChannelBlockIsItsOwnEvaluation := by
  unfold Obligations.StoredChannelBlockIsItsOwnEvaluation
  refine ⟨sqDiff_cast, fun ch mask tx => ⟨channelSamples_length ch mask tx, fun i t h => channelSamples_getElem? h ch mask⟩, ?_⟩
  rintro sm e V he rfl
  have heval : IsChannelEvaluation sm e := by
    rcases he with ⟨mode, c, rfl⟩ | ⟨ch, fit, mask, tx, rfl, rfl⟩
    · exact evaluateChannel_eval mode sm c
    · exact encodeChannel_eval ch fit mask tx
  obtain ⟨hle, hidx, herr⟩ := heval.spec
  refine ⟨hle, by rw [hidx, List.length_map], fun i t ht => ?_, herr⟩
  exact ⟨channelSampleIndex e.palette t, by rw [hidx, List.getElem?_map, ht, Option.map_some], channelSampleIndex_nearest _ t⟩

end Sys2Proof.Machine
end

section
/-! The encode commands `enc.bc1` to `enc.bc4`: what each computes from readable texels, and the obligations about them (rules R132,
R137 to R140). -/

namespace Sys2Proof.Machine

/-! ### What the commands compute -/

theorem exec_encBc1_of_readPix {s : State} {tx : List Texel} (h : readPix s.mem = some tx) (fit : Fit) (wba : Bool) :
    exec (.encBc1 fit wba) s = .next (completeEncode
      (encodeColor Config.thisHardware .bc1 fit wba s.texelMask tx).bytes
      (encodeColor Config.thisHardware .bc1 fit wba s.texelMask tx).err s) :=
  withPix_of_some h _

theorem exec_encBc2_of_readPix {s : State} {tx : List Texel} (h : readPix s.mem = some tx) (fit : Fit) (wba : Bool) :
    exec (.encBc2 fit wba) s = .next (completeEncode
      (alphaBytes (explicitAlpha tx) ++ (encodeColor Config.thisHardware .bc2 fit wba s.texelMask tx).bytes)
      (encodeColor Config.thisHardware .bc2 fit wba s.texelMask tx).err s) :=
  withPix_of_some h _

theorem exec_encBc3_of_readPix {s : State} {tx : List Texel} (h : readPix s.mem = some tx) (fit : Fit) (wba : Bool) :
    exec (.encBc3 fit wba) s = .next (completeEncode
      ((encodeChannel (·.a) fit s.texelMask tx).bytes ++ (encodeColor Config.thisHardware .bc3 fit wba s.texelMask tx).bytes)
      ((encodeChannel (·.a) fit s.texelMask tx).err + (encodeColor Config.thisHardware .bc3 fit wba s.texelMask tx).err) s) :=
  withPix_of_some h _

theorem exec_encBc4_of_readPix {s : State} {tx : List Texel} (h : readPix s.mem = some tx) (fit : Fit) :
    exec (.encBc4 fit) s = .next (completeEncode (encodeChannel (·.r) fit s.texelMask tx).bytes
      (encodeChannel (·.r) fit s.texelMask tx).err s) :=
  withPix_of_some h _

/-! ### The errors fit in `ERRMETRIC` (rule R25) -/

section Errors
variable {tx : List Texel} (h : tx.length = 16)
include h

theorem encodeColor_err_lt (p : Params) (fmt : Format) (fit : Fit) (wba : Bool) (mask : BitVec 16) :
    (encodeColor p fmt fit wba mask tx).err < 2 ^ 32 := by
  have := encodeColor_err_le p fmt fit wba mask h
  omega

theorem encodeChannel_err_lt (ch : Texel → Byte) (fit : Fit) (mask : BitVec 16) :
    (encodeChannel ch fit mask tx).err < 2 ^ 32 := by
  have := encodeChannel_err_le ch fit mask h
  omega

theorem encodeChannel_add_encodeColor_err_lt (ch : Texel → Byte) (p : Params) (fmt : Format) (fit : Fit) (wba : Bool)
    (mask : BitVec 16) : (encodeChannel ch fit mask tx).err + (encodeColor p fmt fit wba mask tx).err < 2 ^ 32 := by
  have := encodeChannel_err_le ch fit mask h
  have := encodeColor_err_le p fmt fit wba mask h
  omega

end Errors

/-! ### The explicit alpha (rules R68, R71, R132) -/

theorem leBytes_getElem? {n k : Nat} (hk : k < n) (v : Nat) : (leBytes n v)[k]? = some (BitVec.ofNat 8 (v / 256 ^ k)) := by
  induction n generalizing k v with
  | zero => omega
  | succ n ih =>
    cases k with
    | zero => simp [leBytes]
    | succ k => rw [leBytes, List.getElem?_cons_succ, ih (by omega), Nat.div_div_eq_div_mul, Nat.pow_succ']

/-- Byte `k` holds two digits of four bits. -/
theorem alphaBytes_getElem? {ds : List Nat} (hlen : ds.length = 16) (hds : ∀ d ∈ ds, d < 16) {k : Nat} (hk : k < 8) :
    (alphaBytes ds)[k]? = some (BitVec.ofNat 8 (ds.getD (2 * k) 0 + 16 * ds.getD (2 * k + 1) 0)) := by
  have hlo := packDigits_digit hds (i := 2 * k) (by omega)
  have hhi := packDigits_digit hds (i := 2 * k + 1) (by omega)
  rw [pow_succ, ← Nat.div_div_eq_div_mul] at hhi
  rw [alphaBytes, leBytes_getElem? hk, List.getD_eq_getElem _ _ (by omega), List.getD_eq_getElem _ _ (by omega), ← hlo, ← hhi,
    show (256 : Nat) ^ k = 16 ^ (2 * k) by norm_num [pow_mul]]
  congr 1
  apply BitVec.eq_of_toNat_eq
  rw [BitVec.toNat_ofNat, BitVec.toNat_ofNat]
  omega

@[simp] theorem explicitAlpha_length (tx : List Texel) : (explicitAlpha tx).length = tx.length := List.length_map _

theorem explicitAlpha_lt {tx : List Texel} : ∀ d ∈ explicitAlpha tx, d < 16 := by
  intro d hd
  obtain ⟨t, -, rfl⟩ := List.mem_map.1 hd
  have := t.a.isLt
  omega

theorem explicitAlpha_getD (tx : List Texel) (i : Nat) : (explicitAlpha tx).getD i 0 = (texelAt tx i).a.toNat / 16 := by
  simp only [explicitAlpha, texelAt, List.getD_eq_getElem?_getD, List.getElem?_map]
  cases tx[i]? <;> rfl

/-! ### The obligations -/

/-- Settles O24: the color sub-block is the whole block. -/
theorem encBc1StoresTheChosenColorBlock : Obligations.EncBc1StoresTheChosenColorBlock := by
  unfold Obligations.EncBc1StoresTheChosenColorBlock
  intro fit wba s hs
  obtain ⟨tx, htx⟩ := hs.readPix
  refine ⟨_, tx, htx, exec_encBc1_of_readPix htx fit wba, completeEncode_frame (by simp), fun k hk => ?_, ?_⟩
  · exact completeEncode_read (by simpa using hk)
  · exact completeEncode_errMetric_toNat (encodeColor_err_lt (readPix_length htx) _ _ fit wba _)

/-- Settles O25: the first half holds two alpha digits a byte, the second one the color sub-block. -/
theorem encBc2StoresExplicitAlphaAndColor : Obligations.EncBc2StoresExplicitAlphaAndColor := by
  unfold Obligations.EncBc2StoresExplicitAlphaAndColor
  intro fit wba s hs
  obtain ⟨tx, htx⟩ := hs.readPix
  have hlen := readPix_length htx
  refine ⟨_, tx, htx, exec_encBc2_of_readPix htx fit wba, completeEncode_frame (by simp), fun k hk => ?_, fun k hk => ?_, ?_⟩
  · rw [completeEncode_read_fst (by simpa using hk), alphaBytes_getElem? (by simp [hlen]) explicitAlpha_lt hk,
      explicitAlpha_getD, explicitAlpha_getD]
  · exact completeEncode_read_snd (alphaBytes_length _) (by simpa using hk)
  · exact completeEncode_errMetric_toNat (encodeColor_err_lt hlen _ _ fit wba _)

/-- Settles O26: the two sub-blocks fill the two halves, and the sum of the errors fits in `ERRMETRIC`. -/
theorem encBc3StoresAlphaChannelAndColor : Obligations.EncBc3StoresAlphaChannelAndColor := by
  unfold Obligations.EncBc3StoresAlphaChannelAndColor
  intro fit wba s hs
  obtain ⟨tx, htx⟩ := hs.readPix
  refine ⟨_, tx, htx, exec_encBc3_of_readPix htx fit wba, completeEncode_frame (by simp), fun k hk => ?_, fun k hk => ?_, ?_⟩
  · exact completeEncode_read_fst (by simpa using hk)
  · exact completeEncode_read_snd (ChannelBlock.bytes_length _) (by simpa using hk)
  · exact completeEncode_errMetric_toNat (encodeChannel_add_encodeColor_err_lt (readPix_length htx) _ _ _ fit wba _)

/-- Settles O27: the channel sub-block is the whole block. -/
theorem encBc4StoresTheRedChannel : Obligations.EncBc4StoresTheRedChannel := by
  unfold Obligations.EncBc4StoresTheRedChannel
  intro fit s hs
  obtain ⟨tx, htx⟩ := hs.readPix
  refine ⟨_, tx, htx, exec_encBc4_of_readPix htx fit, completeEncode_frame (by simp), fun k hk => ?_, ?_⟩
  · exact completeEncode_read (by simpa using hk)
  · exact completeEncode_errMetric_toNat (encodeChannel_err_lt (readPix_length htx) _ fit _)

end Sys2Proof.Machine
end

section
/-! The round trip (rule R150): the decoder rebuilds from a stored block exactly the values its indices name, so the error of the
decoded texels is the one the encoder counted. -/

namespace Sys2Proof.Machine

/-! ### Lists by texel number -/

@[simp] theorem texelAt_range_map (g : Nat → Texel) {i : Nat} (hi : i < 16) : texelAt ((List.range 16).map g) i = g i := by
  simp [texelAt, hi]

theorem mapIdx_eq_range_map {β : Type} {tx : List Texel} (h : tx.length = 16) (f : Nat → Texel → β) :
    tx.mapIdx f = (List.range 16).map fun i => f i (texelAt tx i) := by
  refine List.ext_getElem (by simp [h]) fun i hi _ => ?_
  have hi : i < tx.length := by simpa using hi
  simp [texelAt, hi]

theorem map_eq_range_map {α β : Type} {l : List α} (hl : l.length = 16) (f : α → β) (d : α) :
    l.map f = (List.range 16).map fun i => f (l.getD i d) := by
  refine List.ext_getElem (by simp [hl]) fun i hi _ => ?_
  have hi : i < l.length := by simpa using hi
  simp [hi]

theorem zipWith_range_map {α β γ : Type} (f : α → β → γ) (g : Nat → α) (k : Nat → β) (n : Nat) :
    List.zipWith f ((List.range n).map g) ((List.range n).map k) = (List.range n).map fun i => f (g i) (k i) := by
  rw [List.zipWith_map, List.zipWith_self]

/-! ### What the decoder rebuilds (rules R147, R148) -/

/-- The color the decoder rebuilds for texel `i` of a color block. -/
def ColorBlock.decoded (fmt : Format) (e : ColorBlock) (i : Nat) : Entry :=
  colorAt (e.palette fmt) (e.idx.getD i 0)

/-- The value the decoder rebuilds for texel `i` of a channel block. -/
def ChannelBlock.decoded (e : ChannelBlock) (i : Nat) : Nat :=
  channelAt e.palette (e.idx.getD i 0)

section Decoded
variable {tx : List Texel} (h : tx.length = 16)
include h

theorem encodeColor_idx_length (p : Params) (fmt : Format) (fit : Fit) (wba : Bool) (mask : BitVec 16) :
    (encodeColor p fmt fit wba mask tx).idx.length = 16 := by
  obtain ⟨-, -, -, hidx, -⟩ := (encodeColor_isColorEvaluation p fmt fit wba mask tx).spec
  rw [hidx, List.length_map, samplesOf_length, h]

theorem encodeChannel_idx_length (ch : Texel → Byte) (fit : Fit) (mask : BitVec 16) :
    (encodeChannel ch fit mask tx).idx.length = 16 := by
  obtain ⟨-, hidx, -⟩ := IsChannelEvaluation.spec (encodeChannel_eval ch fit mask tx)
  rw [hidx, List.length_map, channelSamples_length, h]

/-- Among any other bytes, a stored color sub-block decodes to the colors of its indices. -/
theorem decodeColor_encodeColor (p : Params) (fmt : Format) (fit : Fit) (wba : Bool) (mask : BitVec 16)
    (pre post : List Byte) :
    decodeColor fmt pre.length (pre ++ (encodeColor p fmt fit wba mask tx).bytes ++ post) =
      (List.range 16).map ((encodeColor p fmt fit wba mask tx).decoded fmt) := by
  obtain ⟨⟨h0, h1⟩, -, -, hidx, -⟩ := (encodeColor_isColorEvaluation p fmt fit wba mask tx).spec
  have hlen := encodeColor_idx_length h p fmt fit wba mask
  have hlt : ∀ d ∈ (encodeColor p fmt fit wba mask tx).idx, d < 4 := by
    rw [hidx, List.forall_mem_map]
    exact fun t _ => sampleIndex_lt _ _ t
  exact (decodeColor_colorBytes fmt pre post h0 h1 hlen hlt).trans (map_eq_range_map hlen _ 0)

/-- Among any other bytes, a stored channel sub-block decodes to the values of its indices. -/
theorem decodeChannel_encodeChannel (ch : Texel → Byte) (fit : Fit) (mask : BitVec 16) (pre post : List Byte) :
    decodeChannel pre.length (pre ++ (encodeChannel ch fit mask tx).bytes ++ post) =
      (List.range 16).map (encodeChannel ch fit mask tx).decoded := by
  obtain ⟨⟨h0, h1⟩, hidx, -⟩ := IsChannelEvaluation.spec (encodeChannel_eval ch fit mask tx)
  have hlen := encodeChannel_idx_length h ch fit mask
  have hlt : ∀ d ∈ (encodeChannel ch fit mask tx).idx, d < 8 := by
    rw [hidx, List.forall_mem_map]
    exact fun t _ => channelSampleIndex_lt _ t
  exact (decodeChannel_channelBytes pre post h0 h1 hlen hlt).trans (map_eq_range_map hlen _ 0)

/-- The explicit alpha decodes to 17 times the digits. -/
theorem decodeAlpha_explicitAlpha (post : List Byte) : decodeAlpha (alphaBytes (explicitAlpha tx) ++ post) =
    (List.range 16).map fun i => 17 * ((texelAt tx i).a.toNat / 16) := by
  rw [decodeAlpha_alphaBytes post (by simp [h]) explicitAlpha_lt, map_eq_range_map (by simp [h]) _ 0]
  simp only [explicitAlpha_getD]

/-! ### The error of the decoded texels (rules R118, R130, R150) -/

/-- The stored color error is the one between the texels and any texels of the decoded colors. -/
theorem encodeColor_err_eq (fmt : Format) (fit : Fit) (wba : Bool) (mask : BitVec 16) {ux : List Texel}
    (hux : ∀ i, i < 16 → texelRgb (texelAt ux i) = ((encodeColor Config.thisHardware fmt fit wba mask tx).decoded fmt i).rgb) :
    (encodeColor Config.thisHardware fmt fit wba mask tx).err = colorErrorBetween fmt wba mask tx ux := by
  obtain ⟨-, -, -, -, herr⟩ := (encodeColor_isColorEvaluation Config.thisHardware fmt fit wba mask tx).spec
  have hidx := map_eq_range_map (encodeColor_idx_length h Config.thisHardware fmt fit wba mask) id 0
  rw [List.map_id] at hidx
  rw [herr, hidx, samplesOf, mapIdx_eq_range_map h, zipWith_range_map, colorErrorBetween]
  congr 1
  refine List.map_congr_left fun i hi => ?_
  rw [hux i (List.mem_range.1 hi)]
  rfl

/-- The stored channel error is the one between the texels and any texels of the decoded values. -/
theorem encodeChannel_err_eq (ch : Texel → Byte) (fit : Fit) (mask : BitVec 16) {ux : List Texel}
    (hux : ∀ i, i < 16 → (ch (texelAt ux i)).toNat = (encodeChannel ch fit mask tx).decoded i) :
    (encodeChannel ch fit mask tx).err = channelErrorBetween ch mask tx ux := by
  obtain ⟨-, -, herr⟩ := IsChannelEvaluation.spec (encodeChannel_eval ch fit mask tx)
  have hidx := map_eq_range_map (encodeChannel_idx_length h ch fit mask) id 0
  rw [List.map_id] at hidx
  rw [herr, hidx, channelSamples, mapIdx_eq_range_map h, zipWith_range_map, channelErrorBetween]
  congr 1
  refine List.map_congr_left fun i hi => ?_
  rw [hux i (List.mem_range.1 hi)]
  cases maskBit mask i <;> simp [channelSampleError, ChannelBlock.decoded]

/-- A punch-through texel has the index 3 of the three-color mode, transparent black (rules R82, R87, R116, R120). -/
theorem encodeColor_decoded_of_punched {p : Params} {mask : BitVec 16} {i : Nat} (hi : i < 16)
    (hp : punched p .bc1 mask i (texelAt tx i) = true) (fit : Fit) (wba : Bool) :
    (encodeColor p .bc1 fit wba mask tx).decoded .bc1 i = transparentBlack := by
  have htx : tx[i]? = some (texelAt tx i) := by simp [texelAt, h, hi]
  obtain ⟨-, hthree, -, hidx, -⟩ := (encodeColor_isColorEvaluation p .bc1 fit wba mask tx).spec
  have hle := hthree ((threeColor_samplesOf p .bc1 wba mask tx).2 ⟨i, _, htx, hp⟩)
  have hget : (encodeColor p .bc1 fit wba mask tx).idx.getD i 0 = 3 := by
    rw [hidx, List.getD_eq_getElem?_getD, List.getElem?_map, samplesOf_getElem? htx, Option.map_some, Option.getD_some]
    exact sampleIndex_of_punch hp _ _
  rw [ColorBlock.decoded, hget, ColorBlock.palette, fourColorMode_bc1, decide_eq_false (by omega)]
  rfl

end Decoded

theorem ColorBlock.hasChannels_entryTexel (fmt : Format) (e : ColorBlock) (i : Nat) :
    HasChannels (entryTexel (e.decoded fmt i)) (e.decoded fmt i).rgb.r (e.decoded fmt i).rgb.g (e.decoded fmt i).rgb.b
      (e.decoded fmt i).alpha :=
  Machine.hasChannels_entryTexel _ _ _ _

theorem ColorBlock.hasChannels_entryWithAlpha (fmt : Format) (e : ColorBlock) (i : Nat) {a : Nat} (ha : a ≤ 255) :
    HasChannels (entryWithAlpha (e.decoded fmt i) a) (e.decoded fmt i).rgb.r (e.decoded fmt i).rgb.g
      (e.decoded fmt i).rgb.b a :=
  Machine.hasChannels_entryWithAlpha _ _ _ _ ha

theorem encodeChannel_decoded_le (ch : Texel → Byte) (fit : Fit) (mask : BitVec 16) (tx : List Texel) (i : Nat) :
    (encodeChannel ch fit mask tx).decoded i ≤ 255 := by
  obtain ⟨⟨h0, h1⟩, -, -⟩ := IsChannelEvaluation.spec (encodeChannel_eval ch fit mask tx)
  exact channelAt_le h0 h1 _

theorem HasChannels.texelRgb {t : Texel} {r g b a : Nat} (h : HasChannels t r g b a) :
    texelRgb t = { r := r, g := g, b := b } := by
  obtain ⟨hr, hg, hb, -⟩ := h
  rw [Machine.texelRgb, hr, hg, hb]

/-! ### Encode, then decode -/

/-- The bytes an encode stores are read back by the decode of the same size. -/
theorem readBlk_completeEncode (bs : List Byte) (e : Nat) (s : State) :
    readBlk (completeEncode bs e s).mem bs.length = some bs :=
  Memory.readBytes_writeBytes s.mem blkBase bs

/-- A decode after an encode: it rebuilds the texels from the bytes stored and leaves the error in `ERRMETRIC`. -/
theorem decode_after_encode {i : Instr} {expand : List Byte → List Texel} {n : Nat}
    (hexec : ∀ s, exec i s = withBlk n s fun bs => .next (completeDecode (pixBytes (expand bs)) s))
    (hexpand : ∀ bs, (expand bs).length = 16) {bs : List Byte} (hbs : bs.length = n) {e : Nat} (he : e < 2 ^ 32)
    (s : State) :
    ∃ u, exec i (completeEncode bs e s) = .next u ∧ readPix u.mem = some (expand bs) ∧ u.errMetric.toNat = e := by
  subst hbs
  refine ⟨_, (hexec _).trans (withBlk_of_some (readBlk_completeEncode bs e s) _), completeDecode_readPix (hexpand bs), ?_⟩
  rw [completeDecode_errMetric, completeEncode_errMetric_toNat he]

/-- Settles O35: the texels decode to the colors of the stored indices, whose error is the stored one, and a punch-through texel to
transparent black. -/
theorem roundTripErrorBc1 : Obligations.RoundTripErrorBc1 := by
  unfold Obligations.RoundTripErrorBc1
  intro fit wba s hs
  obtain ⟨tx, htx⟩ := hs.readPix
  have hlen := readPix_length htx
  obtain ⟨u, hu, hux, herr⟩ := decode_after_encode (i := .decBc1) (fun _ => rfl) expandBc1_length
    (ColorBlock.bytes_length _) (encodeColor_err_lt hlen Config.thisHardware .bc1 fit wba s.texelMask) s
  have hdec := decodeColor_encodeColor hlen Config.thisHardware .bc1 fit wba s.texelMask [] []
  rw [List.nil_append, List.append_nil, List.length_nil] at hdec
  rw [expandBc1, hdec, List.map_map] at hux
  refine ⟨_, u, tx, _, htx, exec_encBc1_of_readPix htx fit wba, hu, hux, herr.trans ?_, fun i hi hm ha => ?_⟩
  · refine encodeColor_err_eq hlen .bc1 fit wba s.texelMask fun i hi => ?_
    rw [texelAt_range_map _ hi]
    exact (ColorBlock.hasChannels_entryTexel _ _ _).texelRgb
  · have hp : punched Config.thisHardware .bc1 s.texelMask i (texelAt tx i) = true :=
      (punched_iff _ _ _ _ _).2 ⟨rfl, hm, (belowThreshold_thisHardware _).2 ha⟩
    rw [texelAt_range_map _ hi, Function.comp_apply, encodeColor_decoded_of_punched hlen hi hp]
    exact hasChannels_texelOfNats (by decide) (by decide) (by decide) (by decide)

/-- A BC2 block decodes to the colors of its indices with the digits of the alphas. -/
theorem expandBc2_encoded {tx : List Texel} (h : tx.length = 16) (fit : Fit) (wba : Bool) (mask : BitVec 16) :
    expandBc2 (alphaBytes (explicitAlpha tx) ++ (encodeColor Config.thisHardware .bc2 fit wba mask tx).bytes) =
      (List.range 16).map fun i => entryWithAlpha ((encodeColor Config.thisHardware .bc2 fit wba mask tx).decoded .bc2 i)
        (17 * ((texelAt tx i).a.toNat / 16)) := by
  have hcolor := decodeColor_encodeColor h Config.thisHardware .bc2 fit wba mask (alphaBytes (explicitAlpha tx)) []
  rw [List.append_nil, alphaBytes_length] at hcolor
  rw [expandBc2, hcolor, decodeAlpha_explicitAlpha h, zipWith_range_map]

/-- A BC3 block decodes to the colors of its indices with the values of the alpha channel. -/
theorem expandBc3_encoded {tx : List Texel} (h : tx.length = 16) (fit : Fit) (wba : Bool) (mask : BitVec 16) :
    expandBc3 ((encodeChannel (·.a) fit mask tx).bytes ++ (encodeColor Config.thisHardware .bc3 fit wba mask tx).bytes) =
      (List.range 16).map fun i => entryWithAlpha ((encodeColor Config.thisHardware .bc3 fit wba mask tx).decoded .bc3 i)
        ((encodeChannel (·.a) fit mask tx).decoded i) := by
  have hcolor := decodeColor_encodeColor h Config.thisHardware .bc3 fit wba mask (encodeChannel (·.a) fit mask tx).bytes []
  rw [List.append_nil, ChannelBlock.bytes_length] at hcolor
  rw [expandBc3, hcolor, ← List.nil_append (encodeChannel _ _ _ _).bytes]
  exact (congrArg _ (decodeChannel_encodeChannel h (·.a) fit mask [] _)).trans (zipWith_range_map _ _ _ _)

/-- The mask 0xFFFF includes every texel. -/
theorem maskBit_all {i : Nat} (hi : i < 16) : maskBit 0xFFFF i = true := by
  have hall : (0xFFFF : BitVec 16) = BitVec.allOnes 16 := rfl
  rw [maskBit, hall, BitVec.getLsbD_allOnes, decide_eq_true hi]

/-- With `FIT = 0`, included values below a bound decode to values below it (rule R164). -/
theorem encodeChannel_decoded_lt {tx : List Texel} (h : tx.length = 16) (ch : Texel → Byte) {n : Nat}
    (hlt : ∀ i, i < 16 → (ch (texelAt tx i)).toNat < n) {i : Nat} (hi : i < 16) :
    (encodeChannel ch .range 0xFFFF tx).decoded i < n := by
  have hsm : ∀ t ∈ channelSamples ch 0xFFFF tx, t.excl = false ∧ t.x < n := by
    rw [channelSamples, mapIdx_eq_range_map h, List.forall_mem_map]
    intro i hi
    have hi := List.mem_range.1 hi
    exact ⟨by rw [maskBit_all hi]; rfl, hlt i hi⟩
  have hidx : i < (encodeChannel ch .range 0xFFFF tx).idx.length := by rwa [encodeChannel_idx_length h]
  rw [ChannelBlock.decoded, List.getD_eq_getElem _ _ hidx]
  exact fitChannel_range_decodesBelow hsm _ (List.getElem_mem hidx)

/-- Settles O36: in both formats the decoded colors are those of the stored indices; the alphas are 17 times the digits in BC2 and
the decoded channel in BC3, and either is below 128 when the alphas encoded are. -/
theorem roundTripErrorBc2AndBc3 : Obligations.RoundTripErrorBc2AndBc3 := by
  unfold Obligations.RoundTripErrorBc2AndBc3
  intro fit wba s hs
  obtain ⟨tx, htx⟩ := hs.readPix
  have hlen := readPix_length htx
  constructor
  · obtain ⟨u, hu, hux, herr⟩ := decode_after_encode (i := .decBc2)
      (bs := alphaBytes (explicitAlpha tx) ++ (encodeColor Config.thisHardware .bc2 fit wba s.texelMask tx).bytes)
      (fun _ => rfl) expandBc2_length (by simp) (encodeColor_err_lt hlen Config.thisHardware .bc2 fit wba s.texelMask) s
    rw [expandBc2_encoded hlen] at hux
    have halpha : ∀ i, 17 * ((texelAt tx i).a.toNat / 16) ≤ 255 := fun i => by have := (texelAt tx i).a.isLt; omega
    have hch := fun i => ColorBlock.hasChannels_entryWithAlpha .bc2
      (encodeColor Config.thisHardware .bc2 fit wba s.texelMask tx) i (halpha i)
    refine ⟨_, u, tx, _, htx, exec_encBc2_of_readPix htx fit wba, hu, hux, herr.trans ?_, fun i hi => ?_⟩
    · refine encodeColor_err_eq hlen .bc2 fit wba s.texelMask fun i hi => ?_
      rw [texelAt_range_map _ hi, (hch i).texelRgb]
    · obtain ⟨-, -, -, ha⟩ := hch i
      rw [texelAt_range_map _ hi, ha]
      exact ⟨rfl, by omega⟩
  · obtain ⟨u, hu, hux, herr⟩ := decode_after_encode (i := .decBc3)
      (bs := (encodeChannel (·.a) fit s.texelMask tx).bytes ++ (encodeColor Config.thisHardware .bc3 fit wba s.texelMask tx).bytes)
      (fun _ => rfl) expandBc3_length (by simp)
      (encodeChannel_add_encodeColor_err_lt hlen (·.a) Config.thisHardware .bc3 fit wba s.texelMask) s
    rw [expandBc3_encoded hlen] at hux
    have hch := fun i => ColorBlock.hasChannels_entryWithAlpha .bc3
      (encodeColor Config.thisHardware .bc3 fit wba s.texelMask tx) i
      (encodeChannel_decoded_le (·.a) fit s.texelMask tx i)
    refine ⟨_, u, tx, _, htx, exec_encBc3_of_readPix htx fit wba, hu, hux, ?_, ?_⟩
    · rw [herr]
      refine congrArg₂ (· + ·) ?_ ?_
      · refine encodeChannel_err_eq hlen (·.a) fit s.texelMask fun i hi => ?_
        obtain ⟨-, -, -, ha⟩ := hch i
        rw [texelAt_range_map _ hi, ha]
      · refine encodeColor_err_eq hlen .bc3 fit wba s.texelMask fun i hi => ?_
        rw [texelAt_range_map _ hi, (hch i).texelRgb]
    · rintro rfl hmask hlt i hi
      obtain ⟨-, -, -, ha⟩ := hch i
      rw [texelAt_range_map _ hi, ha, hmask]
      exact encodeChannel_decoded_lt hlen (·.a) hlt hi

/-- Settles O37: the decoded channels are those of the stored indices, one in BC4 and two in BC5. -/
theorem roundTripErrorBc4AndBc5 : Obligations.RoundTripErrorBc4AndBc5 := by
  unfold Obligations.RoundTripErrorBc4AndBc5
  intro fit s hs
  obtain ⟨tx, htx⟩ := hs.readPix
  have hlen := readPix_length htx
  have hle := fun (ch : Texel → Byte) i => encodeChannel_decoded_le ch fit s.texelMask tx i
  constructor
  · obtain ⟨u, hu, hux, herr⟩ := decode_after_encode (i := .decBc4) (fun _ => rfl) expandBc4_length
      (ChannelBlock.bytes_length _) (encodeChannel_err_lt hlen (·.r) fit s.texelMask) s
    have hred := decodeChannel_encodeChannel hlen (·.r) fit s.texelMask [] []
    rw [List.nil_append, List.append_nil, List.length_nil] at hred
    rw [expandBc4, hred, List.map_map] at hux
    refine ⟨_, u, tx, _, htx, exec_encBc4_of_readPix htx fit, hu, hux, herr.trans ?_⟩
    refine encodeChannel_err_eq hlen (·.r) fit s.texelMask fun i hi => ?_
    obtain ⟨hr, -⟩ := hasChannels_texelOfNats (hle (·.r) i) (Nat.zero_le 255) (Nat.zero_le 255) (le_refl 255)
    rw [texelAt_range_map _ hi]
    exact hr
  · obtain ⟨u, hu, hux, herr⟩ := decode_after_encode (i := .decBc5)
      (bs := (encodeChannel (·.r) fit s.texelMask tx).bytes ++ (encodeChannel (·.g) fit s.texelMask tx).bytes)
      (fun _ => rfl) expandBc5_length (by simp) (encodeChannel_err_add_lt (·.r) (·.g) fit s.texelMask hlen) s
    have hred := decodeChannel_encodeChannel hlen (·.r) fit s.texelMask [] (encodeChannel (·.g) fit s.texelMask tx).bytes
    have hgreen := decodeChannel_encodeChannel hlen (·.g) fit s.texelMask (encodeChannel (·.r) fit s.texelMask tx).bytes []
    rw [List.nil_append, List.length_nil] at hred
    rw [List.append_nil, ChannelBlock.bytes_length] at hgreen
    rw [expandBc5, hred, hgreen, zipWith_range_map] at hux
    have hch := fun i => hasChannels_texelOfNats (hle (·.r) i) (hle (·.g) i) (Nat.zero_le 255) (le_refl 255)
    refine ⟨_, u, tx, _, htx, exec_encBc5_of_readPix htx fit, hu, hux, ?_⟩
    rw [herr]
    refine congrArg₂ (· + ·) ?_ ?_
    · refine encodeChannel_err_eq hlen (·.r) fit s.texelMask fun i hi => ?_
      obtain ⟨hr, -⟩ := hch i
      rw [texelAt_range_map _ hi, hr]
    · refine encodeChannel_err_eq hlen (·.g) fit s.texelMask fun i hi => ?_
      obtain ⟨-, hg, -⟩ := hch i
      rw [texelAt_range_map _ hi, hg]

end Sys2Proof.Machine
end

section
/-! The weighted Gram determinant of two families of integers over a list. It is never negative, and it is 0 exactly when the two
families are proportional. The determinant of the least squares (rules R106, R107) and the variances of a ColorSet (rule R92) are
such determinants. -/

namespace Sys2Proof.Machine

section Gram
variable {α : Type} (w a b : α → Int)

/-- `(Σ w·a²)·(Σ w·b²) - (Σ w·a·b)²`. -/
def gram (l : List α) : Int :=
  (l.map fun m => w m * a m * a m).sum * (l.map fun m => w m * b m * b m).sum -
    (l.map fun m => w m * a m * b m).sum * (l.map fun m => w m * a m * b m).sum

/-- The weighted sum of the squares of `z`. -/
def squares (z : α → Int) (l : List α) : Int :=
  (l.map fun m => w m * z m ^ 2).sum

theorem squares_cross (x y : Int) (l : List α) : squares w (fun m => x * b m - y * a m) l =
    x ^ 2 * (l.map fun m => w m * b m * b m).sum - 2 * x * y * (l.map fun m => w m * a m * b m).sum +
      y ^ 2 * (l.map fun m => w m * a m * a m).sum := by
  induction l with
  | nil => simp [squares]
  | cons m l ih =>
    simp only [squares, List.map_cons, List.sum_cons] at ih ⊢
    rw [ih]
    ring

/-- One more member adds the squares of its cross terms with the others. -/
theorem gram_cons (m : α) (l : List α) :
    gram w a b (m :: l) = gram w a b l + w m * squares w (fun m' => a m * b m' - b m * a m') l := by
  rw [squares_cross]
  simp only [gram, List.map_cons, List.sum_cons]
  ring

variable {w a b}

theorem squares_nonneg {l : List α} (hw : ∀ m ∈ l, 0 ≤ w m) (z : α → Int) : 0 ≤ squares w z l := by
  refine List.sum_nonneg ?_
  rw [List.forall_mem_map]
  exact fun m hm => mul_nonneg (hw m hm) (sq_nonneg _)

theorem squares_eq_zero_iff {l : List α} (hw : ∀ m ∈ l, 0 < w m) {z : α → Int} :
    squares w z l = 0 ↔ ∀ m ∈ l, z m = 0 := by
  induction l with
  | nil => simp [squares]
  | cons m l ih =>
    rw [List.forall_mem_cons] at hw ⊢
    obtain ⟨hm, hl⟩ := hw
    have hhead : 0 ≤ w m * z m ^ 2 := mul_nonneg hm.le (sq_nonneg _)
    have htail : 0 ≤ squares w z l := squares_nonneg (fun m hm => (hl m hm).le) z
    have hcons : squares w z (m :: l) = w m * z m ^ 2 + squares w z l := rfl
    rw [hcons, add_eq_zero_iff_of_nonneg hhead htail, ih hl, mul_eq_zero_iff_left hm.ne', sq_eq_zero_iff]

theorem gram_nonneg {l : List α} (hw : ∀ m ∈ l, 0 ≤ w m) : 0 ≤ gram w a b l := by
  induction l with
  | nil => simp [gram]
  | cons m l ih =>
    rw [List.forall_mem_cons] at hw
    obtain ⟨hm, hl⟩ := hw
    rw [gram_cons]
    exact add_nonneg (ih hl) (mul_nonneg hm (squares_nonneg hl _))

/-- With positive weights it is 0 only when all the pairs are proportional. -/
theorem gram_eq_zero_iff {l : List α} (hw : ∀ m ∈ l, 0 < w m) :
    gram w a b l = 0 ↔ ∀ m ∈ l, ∀ m' ∈ l, a m * b m' = b m * a m' := by
  induction l with
  | nil => simp [gram]
  | cons m l ih =>
    rw [List.forall_mem_cons] at hw
    obtain ⟨hm, hl⟩ := hw
    have hl' : ∀ m ∈ l, 0 ≤ w m := fun m hm => (hl m hm).le
    rw [gram_cons, add_eq_zero_iff_of_nonneg (gram_nonneg hl') (mul_nonneg hm.le (squares_nonneg hl' _)), ih hl,
      mul_eq_zero_iff_left hm.ne', squares_eq_zero_iff hl]
    simp only [List.forall_mem_cons, sub_eq_zero]
    constructor
    · rintro ⟨hll, hml⟩
      exact ⟨⟨mul_comm _ _, hml⟩, fun m' hm' => ⟨by linarith [hml m' hm'], hll m' hm'⟩⟩
    · rintro ⟨⟨-, hml⟩, h⟩
      exact ⟨fun m' hm' => (h m' hm').2, hml⟩

end Gram

/-! ### The determinant of the least squares (rules R106, R107) -/

theorem lsDet_eq_gram (D : Nat) (ms : List Member) :
    lsDet D ms = gram (fun m : Member => (m.wt : Int)) (fun m => (D : Int) - m.k) (fun m => m.k) ms := rfl

/-- Settles O49: the cross term of two members is `D` times the difference of their clusters. -/
theorem determinantIsZeroForOneClusterOnly : Obligations.DeterminantIsZeroForOneClusterOnly := by
  unfold Obligations.DeterminantIsZeroForOneClusterOnly
  intro D ms hD hwt
  have hpos : ∀ m ∈ ms, 0 < (m.wt : Int) := fun m hm => by have := hwt m hm; omega
  rw [lsDet_eq_gram]
  refine ⟨gram_nonneg fun m hm => (hpos m hm).le, ?_⟩
  rw [gram_eq_zero_iff hpos]
  have hcross : ∀ m m' : Member, ((D : Int) - m.k) * m'.k = m.k * ((D : Int) - m'.k) ↔ m.k = m'.k := by
    intro m m'
    have hDpos : (D : Int) ≠ 0 := by omega
    constructor
    · intro h
      have : (D : Int) * m.k = D * m'.k := by linarith
      exact_mod_cast mul_left_cancel₀ hDpos this
    · rintro h
      rw [h]; ring
  simp only [hcross]

/-! ### The least-squares endpoints (rule R106) -/

/-- The weighted squared distance of the points to the palette points of two endpoints. -/
def lsResidual (D : Nat) (ms : List Member) (a b : Rat) : Rat :=
  (ms.map fun m => (m.wt : Rat) * ((((D : Rat) - m.k) * a + m.k * b) / D - m.x) ^ 2).sum

/-- The weighted squared length of the palette points of two endpoints. -/
def lsForm (D : Nat) (ms : List Member) (u v : Rat) : Rat :=
  (ms.map fun m => (m.wt : Rat) * ((((D : Rat) - m.k) * u + m.k * v) / D) ^ 2).sum

theorem lsForm_nonneg (D : Nat) (ms : List Member) (u v : Rat) : 0 ≤ lsForm D ms u v := by
  refine List.sum_nonneg ?_
  rw [List.forall_mem_map]
  exact fun m _ => mul_nonneg (Nat.cast_nonneg _) (sq_nonneg _)

/-- Moving the endpoints by `(u, v)`: the distance changes by a form in `(u, v)` and by a part linear in them, whose two
coefficients are the normal equations. -/
theorem lsResidual_add {D : Nat} (hD : 1 ≤ D) (ms : List Member) (a b u v : Rat) :
    lsResidual D ms (a + u) (b + v) = lsResidual D ms a b + lsForm D ms u v +
      2 * u / D ^ 2 * ((sumAA D ms : Rat) * a + sumAB D ms * b - D * sumAx D ms) +
      2 * v / D ^ 2 * ((sumAB D ms : Rat) * a + sumBB ms * b - D * sumBx ms) := by
  have hD : (D : Rat) ≠ 0 := by positivity
  induction ms with
  | nil => simp [lsResidual, lsForm, sumAA, sumAB, sumBB, sumAx, sumBx]
  | cons m ms ih =>
    simp only [lsResidual, lsForm, sumAA, sumAB, sumBB, sumAx, sumBx, List.map_cons, List.sum_cons] at ih ⊢
    rw [ih]
    push_cast
    field_simp
    ring

/-- The least-squares endpoints solve the normal equations. -/
theorem lsStart_lsEnd_normal {D : Nat} {ms : List Member} (h : lsDet D ms ≠ 0) :
    (sumAA D ms : Rat) * lsStart D ms + sumAB D ms * lsEnd D ms = D * sumAx D ms ∧
    (sumAB D ms : Rat) * lsStart D ms + sumBB ms * lsEnd D ms = D * sumBx ms := by
  have hdet : (lsDet D ms : Rat) ≠ 0 := Int.cast_ne_zero.2 h
  have hdef : (lsDet D ms : Rat) = sumAA D ms * sumBB ms - sumAB D ms * sumAB D ms := by rw [lsDet]; push_cast; ring
  rw [lsStart, lsEnd]
  push_cast
  constructor <;> field_simp <;> rw [hdef] <;> ring

/-- Settles O50: at the least-squares endpoints the linear part of the change is 0, and the form is never negative. -/
theorem leastSquaresEndpointsAreOptimal : Obligations.LeastSquaresEndpointsAreOptimal := by
  unfold Obligations.LeastSquaresEndpointsAreOptimal
  intro D ms hD hdet a b
  obtain ⟨hA, hB⟩ := lsStart_lsEnd_normal hdet
  have hmove := lsResidual_add hD ms (lsStart D ms) (lsEnd D ms) (a - lsStart D ms) (b - lsEnd D ms)
  rw [hA, hB, sub_self, sub_self, mul_zero, mul_zero, add_zero, add_zero, add_sub_cancel, add_sub_cancel] at hmove
  exact (le_add_of_nonneg_right (lsForm_nonneg D ms _ _)).trans hmove.ge

end Sys2Proof.Machine
end

section
/-! The principal axis (rules R90 to R97). The covariance of distinct points has a positive diagonal entry, so its chosen column is
not zero; it is symmetric, so no power of it takes a vector of its image to zero. For points on a line it is a multiple of the
line's dyad. -/

namespace Sys2Proof.Machine

/-! ### Integer vectors -/

theorem vec3_eq_of_channels {α : Type} {x y : Vec3 α} (hr : x.r = y.r) (hg : x.g = y.g) (hb : x.b = y.b) : x = y := by
  obtain ⟨r, g, b⟩ := x
  obtain ⟨r', g', b'⟩ := y
  rw [Vec3.mk.injEq]
  exact ⟨hr, hg, hb⟩

theorem dot_self_eq_zero_iff {v : Vec3 Int} : dot v v = 0 ↔ v = { r := 0, g := 0, b := 0 } := by
  obtain ⟨x, y, z⟩ := v
  simp only [dot, Vec3.mk.injEq]
  constructor
  · intro h
    refine ⟨?_, ?_, ?_⟩ <;> nlinarith [mul_self_nonneg x, mul_self_nonneg y, mul_self_nonneg z]
  · rintro ⟨rfl, rfl, rfl⟩
    rfl

/-! ### A symmetric matrix keeps its image away from zero (rule R95) -/

theorem covEntry_comm (ps : List (Point (Vec3 Nat))) (f g : Vec3 Nat → Nat) : covEntry ps f g = covEntry ps g f := by
  simp only [covEntry, mul_comm]

theorem dot_matVec_covariance (ps : List (Point (Vec3 Nat))) (v w : Vec3 Int) :
    dot v (matVec (covariance ps) w) = dot (matVec (covariance ps) v) w := by
  simp only [dot, matVec, covariance, covColumn, covEntry_comm ps (·.g) (·.r), covEntry_comm ps (·.b) (·.r),
    covEntry_comm ps (·.b) (·.g)]
  ring

/-- `C·C·w = 0` gives `|C·w|² = w·(C·C·w) = 0`. -/
theorem matVec_covariance_ne_zero {ps : List (Point (Vec3 Nat))} {w : Vec3 Int}
    (h : matVec (covariance ps) w ≠ { r := 0, g := 0, b := 0 }) :
    matVec (covariance ps) (matVec (covariance ps) w) ≠ { r := 0, g := 0, b := 0 } := by
  intro hzero
  refine h (dot_self_eq_zero_iff.1 ?_)
  rw [← dot_matVec_covariance, hzero]
  simp [dot]

theorem powerIterate_ne_zero {ps : List (Point (Vec3 Nat))} (n : Nat) {w : Vec3 Int}
    (h : matVec (covariance ps) w ≠ { r := 0, g := 0, b := 0 }) :
    powerIterate (covariance ps) n (matVec (covariance ps) w) ≠ { r := 0, g := 0, b := 0 } := by
  induction n generalizing w with
  | zero => exact h
  | succ n ih => exact ih (matVec_covariance_ne_zero h)

/-! ### The start vector (rules R93, R94) -/

/-- The start vector is the column of the first channel of largest diagonal entry. -/
theorem startVector_covariance (ps : List (Point (Vec3 Nat))) : ∃ k : Vec3 Nat → Nat,
    ((k = (·.r) ∧ covEntry ps (·.g) (·.g) ≤ covEntry ps (·.r) (·.r) ∧ covEntry ps (·.b) (·.b) ≤ covEntry ps (·.r) (·.r)) ∨
      (k = (·.g) ∧ covEntry ps (·.r) (·.r) < covEntry ps (·.g) (·.g) ∧ covEntry ps (·.b) (·.b) ≤ covEntry ps (·.g) (·.g)) ∨
      (k = (·.b) ∧ covEntry ps (·.r) (·.r) < covEntry ps (·.b) (·.b) ∧ covEntry ps (·.g) (·.g) < covEntry ps (·.b) (·.b))) ∧
    startVector (covariance ps) = covColumn ps k := by
  by_cases hr : covEntry ps (·.g) (·.g) ≤ covEntry ps (·.r) (·.r) ∧ covEntry ps (·.b) (·.b) ≤ covEntry ps (·.r) (·.r)
  · exact ⟨(·.r), .inl ⟨rfl, hr⟩, if_pos hr⟩
  · by_cases hg : covEntry ps (·.b) (·.b) ≤ covEntry ps (·.g) (·.g)
    · exact ⟨(·.g), .inr (.inl ⟨rfl, by omega, hg⟩), (if_neg hr).trans (if_pos hg)⟩
    · exact ⟨(·.b), .inr (.inr ⟨rfl, by omega, by omega⟩), (if_neg hr).trans (if_neg hg)⟩

/-- So it is the column of a channel whose diagonal entry is the largest. -/
theorem startVector_largest (ps : List (Point (Vec3 Nat))) : ∃ k : Vec3 Nat → Nat, (k = (·.r) ∨ k = (·.g) ∨ k = (·.b)) ∧
    (∀ f : Vec3 Nat → Nat, (f = (·.r) ∨ f = (·.g) ∨ f = (·.b)) → covEntry ps f f ≤ covEntry ps k k) ∧
    startVector (covariance ps) = covColumn ps k := by
  obtain ⟨k, hk, hstart⟩ := startVector_covariance ps
  refine ⟨k, ?_, ?_, hstart⟩
  · rcases hk with ⟨rfl, -⟩ | ⟨rfl, -⟩ | ⟨rfl, -⟩ <;> simp
  · rintro f (rfl | rfl | rfl) <;> rcases hk with ⟨rfl, h, h'⟩ | ⟨rfl, h, h'⟩ | ⟨rfl, h, h'⟩ <;> omega

/-- A column of the covariance is the image of a unit vector. -/
theorem covColumn_eq_matVec (ps : List (Point (Vec3 Nat))) {k : Vec3 Nat → Nat} (hk : k = (·.r) ∨ k = (·.g) ∨ k = (·.b)) :
    ∃ e, covColumn ps k = matVec (covariance ps) e := by
  rcases hk with rfl | rfl | rfl
  · exact ⟨{ r := 1, g := 0, b := 0 }, by simp [matVec, covariance]⟩
  · exact ⟨{ r := 0, g := 1, b := 0 }, by simp [matVec, covariance]⟩
  · exact ⟨{ r := 0, g := 0, b := 1 }, by simp [matVec, covariance]⟩

/-! ### Distinct points (rule R92) -/

/-- A diagonal entry is the variance of a channel. -/
theorem covEntry_self_eq_gram (ps : List (Point (Vec3 Nat))) (f : Vec3 Nat → Nat) :
    covEntry ps f f = gram (fun q : Point (Vec3 Nat) => (q.wt : Int)) (fun _ => 1) (fun q => (f q.val : Int)) ps := by
  simp only [covEntry_eq, gram, mul_one]

theorem covEntry_self_eq_zero_iff {ps : List (Point (Vec3 Nat))} (hw : ∀ q ∈ ps, 1 ≤ q.wt) (f : Vec3 Nat → Nat) :
    covEntry ps f f = 0 ↔ ∀ q ∈ ps, ∀ q' ∈ ps, f q.val = f q'.val := by
  have hpos : ∀ q ∈ ps, 0 < (q.wt : Int) := fun q hq => by have := hw q hq; omega
  rw [covEntry_self_eq_gram, gram_eq_zero_iff hpos]
  simp only [one_mul, mul_one, Nat.cast_inj]
  exact ⟨fun h q hq q' hq' => h q' hq' q hq, fun h q hq q' hq' => h q' hq' q hq⟩

theorem covEntry_self_nonneg (ps : List (Point (Vec3 Nat))) (f : Vec3 Nat → Nat) : 0 ≤ covEntry ps f f := by
  rw [covEntry_self_eq_gram]
  exact gram_nonneg fun q _ => Int.natCast_nonneg _

/-- Two distinct points differ in some channel, so the largest diagonal entry is not 0. -/
theorem covColumn_ne_zero {ps : List (Point (Vec3 Nat))} (hw : ∀ q ∈ ps, 1 ≤ q.wt) (hnd : (ps.map (·.val)).Nodup)
    (hlen : 2 ≤ ps.length) {k : Vec3 Nat → Nat} (hk : k = (·.r) ∨ k = (·.g) ∨ k = (·.b))
    (hmax : ∀ f : Vec3 Nat → Nat, (f = (·.r) ∨ f = (·.g) ∨ f = (·.b)) → covEntry ps f f ≤ covEntry ps k k) :
    covColumn ps k ≠ { r := 0, g := 0, b := 0 } := by
  intro hzero
  have hkk : covEntry ps k k = 0 := by
    rcases hk with rfl | rfl | rfl
    · exact congrArg Vec3.r hzero
    · exact congrArg Vec3.g hzero
    · exact congrArg Vec3.b hzero
  have hsame : ∀ f : Vec3 Nat → Nat, (f = (·.r) ∨ f = (·.g) ∨ f = (·.b)) → ∀ q ∈ ps, ∀ q' ∈ ps, f q.val = f q'.val :=
    fun f hf => (covEntry_self_eq_zero_iff hw f).1 (le_antisymm ((hmax f hf).trans hkk.le) (covEntry_self_nonneg ps f))
  obtain ⟨q, q', qs, rfl⟩ : ∃ q q' qs, ps = q :: q' :: qs := by
    match ps, hlen with
    | q :: q' :: qs, _ => exact ⟨q, q', qs, rfl⟩
  have heq : q.val = q'.val := by
    have hch := fun f hf => hsame f hf q (by simp) q' (by simp)
    exact vec3_eq_of_channels (hch (·.r) (.inl rfl)) (hch (·.g) (.inr (.inl rfl))) (hch (·.b) (.inr (.inr rfl)))
  simp [heq] at hnd

theorem principalAxis_of_le_one (p : Params) {ps : List (Point (Vec3 Nat))} (h : ps.length ≤ 1) :
    principalAxis p ps = { r := 1, g := 1, b := 1 } := if_pos h

theorem principalAxis_of_two_le (p : Params) {ps : List (Point (Vec3 Nat))} (h : 2 ≤ ps.length) :
    principalAxis p ps = powerIterate (covariance ps) p.powerIterations (startVector (covariance ps)) := if_neg (by omega)

/-- Points with positive weights and distinct values never have the axis zero. -/
theorem principalAxis_ne_zero (p : Params) {ps : List (Point (Vec3 Nat))} (hw : ∀ q ∈ ps, 1 ≤ q.wt)
    (hnd : (ps.map (·.val)).Nodup) : principalAxis p ps ≠ { r := 0, g := 0, b := 0 } := by
  rcases Nat.lt_or_ge 1 ps.length with hlen | hlen
  · obtain ⟨k, hch, hmax, hstart⟩ := startVector_largest ps
    have hne := covColumn_ne_zero hw hnd hlen hch hmax
    obtain ⟨e, he⟩ := covColumn_eq_matVec ps hch
    rw [principalAxis_of_two_le p hlen, hstart, he]
    exact powerIterate_ne_zero _ (he ▸ hne)
  · rw [principalAxis_of_le_one p hlen]
    simp

/-- Accumulating positive weights gives positive weights. -/
theorem weightedPoints_wt_pos {α : Type} [DecidableEq α] {cs : List (α × Nat)} (h : ∀ c ∈ cs, 1 ≤ c.2) :
    ∀ q ∈ weightedPoints cs, 1 ≤ q.wt := by
  intro q hq
  have hval : q.val ∈ (weightedPoints cs).map (·.val) := List.mem_map_of_mem hq
  obtain ⟨c, hc, hcq⟩ : ∃ c ∈ cs, c.1 = q.val := by simpa [weightedPoints_vals] using hval
  rw [wt_of_mem_weightedPoints hq]
  exact (h c hc).trans (List.le_sum_of_mem (List.mem_map_of_mem (List.mem_filter.2 ⟨hc, by simpa using hcq⟩)))

/-- The points of a block have positive weights (rules R83, R84). -/
theorem colorPoints_samplesOf_wt_pos (p : Params) (fmt : Format) (wba : Bool) (mask : BitVec 16) (tx : List Texel) :
    ∀ q ∈ colorPoints (samplesOf p fmt wba mask tx), 1 ≤ q.wt := by
  rw [colorPoints_eq_weightedPoints]
  refine weightedPoints_wt_pos ?_
  rw [includedColors, List.forall_mem_map]
  intro t ht
  obtain ⟨i, x, rfl⟩ := samplesOf_mem (List.mem_of_mem_filter ht)
  exact texelWeight_pos wba x

/-! ### Points on a line -/

section Line
variable {ps : List (Point (Vec3 Nat))} {μ : Point (Vec3 Nat) → Int} {f g : Vec3 Nat → Nat} {of df og dg : Int}

theorem sum_of_line (hf : ∀ q ∈ ps, (f q.val : Int) = of + μ q * df) :
    (ps.map fun q => (q.wt : Int) * f q.val).sum =
      of * (ps.map fun q => (q.wt : Int)).sum + df * (ps.map fun q => (q.wt : Int) * μ q).sum := by
  induction ps with
  | nil => simp
  | cons q qs ih =>
    rw [List.forall_mem_cons] at hf
    simp only [List.map_cons, List.sum_cons, ih hf.2, hf.1]
    ring

theorem sum_mul_of_line (hf : ∀ q ∈ ps, (f q.val : Int) = of + μ q * df) (hg : ∀ q ∈ ps, (g q.val : Int) = og + μ q * dg) :
    (ps.map fun q => (q.wt : Int) * f q.val * g q.val).sum =
      of * og * (ps.map fun q => (q.wt : Int)).sum + (of * dg + og * df) * (ps.map fun q => (q.wt : Int) * μ q).sum +
        df * dg * (ps.map fun q => (q.wt : Int) * μ q * μ q).sum := by
  induction ps with
  | nil => simp
  | cons q qs ih =>
    rw [List.forall_mem_cons] at hf hg
    simp only [List.map_cons, List.sum_cons, ih hf.2 hg.2, hf.1, hg.1]
    ring

/-- The covariance of two coordinates on a line is the variance of the parameter times the two slopes. -/
theorem covEntry_of_line (hf : ∀ q ∈ ps, (f q.val : Int) = of + μ q * df) (hg : ∀ q ∈ ps, (g q.val : Int) = og + μ q * dg) :
    covEntry ps f g = gram (fun q : Point (Vec3 Nat) => (q.wt : Int)) (fun _ => 1) μ ps * (df * dg) := by
  simp only [covEntry_eq, sum_of_line hf, sum_of_line hg, sum_mul_of_line hf hg, gram, mul_one]
  ring

end Line

/-- The points lie on the line through `o` along `d`, each at its parameter. -/
def OnLine (ps : List (Point (Vec3 Nat))) (o d : Vec3 Int) (μ : Point (Vec3 Nat) → Int) : Prop :=
  ∀ q ∈ ps, (q.val.r : Int) = o.r + μ q * d.r ∧ (q.val.g : Int) = o.g + μ q * d.g ∧ (q.val.b : Int) = o.b + μ q * d.b

/-- Two vectors are parallel: the first is an integer multiple of the second. -/
def IsMultiple (v d : Vec3 Int) : Prop :=
  ∃ m : Int, v = { r := m * d.r, g := m * d.g, b := m * d.b }

theorem covColumn_of_line {ps : List (Point (Vec3 Nat))} {o d : Vec3 Int} {μ : Point (Vec3 Nat) → Int} (h : OnLine ps o d μ)
    {k : Vec3 Nat → Nat} (hk : k = (·.r) ∨ k = (·.g) ∨ k = (·.b)) : IsMultiple (covColumn ps k) d := by
  have hr : ∀ q ∈ ps, (q.val.r : Int) = o.r + μ q * d.r := fun q hq => (h q hq).1
  have hg : ∀ q ∈ ps, (q.val.g : Int) = o.g + μ q * d.g := fun q hq => (h q hq).2.1
  have hb : ∀ q ∈ ps, (q.val.b : Int) = o.b + μ q * d.b := fun q hq => (h q hq).2.2
  have hcol : ∀ {ok dk : Int}, (∀ q ∈ ps, (k q.val : Int) = ok + μ q * dk) → IsMultiple (covColumn ps k) d := by
    intro ok dk hk
    refine ⟨gram (fun q : Point (Vec3 Nat) => (q.wt : Int)) (fun _ => 1) μ ps * dk, ?_⟩
    rw [covColumn, covEntry_of_line hr hk, covEntry_of_line hg hk, covEntry_of_line hb hk, Vec3.mk.injEq]
    exact ⟨by ring, by ring, by ring⟩
  rcases hk with rfl | rfl | rfl
  · exact hcol hr
  · exact hcol hg
  · exact hcol hb

/-- The covariance takes any vector to a multiple of the line's direction, since its columns are such multiples. -/
theorem matVec_of_line {ps : List (Point (Vec3 Nat))} {o d : Vec3 Int} {μ : Point (Vec3 Nat) → Int} (h : OnLine ps o d μ)
    (v : Vec3 Int) : IsMultiple (matVec (covariance ps) v) d := by
  obtain ⟨x, hx⟩ := covColumn_of_line h (k := (·.r)) (.inl rfl)
  obtain ⟨y, hy⟩ := covColumn_of_line h (k := (·.g)) (.inr (.inl rfl))
  obtain ⟨z, hz⟩ := covColumn_of_line h (k := (·.b)) (.inr (.inr rfl))
  refine ⟨x * v.r + y * v.g + z * v.b, ?_⟩
  simp only [matVec, covariance, hx, hy, hz, Vec3.mk.injEq]
  exact ⟨by ring, by ring, by ring⟩

theorem powerIterate_of_line {ps : List (Point (Vec3 Nat))} {o d : Vec3 Int} {μ : Point (Vec3 Nat) → Int}
    (h : OnLine ps o d μ) (n : Nat) {v : Vec3 Int} (hv : IsMultiple v d) :
    IsMultiple (powerIterate (covariance ps) n v) d := by
  induction n generalizing v with
  | zero => exact hv
  | succ n ih => exact ih (matVec_of_line h v)

/-! ### The obligation -/

/-- Settles O45: the points of a block are distinct and have positive weights; the power iteration starts at a column of the
covariance, and for points on a line that column and all its images are multiples of the line's direction. -/
theorem axisIsNeverZero : Obligations.AxisIsNeverZero := by
  unfold Obligations.AxisIsNeverZero
  refine ⟨fun p fmt wba mask tx => ?_, fun p ps h => principalAxis_of_le_one p h, fun p ps hlen C hC => ?_,
    fun p ps hlen o d hline => ?_⟩
  · refine principalAxis_ne_zero p (colorPoints_samplesOf_wt_pos p fmt wba mask tx) ?_
    rw [colorPoints_eq_weightedPoints]
    exact weightedPoints_vals_nodup _
  · have hcov : ∀ f g, C f g = covEntry ps f g := fun f g => (hC f g).trans (covEntry_eq ps f g).symm
    obtain ⟨k, hk, hstart⟩ := startVector_covariance ps
    refine ⟨k, by simpa only [hcov] using hk, ?_⟩
    rw [principalAxis_of_two_le p hlen, powerIterate_eq, hstart]
    simp only [hcov]
    rfl
  · choose! μ hμ using hline
    obtain ⟨k, hch, -, hstart⟩ := startVector_largest ps
    rw [principalAxis_of_two_le p hlen, hstart]
    exact powerIterate_of_line hμ _ (covColumn_of_line hμ hch)

end Sys2Proof.Machine
end

section
/-! The fits (rules R103 to R112, R125 to R134): the cluster order is the stable sort, the chosen candidate is the first of least
error, and the corner cases of the channel encoder. -/

namespace Sys2Proof.Machine

/-! ### The cluster order (rule R103) -/

/-- The order of rule R103 on the point numbers. -/
abbrev projectionLe (ps : List (Point (Vec3 Nat))) (u : Vec3 Int) (i j : Nat) : Prop :=
  projection ps u i < projection ps u j ∨ (projection ps u i = projection ps u j ∧ i ≤ j)

theorem clusterOrder_perm (ps : List (Point (Vec3 Nat))) (u : Vec3 Int) :
    (clusterOrder ps u).Perm (List.range ps.length) := List.perm_insertionSort _ _

theorem clusterOrder_pairwise (ps : List (Point (Vec3 Nat))) (u : Vec3 Int) :
    (clusterOrder ps u).Pairwise (projectionLe ps u) := by
  have htotal : Std.Total (projectionLe ps u) := ⟨fun i j => by unfold projectionLe; omega⟩
  have htrans : IsTrans Nat (projectionLe ps u) := ⟨fun i j k => by unfold projectionLe; omega⟩
  exact List.pairwise_insertionSort _ _

/-- Settles O47: the sort is by a total order, and a permutation of distinct numbers holds none twice. -/
theorem clusterOrderSortsByProjection : Obligations.ClusterOrderSortsByProjection := by
  unfold Obligations.ClusterOrderSortsByProjection
  intro ps u
  refine ⟨clusterOrder_perm ps u, ?_⟩
  have hnd : (clusterOrder ps u).Nodup := (clusterOrder_perm ps u).nodup_iff.2 List.nodup_range
  refine (clusterOrder_pairwise ps u).imp₂ (fun i j hle hne => ?_) hnd
  unfold projectionLe at hle
  omega

/-! ### The color fit (rules R104 to R111) -/

theorem clusterPass_err_le (fmt : Format) (sm : List Sample) (ps : List (Point (Vec3 Nat))) (ord : List Nat) (best : Scored) :
    (clusterPass fmt sm ps ord best).block.err ≤ best.block.err :=
  firstMin_le_best (fun sc : Scored => sc.block.err) best _

/-- No pass raises the error of the best candidate. -/
theorem clusterPasses_err_le (fmt : Format) (sm : List Sample) (ps : List (Point (Vec3 Nat))) (left pass : Nat)
    (ord : List Nat) (best : Scored) : (clusterPasses fmt sm ps left pass ord best).block.err ≤ best.block.err := by
  induction left generalizing pass ord best with
  | zero => exact le_refl _
  | succ left ih =>
    have hpass := clusterPass_err_le fmt sm ps ord best
    rw [clusterPasses]
    split_ifs with hlast hstall haxis hord
    · exact hpass
    · exact hpass
    · exact hpass
    · exact hpass
    · exact (ih _ _ _).trans hpass

/-- Settles O51: every pass keeps the best candidate so far, from the range candidate on; the candidates of a channel with
`FIT = 0` are among those with `FIT = 1`. -/
theorem clusterFitIsNeverWorseThanRangeFit : Obligations.ClusterFitIsNeverWorseThanRangeFit := by
  unfold Obligations.ClusterFitIsNeverWorseThanRangeFit
  refine ⟨fun p fmt wba mask tx => clusterPasses_err_le _ _ _ _ _ _ _, fun ch mask tx => ?_⟩
  have hmem := firstMin_mem (fun b : ChannelBlock => b.err)
    (evaluateChannel .eight (channelSamples ch mask tx)
      (channelRange (fittedValues .eight (valueSet (channelSamples ch mask tx)))))
    (channelBlocks .eight .range (channelSamples ch mask tx) ++ channelBlocks .six .range (channelSamples ch mask tx))
  refine firstMin_le (fun b : ChannelBlock => b.err) _ _ ?_
  simp only [channelBlocks, channelCandidates, List.map_cons, List.map_nil] at hmem ⊢
  simp only [List.mem_cons, List.mem_append] at hmem ⊢
  rcases hmem with h | (h | h) | h | h
  · exact .inl h
  · exact .inl h
  · cases h
  · exact .inr (.inr (.inl h))
  · cases h

theorem clampColor_eq (c : Vec3 Rat) : clampColor c =
    { r := max 0 (min 255 c.r), g := max 0 (min 255 c.g), b := max 0 (min 255 c.b) } := by
  simp only [clampColor, clampChannel_eq]

/-- The members of a partition, each at its sorted position. -/
theorem membersOf_spec {α : Type} (β : List Nat) (f : α → Nat) (sorted : List (Point α)) :
    (membersOf β f sorted).length = sorted.length ∧ ∀ (pos : Nat) (q : Point α), sorted[pos]? = some q →
      (membersOf β f sorted)[pos]? = some { k := clusterOf β pos, wt := q.wt, x := f q.val } :=
  ⟨List.length_mapIdx, fun pos q hq => by rw [membersOf, List.getElem?_mapIdx, hq, Option.map_some]⟩

theorem lsCandidate_of_det_eq_zero {D : Nat} {sorted : List (Point (Vec3 Nat))} {β : List Nat}
    (h : lsDet D (membersOf β (·.r) sorted) = 0) : lsCandidate D sorted β = none := if_pos h

/-- One member alone has no second cluster. -/
theorem lsDet_of_length_le_one (D : Nat) {ms : List Member} (h : ms.length ≤ 1) : lsDet D ms = 0 := by
  match ms, h with
  | [], _ => rfl
  | [m], _ => simp [lsDet, sumAA, sumAB, sumBB]; ring

/-- At most one point gives no candidate of a partition (rule R110). -/
theorem passCandidates_of_length_le_one {ps : List (Point (Vec3 Nat))} {ord : List Nat} (K : Nat) (hord : ord.length ≤ 1) :
    passCandidates K ps ord = [] := by
  refine List.filterMap_eq_nil_iff.2 fun β _ => lsCandidate_of_det_eq_zero (lsDet_of_length_le_one _ ?_)
  simpa [(membersOf_spec β _ _).1] using hord

/-- This hardware makes one pass. -/
theorem fitColor_cluster_thisHardware (fmt : Format) (sm : List Sample) :
    fitColor Config.thisHardware fmt .cluster sm = clusterPass fmt sm (colorPoints sm)
      (clusterOrder (colorPoints sm) (principalAxis Config.thisHardware (colorPoints sm)))
      (fitColor Config.thisHardware fmt .range sm) := rfl

/-- Settles O52: the pass is the choice of the first least candidate from the range candidate on, and every partition of at most one
point is degenerate; the other clauses say what the candidates are made of. -/
theorem firstLeastColorCandidateIsChosen : Obligations.FirstLeastColorCandidateIsChosen := by
  unfold Obligations.FirstLeastColorCandidateIsChosen
  refine ⟨fun p fmt sm => rfl, fun fmt sm => ⟨?_, fun hlen => ?_⟩, fun sm => rfl, fun K ps ord => rfl,
    fun β f sorted => membersOf_spec β f sorted, ?_, fun p fmt fit wba mask tx => rfl, fun fmt sm c => ⟨rfl, ?_⟩⟩
  · exact firstMin_split (fun sc : Scored => sc.block.err) (fitColor Config.thisHardware fmt .range sm) _
  · have hord : (clusterOrder (colorPoints sm) (principalAxis Config.thisHardware (colorPoints sm))).length ≤ 1 := by
      rwa [(clusterOrder_perm _ _).length_eq, List.length_range]
    rw [fitColor_cluster_thisHardware, clusterPass, passCandidates_of_length_le_one _ hord]
    rfl
  · rintro D sorted β mr mg mb rfl rfl rfl
    refine ⟨lsCandidate_of_det_eq_zero, fun hdet => (if_neg hdet).trans ?_⟩
    rw [clampColor_eq, clampColor_eq]
  · constructor <;> intro hthree <;> simp [evaluate, colorBlockOf, storageOrder, hthree]

/-! ### The ValueSet and the channel candidates (rules R125 to R131) -/

/-- The values of the included texels, each counted once. -/
def includedValues (sm : List ChannelSample) : List (Nat × Nat) :=
  (sm.filter fun t => !t.excl).map fun t => (t.x, 1)

theorem valueSet_eq_weightedPoints (sm : List ChannelSample) : valueSet sm = weightedPoints (includedValues sm) := by
  rw [weightedPoints, includedValues, List.foldl_map, List.foldl_filter, valueSet]
  congr
  funext ps t
  cases t.excl <;> rfl

/-- The weight of a value is the number of included texels that have it. -/
theorem valueSet_wt {sm : List ChannelSample} {q : Point Nat} (hq : q ∈ valueSet sm) :
    q.wt = (sm.filter fun t => !t.excl && decide (t.x = q.val)).length := by
  rw [valueSet_eq_weightedPoints] at hq
  rw [wt_of_mem_weightedPoints hq, includedValues, List.filter_map, List.map_map, List.filter_filter]
  simp [Function.comp_def, Bool.and_comm]

theorem mem_fittedValues_six {vs : List (Point Nat)} {q : Point Nat} :
    q ∈ fittedValues .six vs ↔ q ∈ vs ∧ q.val ≠ 0 ∧ q.val ≠ 255 := by
  simp [fittedValues]

/-- The range candidate of a mode is its least and its greatest fitted value. -/
theorem channelRange_spec {fv : List (Point Nat)} (h : fv ≠ []) : ∃ lo ∈ fv, ∃ hi ∈ fv,
    channelRange fv = ((lo.val : Rat), (hi.val : Rat)) ∧ ∀ q ∈ fv, lo.val ≤ q.val ∧ q.val ≤ hi.val := by
  obtain ⟨q, qs, rfl⟩ := List.exists_cons_of_ne_nil h
  have hmin := List.min?_eq_some_iff.1 (List.min?_cons' (x := q.val) (xs := qs.map (·.val)))
  have hmax := List.max?_eq_some_iff.1 (List.max?_cons' (x := q.val) (xs := qs.map (·.val)))
  rw [List.foldl_map, ← List.map_cons (f := Point.val), List.forall_mem_map] at hmin hmax
  obtain ⟨hlo, hle⟩ := hmin
  obtain ⟨hhi, hge⟩ := hmax
  obtain ⟨lo, hlo, hlov⟩ := List.mem_map.1 hlo
  obtain ⟨hi, hhi, hhiv⟩ := List.mem_map.1 hhi
  refine ⟨lo, hlo, hi, hhi, by rw [hlov, hhiv]; rfl, fun p hp => ⟨hlov ▸ hle p hp, hhiv ▸ hge p hp⟩⟩

theorem sortedValues_pairwise (fv : List (Point Nat)) : (sortedValues fv).Pairwise fun q q' => q.val ≤ q'.val := by
  have htotal : Std.Total fun q q' : Point Nat => q.val ≤ q'.val := ⟨fun q q' => Nat.le_total _ _⟩
  have htrans : IsTrans (Point Nat) fun q q' => q.val ≤ q'.val := ⟨fun _ _ _ => Nat.le_trans⟩
  exact List.pairwise_insertionSort _ _

/-- A candidate's endpoints are stored in the order of its mode (rule R129). -/
theorem channelOrder_eq (qa qb : Nat) :
    channelOrder .eight qa qb = (max qa qb, min qa qb) ∧ channelOrder .six qa qb = (min qa qb, max qa qb) := by
  refine ⟨?_, rfl⟩
  unfold channelOrder
  split_ifs with h
  · rw [h, max_self, min_self]
  · rfl

/-- The first least candidate of all, in order: the one that is listed twice at the head changes nothing. -/
theorem fitChannel_split (fit : Fit) (sm : List ChannelSample) : ∃ before after,
    channelBlocks .eight fit sm ++ channelBlocks .six fit sm = before ++ fitChannel fit sm :: after ∧
    (∀ c ∈ before, (fitChannel fit sm).err < c.err) ∧ ∀ c ∈ after, (fitChannel fit sm).err ≤ c.err := by
  obtain ⟨rest, hrest⟩ : ∃ rest, channelBlocks .eight fit sm ++ channelBlocks .six fit sm =
      evaluateChannel .eight sm (channelRange (fittedValues .eight (valueSet sm))) :: rest := ⟨_, rfl⟩
  have hfit : fitChannel fit sm = firstMin (fun b : ChannelBlock => b.err)
      (evaluateChannel .eight sm (channelRange (fittedValues .eight (valueSet sm)))) rest := by
    rw [fitChannel, hrest, firstMin, if_neg (lt_irrefl _)]
  rw [hrest, hfit]
  exact firstMin_split _ _ _

/-- Settles O55: the ValueSet is one pass over the included values, the range its ends, and the choice the first least candidate. -/
theorem firstLeastChannelCandidateIsChosen : Obligations.FirstLeastChannelCandidateIsChosen := by
  unfold Obligations.FirstLeastChannelCandidateIsChosen
  refine ⟨fun sm => ⟨?_, fun x => mem_valueSet, fun q hq => valueSet_wt hq⟩, fun vs => ⟨rfl, fun q => mem_fittedValues_six⟩,
    rfl, fun fv h => channelRange_spec h, fun fv => ⟨List.perm_insertionSort _ _, sortedValues_pairwise fv⟩,
    fun β sorted => membersOf_spec β _ sorted, ?_, fun fv => ⟨rfl, rfl, rfl, rfl⟩, fun sm a b => ?_,
    fun fit sm => fitChannel_split fit sm, fun ch fit mask tx => rfl⟩
  · rw [valueSet_eq_weightedPoints]
    exact weightedPoints_vals_nodup _
  · rintro D sorted β ms rfl
    refine ⟨fun hdet => if_pos hdet, fun hdet => (if_neg hdet).trans ?_⟩
    rw [clampChannel_eq, clampChannel_eq]
  · simp [evaluateChannel, channelBlockOf, channelOrder_eq]

/-! ### The corner cases (rule R134) -/

/-- A block that holds every included value as one of its entries has error 0. -/
theorem channelBlockOf_err_eq_zero {sm : List ChannelSample} {e0 e1 : Nat}
    (h : ∀ t ∈ sm, t.excl = false → ∃ j, j < 8 ∧ channelAt (channelPalette e0 e1) j = t.x) :
    (channelBlockOf sm e0 e1).err = 0 := by
  refine List.sum_eq_zero ?_
  rw [List.forall_mem_map]
  intro t ht
  unfold channelSampleError
  split_ifs with hexcl
  · rfl
  · obtain ⟨j, hj, heq⟩ := h t ht (by simpa using hexcl)
    have hle := (channelSampleIndex_nearest (channelPalette e0 e1) t).2.1 j hj
    rwa [heq, sqDiff_self, Nat.le_zero] at hle

/-- A first candidate of error 0 is chosen. -/
theorem firstMin_of_eq_zero {α : Type} {key : α → Nat} {best : α} (h : key best = 0) (l : List α) :
    firstMin key best l = best := by
  induction l with
  | nil => rfl
  | cons x xs ih => rw [firstMin, h, if_neg (Nat.not_lt_zero _), ih]

/-- A range candidate `(c, c)` of the eight-value mode is chosen when it has error 0. -/
theorem fitChannel_of_range_eq {sm : List ChannelSample} {c : Nat} (hc : c ≤ 255)
    (hrange : channelRange (valueSet sm) = ((c : Rat), (c : Rat))) (herr : (channelBlockOf sm c c).err = 0) (fit : Fit) :
    (fitChannel fit sm).err = 0 ∧ (fitChannel fit sm).e0 = c ∧ (fitChannel fit sm).e1 = c := by
  have hfirst : evaluateChannel .eight sm (channelRange (fittedValues .eight (valueSet sm))) = channelBlockOf sm c c := by
    rw [evaluateChannel, fittedValues, hrange, quant8_natCast hc, channelOrder, if_pos rfl]
  have hfit : fitChannel fit sm = channelBlockOf sm c c := by
    rw [fitChannel, hfirst]
    exact firstMin_of_eq_zero herr _
  rw [hfit]
  exact ⟨herr, rfl, rfl⟩

theorem val_of_mem_valueSet {sm : List ChannelSample} {q : Point Nat} (hq : q ∈ valueSet sm) :
    ∃ t ∈ sm, t.excl = false ∧ t.x = q.val :=
  mem_valueSet.1 (List.mem_map_of_mem hq)

/-- The six-value mode of the endpoints `(0, 0)`. -/
theorem evaluateChannel_six_zero (sm : List ChannelSample) : evaluateChannel .six sm (0, 0) = channelBlockOf sm 0 0 := by
  have hzero : quant8 0 = 0 := by simpa using quant8_natCast (Nat.zero_le 255)
  rw [evaluateChannel, hzero]
  rfl

/-- Settles O56: with nothing included the range is `(0, 0)` and no error is counted; a constant value is its own range and its own
entry; and the six-value mode has 0 and 255 among its entries. -/
theorem channelCornerCasesAreExact : Obligations.ChannelCornerCasesAreExact := by
  unfold Obligations.ChannelCornerCasesAreExact
  refine ⟨fun fit sm hexcl => ?_, fun fit sm h => ?_, fun fit sm c hc hsome h => ?_⟩
  · have hnil : valueSet sm = [] := by
      refine List.eq_nil_iff_forall_not_mem.2 fun q hq => ?_
      obtain ⟨t, ht, hincl, -⟩ := val_of_mem_valueSet hq
      simp [hexcl t ht] at hincl
    refine fitChannel_of_range_eq (Nat.zero_le 255) (by rw [hnil]; rfl) (channelBlockOf_err_eq_zero fun t ht hincl => ?_) fit
    simp [hexcl t ht] at hincl
  · have hnil : fittedValues .six (valueSet sm) = [] := by
      refine List.eq_nil_iff_forall_not_mem.2 fun q hq => ?_
      obtain ⟨hq, h0, h255⟩ := mem_fittedValues_six.1 hq
      obtain ⟨t, ht, hincl, hx⟩ := val_of_mem_valueSet hq
      have := h t ht hincl
      omega
    have hmem : channelBlockOf sm 0 0 ∈ channelBlocks .six fit sm := by
      rw [← evaluateChannel_six_zero, channelBlocks, hnil]
      exact List.mem_cons_self ..
    have herr : (channelBlockOf sm 0 0).err = 0 := by
      refine channelBlockOf_err_eq_zero fun t ht hincl => ?_
      rcases h t ht hincl with hx | hx
      · exact ⟨6, by decide, hx.symm⟩
      · exact ⟨7, by decide, hx.symm⟩
    exact Nat.le_zero.1 ((firstMin_le (fun b : ChannelBlock => b.err) _ _
      (List.mem_cons_of_mem _ (List.mem_append_right _ hmem))).trans herr.le)
  · have hval : ∀ q ∈ valueSet sm, q.val = c := by
      intro q hq
      obtain ⟨t, ht, hincl, hx⟩ := val_of_mem_valueSet hq
      rw [← hx, h t ht hincl]
    obtain ⟨t, ht, hincl⟩ := hsome
    obtain ⟨q, hq, -⟩ := List.mem_map.1 (mem_valueSet.2 ⟨t, ht, hincl, rfl⟩)
    obtain ⟨lo, hlo, hi, hhi, hrange, -⟩ := channelRange_spec (List.ne_nil_of_mem hq)
    rw [hval lo hlo, hval hi hhi] at hrange
    exact fitChannel_of_range_eq hc hrange (channelBlockOf_err_eq_zero fun t ht hincl =>
      ⟨0, by decide, by rw [channelAt_zero, h t ht hincl]⟩) fit

end Sys2Proof.Machine
end

section
/-! The block grid (rules R155 to R157): every pixel of the image is one texel of one block, and which one that is; then what the
driver sends for the texels beyond the edge. -/

namespace Sys2Proof.Machine

/-! ### The block and the texel of a pixel (rules R12, R155, R156) -/

/-- The number of the block that covers a pixel. -/
def coveringBlock (W X Y : Nat) : Nat :=
  Y / 4 * blocksAcross W + X / 4

/-- The number of the texel that covers a pixel. -/
def coveringTexel (X Y : Nat) : Nat :=
  4 * (Y % 4) + X % 4

theorem coveringTexel_lt (X Y : Nat) : coveringTexel X Y < 16 := by
  unfold coveringTexel
  omega

theorem div_four_lt_blocksAcross {X W : Nat} (h : X < W) : X / 4 < blocksAcross W := by
  unfold blocksAcross
  omega

/-- The column and the row of a block of the grid. -/
theorem block_column_row {bw x : Nat} (hx : x < bw) (y : Nat) : (y * bw + x) % bw = x ∧ (y * bw + x) / bw = y := by
  have hbw : 0 < bw := by omega
  rw [Nat.mul_comm, Nat.mul_add_mod, Nat.mod_eq_of_lt hx, Nat.mul_add_div hbw, Nat.div_eq_of_lt hx, Nat.add_zero]
  exact ⟨rfl, rfl⟩

theorem block_lt {bw bh x y : Nat} (hx : x < bw) (hy : y < bh) : y * bw + x < bw * bh := by
  calc y * bw + x < (y + 1) * bw := by rw [Nat.succ_mul]; omega
    _ ≤ bh * bw := Nat.mul_le_mul_right bw hy
    _ = bw * bh := Nat.mul_comm bh bw

theorem coveringBlock_lt {W H X Y : Nat} (hX : X < W) (hY : Y < H) : coveringBlock W X Y < blockCount W H :=
  block_lt (div_four_lt_blocksAcross hX) (div_four_lt_blocksAcross hY)

/-- A texel covers a pixel exactly when it is the one of its block. -/
theorem pixel_eq_iff {W X : Nat} (hX : X < W) {i : Nat} (hi : i < 16) (k Y : Nat) :
    pixelX W k i = X ∧ pixelY W k i = Y ↔ k = coveringBlock W X Y ∧ i = coveringTexel X Y := by
  obtain ⟨hmod, hdiv⟩ := block_column_row (div_four_lt_blocksAcross hX) (Y / 4)
  unfold pixelX pixelY coveringTexel
  constructor
  · rintro ⟨hx, hy⟩
    have hcol : k % blocksAcross W = X / 4 := by omega
    have hrow : k / blocksAcross W = Y / 4 := by omega
    refine ⟨?_, by omega⟩
    rw [coveringBlock, ← hcol, ← hrow, Nat.mul_comm, Nat.div_add_mod]
  · rintro ⟨rfl, rfl⟩
    rw [coveringBlock, hmod, hdiv]
    omega

theorem mem_insideTexels {W H k i : Nat} : i ∈ insideTexels W H k ↔ i < 16 ∧ pixelX W k i < W ∧ pixelY W k i < H := by
  simp [insideTexels]

/-- The covering texel lies inside the image. -/
theorem coveringTexel_mem {W H X Y : Nat} (hX : X < W) (hY : Y < H) :
    coveringTexel X Y ∈ insideTexels W H (coveringBlock W X Y) := by
  obtain ⟨hx, hy⟩ := (pixel_eq_iff hX (coveringTexel_lt X Y) (coveringBlock W X Y) Y).2 ⟨rfl, rfl⟩
  exact mem_insideTexels.2 ⟨coveringTexel_lt X Y, hx.trans_lt hX, hy.trans_lt hY⟩

/-! ### The obligation -/

/-- Settles O58: the two minima choose the covered pixel inside and the last column or row beyond the edge, and the grid cuts each
pixel's column and row in quotient and remainder by 4. -/
theorem blocksTileTheImage : Obligations.BlocksTileTheImage := by
  unfold Obligations.BlocksTileTheImage
  have hin : ∀ {x n : Nat}, x < n → min x (n - 1) = x := fun h => Nat.min_eq_left (by omega)
  have hout : ∀ {x n : Nat}, n ≤ x → min x (n - 1) = n - 1 := fun h => Nat.min_eq_right (by omega)
  refine ⟨fun pixels W H k i hX hY => ?_, fun pixels W H k i hX hY => ?_, fun pixels W H k i hX hY => ?_,
    fun pixels W H k i hX hY => ?_, fun W H X Y hX hY => ?_⟩
  · rw [blockTexel, hin hX, hin hY]
  · rw [blockTexel, hout hX, hin hY]
  · rw [blockTexel, hin hX, hout hY]
  · rw [blockTexel, hout hX, hout hY]
  · obtain ⟨hx, hy⟩ := (pixel_eq_iff hX (coveringTexel_lt X Y) (coveringBlock W X Y) Y).2 ⟨rfl, rfl⟩
    refine ⟨_, _, coveringBlock_lt hX hY, coveringTexel_mem hX hY, hx, hy, fun k' i' hi' hx' hy' => ?_⟩
    exact (pixel_eq_iff hX (mem_insideTexels.1 hi').1 k' Y).1 ⟨hx', hy'⟩

end Sys2Proof.Machine
end

section
/-! The runs of the image driver (rules R156 to R163): the results of a complete plan are the words of every block, whatever the
plan, so that the stream and the image are functions of the input alone. -/

namespace Sys2Proof.Machine

/-! ### The results of a complete plan (rule R158) -/

/-- What a plan answers for known words of each block. -/
def planResults (words : Nat → List Word) (plan : List Job) : List (Nat × List Word) :=
  plan.map fun j => (j.block, words j.block)

section Plan
variable {n cores : Nat} {plan : List Job} (hplan : CompletePlan n cores plan) (words : Nat → List Word)
include hplan

theorem CompletePlan.mem_block_iff {k : Nat} : k ∈ plan.map (·.block) ↔ k < n :=
  hplan.1.mem_iff.trans List.mem_range

/-- The results name each block below `n` once, with its words. -/
theorem mem_planResults {r : Nat × List Word} : r ∈ planResults words plan ↔ r.1 < n ∧ r.2 = words r.1 := by
  rw [planResults, ← hplan.mem_block_iff]
  obtain ⟨k, ws⟩ := r
  simp only [List.mem_map, Prod.mk.injEq]
  constructor
  · rintro ⟨j, hj, rfl, rfl⟩
    exact ⟨⟨j, hj, rfl⟩, rfl⟩
  · rintro ⟨⟨j, hj, rfl⟩, rfl⟩
    exact ⟨j, hj, rfl, rfl⟩

theorem lookup_planResults {k : Nat} (hk : k < n) : (planResults words plan).lookup k = some (words k) :=
  lookup_of_forall ⟨(k, words k), (mem_planResults hplan words).2 ⟨hk, rfl⟩, rfl⟩
    fun _ he hek => hek ▸ ((mem_planResults hplan words).1 he).2

end Plan

/-- A complete plan on idle cores answers the words that the program of each block reads. -/
theorem runPlan_of_completePlan {n : Nat} {cores : List State} {plan : List Job} {writes reads : Nat → List HostOp}
    {words : Nat → List Word} (hidle : AllIdle cores) (hplan : CompletePlan n cores.length plan)
    (hrun : ∀ k, k < n → ∀ c delay, c.status.busy = false →
      ∃ c', c'.status.busy = false ∧ runProgram c (writes k) (reads k) delay = some (c', words k)) :
    runPlan writes reads cores plan = some (planResults words plan) :=
  runPlan_eq plan (fun _ hj => hrun _ (hplan.mem_block_iff.1 (List.mem_map_of_mem hj))) cores hidle hplan.2

/-! ### compress (rules R156, R157, R159) -/

/-- The stream of a complete plan: the words of the blocks, as bytes, in order. -/
theorem assembleStream_planResults {n cores : Nat} {plan : List Job} (hplan : CompletePlan n cores plan)
    (words : Nat → List Word) : assembleStream n (planResults words plan) =
      some ((List.range n).flatMap fun k => (words k).flatMap fun w => leBytes 4 w.toNat) := by
  have hall : allSome ((List.range n).map fun k => (planResults words plan).lookup k) = some ((List.range n).map words) := by
    rw [allSome_map_eq_some, List.map_map]
    exact List.map_congr_left fun k hk => lookup_planResults hplan words (List.mem_range.1 hk)
  rw [assembleStream, hall]
  simp only [List.flatMap_map]

/-- With no host-level error, the answer of `compress` is the stream of its plan's results. -/
theorem compressOn_of_runPlan {cores : List State} {plan : List Job} {pixels : List Texel} {W H tag : Nat} {fmt : Format}
    {high weighted : Bool} (hW : W ≠ 0) (hH : H ≠ 0) (htag : formatOfTag tag = some fmt) (hlen : W * H ≤ pixels.length)
    {results : List (Nat × List Word)} {bytes : List Byte}
    (hrun : runPlan (fun k => compressWrites (compressCommand fmt high weighted) (blockTexels pixels W H k))
      (fun _ => compressReads fmt) cores plan = some results)
    (hbytes : assembleStream (blockCount W H) results = some bytes) :
    compressOn cores plan pixels W H tag high weighted = .ok bytes := by
  unfold compressOn
  rw [if_neg (by simp [hW, hH])]
  simp only [htag]
  rw [if_neg (by omega), hrun]
  simp only [hbytes]

/-- The texels of a block as the image holds them (rules R152, R157). -/
theorem blockTexels_getElem? {pixels : List Texel} {W H : Nat} (hW : W ≠ 0) (hH : H ≠ 0) (hlen : W * H ≤ pixels.length)
    {x y i : Nat} (hx : x < blocksAcross W) (hi : i < 16) :
    (blockTexels pixels W H (y * blocksAcross W + x))[i]? =
      pixels[min (4 * y + i / 4) (H - 1) * W + min (4 * x + i % 4) (W - 1)]? := by
  obtain ⟨hmod, hdiv⟩ := block_column_row hx y
  have hpos : min (4 * y + i / 4) (H - 1) * W + min (4 * x + i % 4) (W - 1) < W * H :=
    block_lt (by omega) (by omega)
  have hpos := hpos.trans_le hlen
  simp [blockTexels, hi, blockTexel, pixelAt, pixelX, pixelY, hmod, hdiv, hpos]

theorem blockTexels_length (pixels : List Texel) (W H k : Nat) : (blockTexels pixels W H k).length = 16 := by
  simp [blockTexels]

theorem blockBytes_mod_four (fmt : Format) : fmt.blockBytes % 4 = 0 := by
  cases fmt <;> rfl

/-- Settles O59: each block's program reads back the bytes that its command stores, so the stream is those bytes in block order. -/
theorem compressDoesNotDependOnThePlan : Obligations.CompressDoesNotDependOnThePlan := by
  unfold Obligations.CompressDoesNotDependOnThePlan
  intro pixels W H tag fmt high weighted hW hH htag hlen
  obtain ⟨B, hB, hexec, hrun⟩ := compress_block fmt high weighted
  have hwords : ∀ k, (wordsOf (B (blockTexels pixels W H k))).flatMap (fun w => leBytes 4 w.toNat) =
      B (blockTexels pixels W H k) := fun k => wordsOf_bytes _ (by rw [hB, blockBytes_mod_four])
  refine ⟨(List.range (blockCount W H)).flatMap fun k => B (blockTexels pixels W H k), ?_, fun cores plan hidle hplan => ?_,
    fun x y hx hy c t hmask hpix hperform j hj => ?_⟩
  · simp [List.length_flatMap, hB]
  · have hplanrun := runPlan_of_completePlan hidle hplan fun k _ c delay =>
      hrun (blockTexels pixels W H k) c delay (blockTexels_length pixels W H k)
    refine compressOn_of_runPlan hW hH htag hlen hplanrun ?_
    rw [assembleStream_planResults hplan]
    simp only [hwords]
  · have hread : readPix c.mem = some (blockTexels pixels W H (y * blocksAcross W + x)) := by
      refine readPix_eq_some.2 ⟨blockTexels_length _ _ _ _, fun i hi => ?_⟩
      have hi' : i < 16 := by rwa [blockTexels_length] at hi
      rw [hpix i hi', ← blockTexels_getElem? hW hH hlen hx hi', List.getElem?_eq_getElem hi]
    obtain ⟨t', ht', hbytes⟩ := hexec c _ hread hmask
    rw [perform_compress htag, ht'] at hperform
    obtain rfl := Host.Outcome.next.inj hperform
    rw [hbytes j hj]
    exact flatMap_getElem _ _ (fun k => hB _) _ _ _ (block_lt hx hy) hj

/-! ### decompress (rules R156, R160, R163) -/

/-- With no host-level error, the answer of `decompress` is the image of its plan's results. -/
theorem decompressOn_of_runPlan {cores : List State} {plan : List Job} {bytes : List Byte} {W H tag : Nat} {fmt : Format}
    (hW : W ≠ 0) (hH : H ≠ 0) (htag : formatOfTag tag = some fmt) (hlen : blockCount W H * fmt.blockBytes ≤ bytes.length)
    {results : List (Nat × List Word)} {image : List Texel}
    (hrun : runPlan (decompressWrites fmt bytes) (decompressReads W H) cores plan = some results)
    (himage : assembleImage W H results = some image) :
    decompressOn cores plan bytes W H tag = .ok image := by
  unfold decompressOn
  rw [if_neg (by simp [hW, hH])]
  simp only [htag]
  rw [if_neg (by omega), hrun]
  simp only [himage]

/-- The words that a block's program reads when its command decodes to the texels `tx`. -/
def insideWords (W H k : Nat) (tx : List Texel) : List Word :=
  (insideTexels W H k).map fun i => texelWord (texelAt tx i)

/-- The pixels a block's words give are the texels at their places. -/
theorem placedPixels_insideWords (W H k : Nat) (tx : List Texel) : placedPixels W H k (insideWords W H k tx) =
    (insideTexels W H k).map fun i => (pixelY W k i * W + pixelX W k i, texelAt tx i) := by
  simp only [placedPixels, insideWords, List.zipWith_map_right, List.zipWith_self, texelOfWord_texelWord]

/-- The image whose block `k` holds the texels `texels k`. -/
def tiledImage (W H : Nat) (texels : Nat → List Texel) : List Texel :=
  (List.range (W * H)).map fun p => texelAt (texels (coveringBlock W (p % W) (p / W))) (coveringTexel (p % W) (p / W))

/-- A position in the image is a row and a column. -/
theorem position_row_column {W X : Nat} (hX : X < W) (Y p : Nat) : Y * W + X = p ↔ X = p % W ∧ Y = p / W := by
  obtain ⟨hmod, hdiv⟩ := block_column_row hX Y
  constructor
  · rintro rfl
    exact ⟨hmod.symm, hdiv.symm⟩
  · rintro ⟨rfl, rfl⟩
    exact Nat.div_add_mod' p W

/-- The image of a complete plan whose blocks decode to `texels`. -/
theorem assembleImage_planResults {W H cores : Nat} {plan : List Job} (hplan : CompletePlan (blockCount W H) cores plan)
    (texels : Nat → List Texel) :
    assembleImage W H (planResults (fun k => insideWords W H k (texels k)) plan) = some (tiledImage W H texels) := by
  rw [assembleImage, allSome_map_eq_some, tiledImage, List.map_map]
  refine List.map_congr_left fun p hp => ?_
  have hp : p < W * H := List.mem_range.1 hp
  have hW : 0 < W := Nat.pos_of_ne_zero fun h => by simp [h] at hp
  have hX : p % W < W := Nat.mod_lt p hW
  have hY : p / W < H := Nat.div_lt_of_lt_mul hp
  have hmem : ∀ e : Nat × Texel, (e ∈ (planResults (fun k => insideWords W H k (texels k)) plan).flatMap
      fun r => placedPixels W H r.1 r.2) ↔ ∃ k, k < blockCount W H ∧ ∃ i ∈ insideTexels W H k,
        (pixelY W k i * W + pixelX W k i, texelAt (texels k) i) = e := by
    intro e
    simp only [List.mem_flatMap, Prod.exists, mem_planResults hplan]
    constructor
    · rintro ⟨k, _, ⟨hk, rfl⟩, he⟩
      rw [placedPixels_insideWords] at he
      exact ⟨k, hk, List.mem_map.1 he⟩
    · rintro ⟨k, hk, he⟩
      exact ⟨k, _, ⟨hk, rfl⟩, by rw [placedPixels_insideWords]; exact List.mem_map.2 he⟩
  refine lookup_of_forall ?_ fun e he hep => ?_
  · obtain ⟨hx, hy⟩ := (pixel_eq_iff hX (coveringTexel_lt (p % W) (p / W)) (coveringBlock W (p % W) (p / W)) (p / W)).2 ⟨rfl, rfl⟩
    refine ⟨_, (hmem _).2 ⟨_, coveringBlock_lt hX hY, _, coveringTexel_mem hX hY, rfl⟩, ?_⟩
    rw [hx, hy]
    exact Nat.div_add_mod' p W
  · obtain ⟨k, -, i, hi, rfl⟩ := (hmem e).1 he
    obtain ⟨hi16, hxW, -⟩ := mem_insideTexels.1 hi
    obtain ⟨rfl, rfl⟩ := (pixel_eq_iff hX hi16 k (p / W)).1 ((position_row_column hxW _ _).1 hep)
    rfl

/-- Bytes behind a block's own do not matter (rule R163). -/
theorem blockSlice_append {s k : Nat} {bytes : List Byte} (h : (k + 1) * s ≤ bytes.length) (more : List Byte) :
    blockSlice s (bytes ++ more) k = blockSlice s bytes k := by
  rw [Nat.succ_mul] at h
  rw [blockSlice, blockSlice, List.drop_append_of_le_length (by omega), List.take_append_of_le_length (by simp; omega)]

/-- `BLK` that holds the bytes of a block is read as its slice of the stream. -/
theorem readBlk_blockSlice {m : Memory} {s k : Nat} {bytes : List Byte} (h : (k + 1) * s ≤ bytes.length)
    (hm : ∀ j, j < s → m.read (0x80 + j) = bytes[k * s + j]?) : readBlk m s = some (blockSlice s bytes k) := by
  rw [Nat.succ_mul] at h
  have hlen : (blockSlice s bytes k).length = s := by simp [blockSlice]; omega
  refine Memory.readBytes_eq_some.2 ⟨hlen, fun i hi => ?_⟩
  have hi' : i < s := by omega
  rw [blkBase, hm i hi', List.getElem?_eq_getElem (by omega)]
  simp [blockSlice]

/-- Settles O60: each block's program reads the texels that its command writes, and the pixel at a place is the one texel that covers
it. -/
theorem decompressDoesNotDependOnThePlan : Obligations.DecompressDoesNotDependOnThePlan := by
  unfold Obligations.DecompressDoesNotDependOnThePlan
  intro bytes W H tag fmt hW hH htag hlen
  obtain ⟨f, hf, hexec, hrun⟩ := decompress_block fmt
  have hblock : ∀ k, k < blockCount W H → (k + 1) * fmt.blockBytes ≤ bytes.length := fun k hk =>
    (Nat.mul_le_mul_right _ hk).trans hlen
  refine ⟨tiledImage W H fun k => f (blockSlice fmt.blockBytes bytes k), by simp [tiledImage], fun cores plan more hidle hplan => ?_,
    fun X Y hX hY c t hblk hperform => ?_⟩
  · have hlen' : bytes.length ≤ (bytes ++ more).length := by simp
    have hplanrun := runPlan_of_completePlan (words := fun k => insideWords W H k (f (blockSlice fmt.blockBytes bytes k)))
      hidle hplan fun k hk c delay hb => by
        rw [← blockSlice_append (hblock k hk) more]
        exact hrun (bytes ++ more) W H k c delay ((hblock k hk).trans hlen') hb
    exact decompressOn_of_runPlan hW hH htag (hlen.trans hlen') hplanrun (assembleImage_planResults hplan _)
  · have hread := readBlk_blockSlice (hblock _ (coveringBlock_lt hX hY)) hblk
    obtain ⟨t', ht', hpix⟩ := hexec c _ hread
    rw [perform_decompress htag, ht'] at hperform
    obtain rfl := Host.Outcome.next.inj hperform
    have hi : coveringTexel X Y < (f (blockSlice fmt.blockBytes bytes (coveringBlock W X Y))).length := by
      rw [hf]; exact coveringTexel_lt X Y
    obtain ⟨hmod, hdiv⟩ := block_column_row hX Y
    have hpos : Y * W + X < W * H := block_lt hX hY
    refine Eq.trans ?_ ((readPix_eq_some.1 hpix).2 (coveringTexel X Y) hi).symm
    simp [tiledImage, hpos, hmod, hdiv, texelAt, hi]

end Sys2Proof.Machine
end
